-- ==== Sys2Proof/Word.lean ====
section
/-! DEFINITION. The word types of the block: a byte, a 32-bit word, a pixel, the colour cache's register file. -/

namespace Sys2Proof

/-- `u8` of R8: one channel, one byte of a stream. -/
abbrev Byte := BitVec 8

/-- `u32` of R8: a header integer. -/
abbrev Word := BitVec 32

/-- `Pixel` of R8: a record of four `u8`; two pixels are equal when all four channels are. -/
structure Pixel where
  r : Byte
  g : Byte
  b : Byte
  a : Byte
deriving DecidableEq, Repr, Inhabited

/-- CACHE of R17: exactly 64 entries, each one pixel. -/
abbrev Cache := Vector Pixel 64

end Sys2Proof
end

