-- ==== Sys2Proof/Config.lean ====
section
/-! DEFINITION. The free values: what the spec leaves unspecified, as constants without a body. -/

namespace Sys2Proof

/-- A value of `w` bits the spec leaves unspecified (R34, R173, R177, U4, U5), numbered by `k`; nothing constrains it (log 5). -/
opaque Config.freeBits (w k : Nat) : BitVec w

/-- A position (a `Nat` register: R19, R20, R31) the spec leaves unspecified, numbered by `k` (log 5, log 8). -/
opaque Config.freeNat (k : Nat) : Nat

end Sys2Proof
end

