-- ==== Sys2Proof/Syntax.lean ====
section
/-! DEFINITION. The instructions: one constructor per row of spec/opcode_table.json, operands as the formats store them. -/

namespace Sys2Proof

/-- The seven chunk kinds, the header and the trailer (R65, R59). An operand is the STORED field of its format
(R77), before any bias is taken off. -/
inductive Instr where
  /-- INDEX, R68: the 6-bit cache index. -/
  | index (i : BitVec 6)
  /-- RUN_S, R69: run length minus 1. -/
  | runS (n : BitVec 5)
  /-- RUN_L, R70: run length minus 33. -/
  | runL (f : BitVec 13)
  /-- DIFF_S, R71: three deltas plus 2. -/
  | diffS (r g b : BitVec 2)
  /-- DIFF_M, R72: the R delta plus 16, the G and B deltas plus 8. -/
  | diffM (r : BitVec 5) (g b : BitVec 4)
  /-- DIFF_L, R73: four deltas plus 16. -/
  | diffL (r g b a : BitVec 5)
  /-- OVERWRITE, R74: a literal for each flagged channel, `none` where the flag is 0. -/
  | overwrite (r g b a : Option Byte)
  /-- HEADER, R60 to R64: width, height, channels, color_space (the magic is fixed). -/
  | header (width height : Word) (channels colorspace : Byte)
  /-- TRAILER, R76. -/
  | trailer
deriving DecidableEq, Repr

end Sys2Proof
end

