-- ==== Sys2Proof/WellFormed.lean ====
section
/-! DEFINITION. Which instructions are well formed. -/

namespace Sys2Proof

/-- The `channels` values a stream to be decoded may carry (R63). -/
def channelsLegal (c : Byte) : Bool := c == 3#8 || c == 4#8

/-- Every chunk and the trailer are well formed whatever their fields hold (R79: no encoding is reserved); a header is
well formed when a decoder accepts it: width and height are not 0 (R61, R62) and channels is 3 or 4 (R63). -/
def Instr.wf : Instr → Bool
  | .index _ => true
  | .runS _ => true
  | .runL _ => true
  | .diffS _ _ _ => true
  | .diffM _ _ _ => true
  | .diffL _ _ _ _ => true
  | .overwrite _ _ _ _ => true
  | .header w h c _ => w != 0#32 && h != 0#32 && channelsLegal c
  | .trailer => true

end Sys2Proof
end

