-- ==== Sys2Proof/Decode.lean ====
section
/-! DEFINITION. Decoding bytes into instructions, total and refusing by name, and the encoder written from the same formats. -/

namespace Sys2Proof

/-! ### Bit fields (R7) -/

/-- `v[lo + w - 1 : lo]` of R7. -/
def field {n : Nat} (v : BitVec n) (lo w : Nat) : BitVec w := v.extractLsb' lo w

/-- `a ++ b` of R7, `a` in the more significant position; `k` is the sum of the two widths wherever it is used. -/
def join {m n : Nat} (k : Nat) (a : BitVec m) (b : BitVec n) : BitVec k := (a ++ b).setWidth k

/-! ### Tags (R66; PRESUMED, log 1: the spec gives the values, and the places of the fields below, log 2, from general
knowledge) -/

def tagIndex : BitVec 2 := 0b00#2
def tagRunS : BitVec 3 := 0b010#3
def tagRunL : BitVec 3 := 0b011#3
def tagDiffS : BitVec 2 := 0b10#2
def tagDiffM : BitVec 3 := 0b110#3
def tagDiffL : BitVec 4 := 0b1110#4
def tagOverwrite : BitVec 4 := 0b1111#4

/-- The kinds the dispatch of R111 ends in; `reset` is the source's "any byte matching none of these" (R75, R119). -/
inductive ChunkKind where
  | index | runS | runL | diffS | diffM | diffL | overwrite | reset
deriving DecidableEq, Repr

/-- R111: the tests on the first byte in the source's priority order, the long run after the short run (R81). -/
def dispatchTag (b1 : Byte) : ChunkKind :=
  if field b1 6 2 = tagIndex then .index
  else if field b1 5 3 = tagRunS then .runS
  else if field b1 5 3 = tagRunL then .runL
  else if field b1 6 2 = tagDiffS then .diffS
  else if field b1 5 3 = tagDiffM then .diffM
  else if field b1 4 4 = tagDiffL then .diffL
  else if field b1 4 4 = tagOverwrite then .overwrite
  else .reset

/-- The OVERWRITE flags of R74: bit 3 R, bit 2 G, bit 1 B, bit 0 A. -/
def flagR (b1 : Byte) : Bool := b1.getLsbD 3
def flagG (b1 : Byte) : Bool := b1.getLsbD 2
def flagB (b1 : Byte) : Bool := b1.getLsbD 1
def flagA (b1 : Byte) : Bool := b1.getLsbD 0

/-- `popcount` (R9) of the four OVERWRITE flags. -/
def literalCount (b1 : Byte) : Nat := (flagR b1).toNat + (flagG b1).toNat + (flagB b1).toNat + (flagA b1).toNat

/-- R78: the length of a chunk, from its first byte alone (a RESET would be one byte: R119). -/
def chunkLength (b1 : Byte) : Nat :=
  match dispatchTag b1 with
  | .index => 1
  | .runS => 1
  | .runL => 2
  | .diffS => 1
  | .diffM => 2
  | .diffL => 3
  | .overwrite => 1 + literalCount b1
  | .reset => 1

/-- Why bytes are no instruction at the place where they stand. -/
inductive Reject where
  /-- The bytes end before the chunk does (R124). -/
  | endOfStream
  /-- Fewer than 14 bytes where the header stands (R88). -/
  | shortHeader
  /-- The magic is not "qoif" (R89). -/
  | badMagic
  /-- No tag matches the first byte (R75); no byte does that (R67). -/
  | noKind
  /-- Not four zero bytes where the trailer stands (R76). -/
  | notTrailer
deriving DecidableEq, Repr

/-- An instruction and the bytes after it, or the reason there is none. -/
inductive Decoded where
  | ok (i : Instr) (rest : List Byte)
  | reject (r : Reject)
deriving DecidableEq, Repr

/-- One literal of an OVERWRITE chunk: a byte is taken exactly where the flag is set (R74). -/
def takeLiteral (flag : Bool) (bs : List Byte) : Option (Option Byte × List Byte) :=
  match flag, bs with
  | false, bs => some (none, bs)
  | true, b :: bs => some (some b, bs)
  | true, [] => none

/-- The literals of an OVERWRITE chunk, in the order R, G, B, A (R74, R118). -/
def decodeOverwrite (b1 : Byte) (bs : List Byte) : Decoded :=
  match takeLiteral (flagR b1) bs with
  | none => .reject .endOfStream
  | some (r, bs) =>
    match takeLiteral (flagG b1) bs with
    | none => .reject .endOfStream
    | some (g, bs) =>
      match takeLiteral (flagB b1) bs with
      | none => .reject .endOfStream
      | some (b, bs) =>
        match takeLiteral (flagA b1) bs with
        | none => .reject .endOfStream
        | some (a, bs) => .ok (.overwrite r g b a) bs

/-- A RUN_L chunk's fields (R70, R47: the high 5 bits first). -/
def decodeRunL (b1 : Byte) (bs : List Byte) : Decoded :=
  match bs with
  | b2 :: bs => .ok (.runL (join 13 (field b1 0 5) b2)) bs
  | [] => .reject .endOfStream

/-- A DIFF_M chunk's fields (R72). -/
def decodeDiffM (b1 : Byte) (bs : List Byte) : Decoded :=
  match bs with
  | b2 :: bs => .ok (.diffM (field b1 0 5) (field b2 4 4) (field b2 0 4)) bs
  | [] => .reject .endOfStream

/-- The 20-bit value `F` of R73. -/
def diffLBits (b1 b2 b3 : Byte) : BitVec 20 := join 20 (field b1 0 4) (join 16 b2 b3)

/-- A DIFF_L chunk's fields (R73). -/
def decodeDiffL (b1 : Byte) (bs : List Byte) : Decoded :=
  match bs with
  | b2 :: b3 :: bs =>
    .ok (.diffL (field (diffLBits b1 b2 b3) 15 5) (field (diffLBits b1 b2 b3) 10 5)
      (field (diffLBits b1 b2 b3) 5 5) (field (diffLBits b1 b2 b3) 0 5)) bs
  | _ => .reject .endOfStream

/-- The chunk at the head of `bs` (R111 and the formats R68 to R74). -/
def decodeChunk (bs : List Byte) : Decoded :=
  match bs with
  | [] => .reject .endOfStream
  | b1 :: bs =>
    match dispatchTag b1 with
    | .index => .ok (.index (field b1 0 6)) bs
    | .runS => .ok (.runS (field b1 0 5)) bs
    | .runL => decodeRunL b1 bs
    | .diffS => .ok (.diffS (field b1 4 2) (field b1 2 2) (field b1 0 2)) bs
    | .diffM => decodeDiffM b1 bs
    | .diffL => decodeDiffL b1 bs
    | .overwrite => decodeOverwrite b1 bs
    | .reset => .reject .noKind

/-- A big-endian 32-bit integer (R46). -/
def wordOfBytes (b3 b2 b1 b0 : Byte) : Word := join 32 (join 16 b3 b2) (join 16 b1 b0)

/-- The four bytes of a 32-bit integer, most significant first (R46). -/
def bytesOfWord (w : Word) : List Byte := [field w 24 8, field w 16 8, field w 8 8, field w 0 8]

/-- The magic "qoif" as bytes (R60; PRESUMED, log 3: the letters as ASCII). -/
def magic : List Byte := [0x71#8, 0x6F#8, 0x69#8, 0x66#8]

/-- What the first 14 bytes hold, whether or not they are a header: the magic's bytes and the four fields (R60 to R64). -/
def headerParts : List Byte → Option (List Byte × Word × Word × Byte × Byte × List Byte)
  | m0 :: m1 :: m2 :: m3 :: w3 :: w2 :: w1 :: w0 :: h3 :: h2 :: h1 :: h0 :: c :: s :: bs =>
    some ([m0, m1, m2, m3], wordOfBytes w3 w2 w1 w0, wordOfBytes h3 h2 h1 h0, c, s, bs)
  | _ => none

/-- The header at the head of `bs` (R59 to R64). A header whose fields a decoder rejects is still an instruction: HDR.PARSE
raises on it (R89). -/
def decodeHeader (bs : List Byte) : Decoded :=
  match headerParts bs with
  | none => .reject .shortHeader
  | some (m, w, h, c, s, rest) => if m = magic then .ok (.header w h c s) rest else .reject .badMagic

/-- The trailer at the head of `bs` (R76). -/
def decodeTrailer (bs : List Byte) : Decoded :=
  match bs with
  | b0 :: b1 :: b2 :: b3 :: bs =>
    if b0 = 0#8 ∧ b1 = 0#8 ∧ b2 = 0#8 ∧ b3 = 0#8 then .ok .trailer bs else .reject .notTrailer
  | _ => .reject .notTrailer

/-- Where in a stream an instruction stands: the grammar of R59. Header and trailer are matched by position and never by
dispatch (R76, opcode_table.json). -/
inductive Position where
  | header | chunk | trailer
deriving DecidableEq, Repr

/-- The decoder: the instruction at the head of `bs`, read as what stands at `pos`. -/
def decodeAt (pos : Position) (bs : List Byte) : Decoded :=
  match pos with
  | .header => decodeHeader bs
  | .chunk => decodeChunk bs
  | .trailer => decodeTrailer bs

/-! ### The encoder -/

/-- Where an instruction stands in a stream (R59). -/
def Instr.position : Instr → Position
  | .index _ => .chunk
  | .runS _ => .chunk
  | .runL _ => .chunk
  | .diffS _ _ _ => .chunk
  | .diffM _ _ _ => .chunk
  | .diffL _ _ _ _ => .chunk
  | .overwrite _ _ _ _ => .chunk
  | .header _ _ _ _ => .header
  | .trailer => .trailer

/-- The first byte of an OVERWRITE chunk (R74). -/
def overwriteTag (r g b a : Option Byte) : Byte :=
  join 8 tagOverwrite
    (join 4 (join 2 (BitVec.ofBool r.isSome) (BitVec.ofBool g.isSome))
      (join 2 (BitVec.ofBool b.isSome) (BitVec.ofBool a.isSome)))

/-- The 20-bit value `F` of R73 from its four fields. -/
def diffLJoin (r g b a : BitVec 5) : BitVec 20 := join 20 (join 10 r g) (join 10 b a)

/-- The bytes of an instruction, first byte first (R60 to R64, R68 to R74, R76). -/
def encode : Instr → List Byte
  | .index i => [join 8 tagIndex i]
  | .runS n => [join 8 tagRunS n]
  | .runL f => [join 8 tagRunL (field f 8 5), field f 0 8]
  | .diffS r g b => [join 8 tagDiffS (join 6 r (join 4 g b))]
  | .diffM r g b => [join 8 tagDiffM r, join 8 g b]
  | .diffL r g b a =>
    [join 8 tagDiffL (field (diffLJoin r g b a) 16 4), field (diffLJoin r g b a) 8 8, field (diffLJoin r g b a) 0 8]
  | .overwrite r g b a => overwriteTag r g b a :: (r.toList ++ g.toList ++ b.toList ++ a.toList)
  | .header w h c s => magic ++ bytesOfWord w ++ bytesOfWord h ++ [c, s]
  | .trailer => [0#8, 0#8, 0#8, 0#8]

/-- How many bytes an instruction has: R78 for a chunk, 14 for the header (R59), 4 for the trailer (R76). -/
def Instr.size : Instr → Nat
  | .index _ => 1
  | .runS _ => 1
  | .runL _ => 2
  | .diffS _ _ _ => 1
  | .diffM _ _ _ => 2
  | .diffL _ _ _ _ => 3
  | .overwrite r g b a => 1 + r.isSome.toNat + g.isSome.toNat + b.isSome.toNat + a.isSome.toNat
  | .header _ _ _ _ => 14
  | .trailer => 4

/-! ### The notation for chunk streams (R82, R83): operands as meanings, `none` outside their range -/

/-- A delta `d` stored with bias `bias` in `w` bits (R77), `none` where it does not fit. -/
def storeDelta (w : Nat) (bias d : Int) : Option (BitVec w) :=
  if 0 ≤ d + bias ∧ d + bias < 2 ^ w then some (BitVec.ofInt w (d + bias)) else none

/-- `INDEX i` of R82. -/
def itemIndex (i : Nat) : Option Instr := if i ≤ 63 then some (.index (BitVec.ofNat 6 i)) else none

/-- `RUN_S len` of R82. -/
def itemRunS (len : Nat) : Option Instr :=
  if 1 ≤ len ∧ len ≤ 32 then some (.runS (BitVec.ofNat 5 (len - 1))) else none

/-- `RUN_L len` of R82. -/
def itemRunL (len : Nat) : Option Instr :=
  if 33 ≤ len ∧ len ≤ 8224 then some (.runL (BitVec.ofNat 13 (len - 33))) else none

/-- `RUN len` of R83. -/
def itemRun (len : Nat) : Option Instr := if len ≤ 32 then itemRunS len else itemRunL len

/-- `DIFF_S dr dg db` of R82. -/
def itemDiffS (dr dg db : Int) : Option Instr :=
  match storeDelta 2 2 dr, storeDelta 2 2 dg, storeDelta 2 2 db with
  | some r, some g, some b => some (.diffS r g b)
  | _, _, _ => none

/-- `DIFF_M dr dg db` of R82. -/
def itemDiffM (dr dg db : Int) : Option Instr :=
  match storeDelta 5 16 dr, storeDelta 4 8 dg, storeDelta 4 8 db with
  | some r, some g, some b => some (.diffM r g b)
  | _, _, _ => none

/-- `DIFF_L dr dg db da` of R82. -/
def itemDiffL (dr dg db da : Int) : Option Instr :=
  match storeDelta 5 16 dr, storeDelta 5 16 dg, storeDelta 5 16 db, storeDelta 5 16 da with
  | some r, some g, some b, some a => some (.diffL r g b a)
  | _, _, _, _ => none

/-- `RGBA r g b a` of R83. -/
def itemRgba (r g b a : Byte) : Instr := .overwrite (some r) (some g) (some b) (some a)

/-! ### The opcode table's numbers (log 13) -/

/-- Byte `k` of `w` where bytes are numbered from the least significant end. -/
def tableByte (w k : Nat) : Byte := BitVec.ofNat 8 (w / 2 ^ (8 * k))

/-- The table's number for the HEADER row's first word: bytes 0 to 3 read as one big-endian 32-bit value. -/
def tableMagic : Nat := 0x716F6966

/-- Which position of the grammar (R59) a table word is for: HEADER's is 14 bytes or begins with the magic word, TRAILER's
is four bytes of zero, every other row is a chunk. -/
def tablePosition (nbits w : Nat) : Position :=
  if nbits = 112 ∨ (nbits = 32 ∧ w % 2 ^ 32 = tableMagic) then .header
  else if nbits = 32 ∧ w = 0 then .trailer
  else .chunk

/-- The bytes of a table word in stream order, up to the longest instruction of its position, bits above `nbits` zero.
The header's magic, width and height are 32-bit words, each big-endian (R46); everything else counts by bytes. -/
def tableBytes (nbits w : Nat) : List Byte :=
  match tablePosition nbits w with
  | .header =>
    bytesOfWord (BitVec.ofNat 32 w) ++ bytesOfWord (BitVec.ofNat 32 (w % 2 ^ nbits / 2 ^ 32)) ++
      bytesOfWord (BitVec.ofNat 32 (w % 2 ^ nbits / 2 ^ 64)) ++
      [tableByte (w % 2 ^ nbits) 12, tableByte (w % 2 ^ nbits) 13]
  | .chunk => (List.range 5).map (tableByte (w % 2 ^ nbits))
  | .trailer => (List.range 4).map (tableByte (w % 2 ^ nbits))

/-- What the decoder reads from a word of spec/opcode_table.json. -/
def decodeTableWord (nbits w : Nat) : Option Instr :=
  match decodeAt (tablePosition nbits w) (tableBytes nbits w) with
  | .ok i _ => some i
  | .reject _ => none

end Sys2Proof
end

