-- ==== Sys2Proof/Machine/State.lean ====
section
/-! DEFINITION. The state of the block: the two engine contexts, the five spaces, the host's side of the ports; the reset state. -/

namespace Sys2Proof.Machine

/-- PHASE of R29. -/
inductive Phase where
  | idle | header | pixels | trailer | done | error
deriving DecidableEq, Repr

/-- The error kinds of ERR (R30, R155). -/
inductive ErrKind where
  | none | format | truncated | io | unsupportedPixel
deriving DecidableEq, Repr

/-- The two engine contexts (R13). -/
inductive Engine where
  | enc | dec
deriving DecidableEq, Repr

/-- A byte-addressed space: (offset, byte) pairs, offsets strictly rising (`Memory.wf`). An offset not listed holds no
byte (log 16). -/
abbrev Memory := List Host.Cell

/-- The CFG inputs of R28. -/
structure Cfg where
  width : Word
  height : Word
  channels : Byte
  colorspace : Byte
deriving DecidableEq, Repr

/-- The registers of the decoder context (R13 to R15, R17, R19, R21 to R27, R29 to R31). -/
structure DecCtx where
  prev : Pixel
  run : BitVec 14
  cache : Cache
  ipos : Nat
  npix : Nat
  ppos : Nat
  hdrWidth : Word
  hdrHeight : Word
  hdrChannels : Byte
  hdrColorspace : Byte
  hdrValid : Bool
  phase : Phase
  err : ErrKind
  errPos : Nat
deriving DecidableEq, Repr

/-- The registers of the encoder context (R13 to R15, R17, R20 to R22, R28 to R30); `cfg` is what START sampled (R185). -/
structure EncCtx where
  prev : Pixel
  run : BitVec 14
  cache : Cache
  opos : Nat
  npix : Nat
  ppos : Nat
  cfg : Cfg
  phase : Phase
  err : ErrKind
deriving DecidableEq, Repr

/-- What the host can do to the block (R173, R177, R178, R158). -/
inductive HostAction where
  /-- The reset input (R173). -/
  | hardReset
  /-- START to one context (R177, R174). -/
  | start (e : Engine)
  /-- ABORT to one context (R177). -/
  | abort (e : Engine)
  /-- `io_fail` to one context while its current step is under way (R158). -/
  | ioFail (e : Engine)
  /-- Drive the CFG inputs (R28). -/
  | driveCfg (c : Cfg)
  /-- Offer the next byte on BI (R178). -/
  | offerByte (b : Byte)
  /-- Signal end of stream on BI (R40, R178). -/
  | endOfStream
  /-- Offer the next pixel on PXI (R178). -/
  | offerPixel (p : Pixel)
  /-- Accept (`true`) or stall PXO (R128). -/
  | acceptPixels (b : Bool)
  /-- Accept (`true`) or stall BO (R154). -/
  | acceptBytes (b : Bool)
deriving DecidableEq, Repr

/-- What happens in one step: the host acts, or one engine moves (log 7). -/
inductive Action where
  | host (h : HostAction)
  | engine (e : Engine)
deriving DecidableEq, Repr

/-- The whole state. `inp` and `src` are what the host has offered to the current pass (IN of R40, SRC of R42); `dst` and
`out` are the output spaces (R43, R41); `agenda` and `freeCount` are the model's own (log 7, log 5). -/
structure State where
  dec : DecCtx
  enc : EncCtx
  inp : List Byte
  inpEnded : Bool
  dst : Memory
  src : List Pixel
  out : Memory
  cfgIn : Cfg
  pxoAccepted : Bool
  boAccepted : Bool
  agenda : List Action
  freeCount : Nat
deriving DecidableEq, Repr

/-- Why the machine stops. The block's own errors are no faults: they are next states (R160). -/
inductive Fault where
  /-- Raised by `emitPixel` for a write of DST at a pixel number at or above NPIX, a pixel that does not exist (R43, R52).
  Safe: no state a run reaches has PHASE = PIXELS and PPOS at or above NPIX (log 12). -/
  | noDestinationPixel
  /-- Raised by the encoder's pixel step for a read of SRC at a pixel number at or above NPIX (R42, R52). Safe: as above. -/
  | noSourcePixel
deriving DecidableEq, Repr

/-- Why the model gives no meaning. -/
inductive Refusal where
  /-- Raised by `exec` alone, for an instruction the model has no meaning for yet. Safe: the machine stops. -/
  | notModelled (mnemonic : String)
deriving DecidableEq, Repr

/-- The three outcomes of this machine. -/
abbrev Result := Host.Outcome State Fault Refusal

/-! ### Whole-field updates -/

def State.setDec (s : State) (d : DecCtx) : State := { s with dec := d }
def State.setEnc (s : State) (e : EncCtx) : State := { s with enc := e }
def State.setInp (s : State) (bs : List Byte) : State := { s with inp := bs }
def State.setInpEnded (s : State) (b : Bool) : State := { s with inpEnded := b }
def State.setDst (s : State) (m : Memory) : State := { s with dst := m }
def State.setSrc (s : State) (ps : List Pixel) : State := { s with src := ps }
def State.setOut (s : State) (m : Memory) : State := { s with out := m }
def State.setCfgIn (s : State) (c : Cfg) : State := { s with cfgIn := c }
def State.setPxo (s : State) (b : Bool) : State := { s with pxoAccepted := b }
def State.setBo (s : State) (b : Bool) : State := { s with boAccepted := b }
def State.setAgenda (s : State) (l : List Action) : State := { s with agenda := l }
def State.setFreeCount (s : State) (n : Nat) : State := { s with freeCount := n }

/-! ### The state right after hardware reset (R173) -/

/-- ZERO_PX of R8. -/
def zeroPixel : Pixel := ⟨0#8, 0#8, 0#8, 0#8⟩

/-- A cache of ZERO_PX in every entry. -/
def zeroCache : Cache := Vector.replicate 64 zeroPixel

/-- The CFG inputs at 0 (DESIGN CHOICE, log 11). -/
def zeroCfg : Cfg := ⟨0#32, 0#32, 0#8, 0#8⟩

/-- R173: PHASE = IDLE, ERR = NONE, HDR_VALID = 0. The spec states no other value; the model names 0 for each
(DESIGN CHOICE, log 4). -/
def DecCtx.reset : DecCtx where
  prev := zeroPixel
  run := 0#14
  cache := zeroCache
  ipos := 0
  npix := 0
  ppos := 0
  hdrWidth := 0#32
  hdrHeight := 0#32
  hdrChannels := 0#8
  hdrColorspace := 0#8
  hdrValid := false
  phase := .idle
  err := .none
  errPos := 0

/-- R173: PHASE = IDLE, ERR = NONE; every other value is the model's (DESIGN CHOICE, log 4). -/
def EncCtx.reset : EncCtx where
  prev := zeroPixel
  run := 0#14
  cache := zeroCache
  opos := 0
  npix := 0
  ppos := 0
  cfg := zeroCfg
  phase := .idle
  err := .none

/-- The machine right after reset: both contexts as R173 says, nothing offered, nothing written, the host accepting both
outputs (log 4, log 10, log 11). -/
def State.reset : State where
  dec := DecCtx.reset
  enc := EncCtx.reset
  inp := []
  inpEnded := false
  dst := []
  src := []
  out := []
  cfgIn := zeroCfg
  pxoAccepted := true
  boAccepted := true
  agenda := []
  freeCount := 0

end Sys2Proof.Machine
end

