-- ==== Sys2Proof/Machine/Operands.lean ====
section
/-! DEFINITION. The operand forms and the channel arithmetic: hash, slot, adder, differences, biased fields, coordinates. -/

namespace Sys2Proof.Machine

/-- The 32-bit word of R18: `r ++ g ++ b ++ a`. -/
def packPixel (p : Pixel) : Word := wordOfBytes p.r p.g p.b p.a

/-- The pixel a 32-bit word of R18 packs. -/
def unpackPixel (w : Word) : Pixel := ⟨field w 24 8, field w 16 8, field w 8 8, field w 0 8⟩

/-- HASH of R96: the xor of the four channel bytes. -/
def pixelHash (p : Pixel) : Byte := p.r ^^^ p.g ^^^ p.b ^^^ p.a

/-- The slot index of R96: `hash(p) mod 64`, that is `hash(p)[5:0]`. -/
def slot (p : Pixel) : BitVec 6 := field (pixelHash p) 0 6

/-- LOOKUP of R97. -/
def lookup (c : Cache) (i : BitVec 6) : Pixel := GetElem.getElem c i.toNat i.isLt

/-- STORE of R98: into the slot the pixel hashes to. -/
def store (c : Cache) (p : Pixel) : Cache := c.set (slot p).toNat p (slot p).isLt

/-- ADD8 of R101: `x +8 d = (x + d) mod 256`. -/
def add8 (x : Byte) (d : Int) : Byte := BitVec.ofInt 8 ((x.toNat : Int) + d)

/-- The meaning of a biased field (R77): zero-extended, then the bias taken off. -/
def unbias {w : Nat} (bias : Int) (v : BitVec w) : Int := (v.toNat : Int) - bias

/-- The four differences of DELTA (R103). -/
structure Delta where
  vr : Int
  vg : Int
  vb : Int
  va : Int
deriving DecidableEq, Repr

/-- DELTA of R103: the plain, non-wrapping differences of `p` against PREV. -/
def delta (p prev : Pixel) : Delta where
  vr := (p.r.toNat : Int) - (prev.r.toNat : Int)
  vg := (p.g.toNat : Int) - (prev.g.toNat : Int)
  vb := (p.b.toNat : Int) - (prev.b.toNat : Int)
  va := (p.a.toNat : Int) - (prev.a.toNat : Int)

/-- A pixel with the four deltas added to its channels by ADD8 (R115 to R117). -/
def addDelta (p : Pixel) (d : Delta) : Pixel := ⟨add8 p.r d.vr, add8 p.g d.vg, add8 p.b d.vb, add8 p.a d.va⟩

/-- The biases of R77. -/
def biasS : Int := 2
def biasM : Int := 16
def biasMgb : Int := 8
def biasL : Int := 16

/-- A DIFF_S chunk's deltas (R71, R115): alpha unchanged. -/
def deltaS (r g b : BitVec 2) : Delta := ⟨unbias biasS r, unbias biasS g, unbias biasS b, 0⟩

/-- A DIFF_M chunk's deltas (R72, R116): alpha unchanged. -/
def deltaM (r : BitVec 5) (g b : BitVec 4) : Delta := ⟨unbias biasM r, unbias biasMgb g, unbias biasMgb b, 0⟩

/-- A DIFF_L chunk's deltas (R73, R117). -/
def deltaL (r g b a : BitVec 5) : Delta := ⟨unbias biasL r, unbias biasL g, unbias biasL b, unbias biasL a⟩

/-- The stored form of a delta: the bias added (R77, encoder's side). -/
def rebias (w : Nat) (bias d : Int) : BitVec w := BitVec.ofInt w (d + bias)

/-- An OVERWRITE chunk applied to PREV (R118): a literal replaces its channel, the others keep PREV's. -/
def overwritePixel (prev : Pixel) (r g b a : Option Byte) : Pixel :=
  ⟨r.getD prev.r, g.getD prev.g, b.getD prev.b, a.getD prev.a⟩

/-- RUN_MAX of R133: 8191 + 33. -/
def runMax : BitVec 14 := 8224#14

/-- The longest run a short-run chunk carries (R6, R135). -/
def runShortMax : BitVec 14 := 32#14

/-- What a RUN_S chunk loads into RUN (R113): the pixels still to come. -/
def runLoadS (n : BitVec 5) : BitVec 14 := n.setWidth 14

/-- What a RUN_L chunk loads into RUN (R114): the field plus 32. -/
def runLoadL (f : BitVec 13) : BitVec 14 := f.setWidth 14 + 32#14

/-- PREV_INIT of R6. -/
def prevInit : Pixel := ⟨0#8, 0#8, 0#8, 255#8⟩

/-- `x` and `y` of pixel number `i` in a raster of the given width (R45). -/
def pixelX (width i : Nat) : Nat := i % width
def pixelY (width i : Nat) : Nat := i / width

/-- The number of pixel `(x, y)` (R45). -/
def pixelNumber (width x y : Nat) : Nat := y * width + x

/-- NPIX of R21: the exact product. -/
def pixelCount (w h : Word) : Nat := w.toNat * h.toNat

end Sys2Proof.Machine
end

