-- ==== Sys2Proof/Machine/Flags.lean ====
section
/-! DEFINITION. The status outputs (R32) and the predicate signals inside a step (R33, R104): functions of the state, never stored. -/

namespace Sys2Proof.Machine

/-- `busy` of R32. -/
def Phase.busy (p : Phase) : Bool := p == .header || p == .pixels || p == .trailer

/-- `done` of R32. -/
def Phase.isDone (p : Phase) : Bool := p == .done

/-- `error` of R32. -/
def Phase.isError (p : Phase) : Bool := p == .error

/-- PHASE of one context. -/
def State.phaseOf (s : State) (e : Engine) : Phase :=
  match e with
  | .enc => s.enc.phase
  | .dec => s.dec.phase

/-- The code of an error kind in ERR (R155). -/
def ErrKind.code : ErrKind → Nat
  | .none => 0
  | .format => 1
  | .truncated => 2
  | .io => 3
  | .unsupportedPixel => 4

/-- EQ_PREV of R33. -/
def eqPrev (e : EncCtx) (p : Pixel) : Bool := p == e.prev

/-- LAST of R33: `PPOS = NPIX - 1`. -/
def isLast (e : EncCtx) : Bool := e.ppos + 1 == e.npix

/-- RUN_FULL of R33. -/
def runFull (run : BitVec 14) : Bool := run == runMax

/-- RUN_NZ of R33. -/
def runNonzero (run : BitVec 14) : Bool := run != 0#14

/-- HIT of R33, R140: only the slot `p` hashes to is tested. -/
def hit (c : Cache) (p : Pixel) : Bool := lookup c (slot p) == p

/-- The closed range test of R9. -/
def inRange (lo hi d : Int) : Bool := decide (lo ≤ d) && decide (d ≤ hi)

/-- FIT_L of R104. -/
def fitL (d : Delta) : Bool := inRange (-16) 15 d.vr && inRange (-16) 15 d.vg && inRange (-16) 15 d.vb && inRange (-16) 15 d.va

/-- FIT_S of R104. -/
def fitS (d : Delta) : Bool := fitL d && d.va == 0 && inRange (-2) 1 d.vr && inRange (-2) 1 d.vg && inRange (-2) 1 d.vb

/-- FIT_M of R104. -/
def fitM (d : Delta) : Bool := fitL d && d.va == 0 && inRange (-16) 15 d.vr && inRange (-8) 7 d.vg && inRange (-8) 7 d.vb

/-- The last-byte indication of BO (R178): it goes with the fourth trailer byte, the byte at OPOS - 1 of a pass that is done. -/
def boLast (s : State) (a : Nat) : Bool := s.enc.phase == .done && a + 1 == s.enc.opos

end Sys2Proof.Machine
end

