-- ==== Sys2Proof/Machine/Memory.lean ====
section
/-! DEFINITION. The byte-addressed spaces OUT and DST: their canonical form, the read of one byte, the writes. -/

namespace Sys2Proof.Machine

/-- The canonical form: offsets strictly rising. An unlisted offset holds no byte, so no entry can repeat it (log 16). -/
def Memory.wf : Memory → Bool
  | [] => true
  | [_] => true
  | (a, _) :: (b, y) :: m => decide (a < b) && Memory.wf ((b, y) :: m)

/-- The byte at offset `a`, `none` where none has been written. -/
def Memory.read : Memory → Nat → Option Byte
  | [], _ => none
  | (b, x) :: m, a => if a = b then some x else Memory.read m a

/-- Write one byte at offset `a` (`MemWrite(OUT:a, 1, v)` of R10). -/
def Memory.write : Memory → Nat → Byte → Memory
  | [], a, v => [(a, v)]
  | (b, x) :: m, a, v =>
    if a < b then (a, v) :: (b, x) :: m
    else if a = b then (a, v) :: m
    else (b, x) :: Memory.write m a v

/-- Write bytes at `a`, `a + 1`, ... in that order. -/
def Memory.writeBytes : Memory → Nat → List Byte → Memory
  | m, _, [] => m
  | m, a, v :: vs => Memory.writeBytes (Memory.write m a v) (a + 1) vs

/-- The bytes of a space in offset order. -/
def Memory.bytes (m : Memory) : List Byte := m.map Prod.snd

/-- The bytes of a raster pixel in the order R, G, B, A (R58). -/
def pixelBytes (p : Pixel) : List Byte := [p.r, p.g, p.b, p.a]

/-- The byte offset of pixel number `i` of a raster (R43). -/
def pixelOffset (i : Nat) : Nat := 4 * i

/-- `MemWrite(DST:i, 4, p)` of R10, R43: pixel number `i` at byte offsets 4i to 4i + 3. -/
def Memory.writePixel (m : Memory) (i : Nat) (p : Pixel) : Memory := Memory.writeBytes m (pixelOffset i) (pixelBytes p)

/-- Pixel number `i` of a raster, `none` where one of its four bytes has not been written. -/
def Memory.readPixel (m : Memory) (i : Nat) : Option Pixel :=
  match Memory.read m (pixelOffset i), Memory.read m (pixelOffset i + 1), Memory.read m (pixelOffset i + 2),
      Memory.read m (pixelOffset i + 3) with
  | some r, some g, some b, some a => some ⟨r, g, b, a⟩
  | _, _, _, _ => none

end Sys2Proof.Machine
end

