-- ==== Sys2Proof/Machine/Ops.lean ====
section
/-! DEFINITION. The shared operations: error entry, the decoder's byte reads and pixel output, the encoder's emission, the
free values. -/

namespace Sys2Proof.Machine

/-! ### Error entry (R160) -/

/-- `raise E(info)` in DEC (R160): ERR, ERR_POS = IPOS (R155), PHASE = ERROR, and nothing else. -/
def raiseDec (k : ErrKind) (s : State) : State :=
  s.setDec { s.dec with err := k, errPos := s.dec.ipos, phase := .error }

/-- `raise E` in ENC (R160): ERR and PHASE = ERROR; nothing is recorded (R155). -/
def raiseEnc (k : ErrKind) (s : State) : State :=
  s.setEnc { s.enc with err := k, phase := .error }

/-- The return from an error (R164): there is none inside a pass; what leaves PHASE = ERROR is a new START, ABORT or
reset. This is the test START makes (R177): PHASE is IDLE, DONE or ERROR. -/
def startAccepted (p : Phase) : Bool := !p.busy

/-! ### DEC: reading bytes (R108) -/

/-- The outcome of reading bytes from IN. -/
inductive Read (α : Type) where
  /-- The bytes, and the state with IPOS moved past them. -/
  | got (x : α) (s : State)
  /-- The stream has ended (R108): the state at the point of failure, before the error entry. -/
  | ended (s : State)
  /-- No byte is offered and no end is signalled: the step waits (R128). -/
  | waits

/-- `NextByte()` of R108, with the wait of R128. -/
def nextByte (s : State) : Read Byte :=
  match s.inp[s.dec.ipos]? with
  | some b => .got b (s.setDec { s.dec with ipos := s.dec.ipos + 1 })
  | none => if s.inpEnded then .ended s else .waits

/-- `n` bytes by `NextByte()`, one after another. -/
def nextBytes : Nat → State → Read (List Byte)
  | 0, s => .got [] s
  | n + 1, s =>
    match nextByte s with
    | .got b s1 =>
      match nextBytes n s1 with
      | .got bs s2 => .got (b :: bs) s2
      | .ended s2 => .ended s2
      | .waits => .waits
    | .ended s1 => .ended s1
    | .waits => .waits

/-- All the bytes of the chunk at IPOS: the tag byte, then as many as it says (R78). -/
def readChunk (s : State) : Read (List Byte) :=
  match nextByte s with
  | .got b1 s1 =>
    match nextBytes (chunkLength b1 - 1) s1 with
    | .got bs s2 => .got (b1 :: bs) s2
    | .ended s2 => .ended s2
    | .waits => .waits
  | .ended s1 => .ended s1
  | .waits => .waits

/-! ### DEC: the pixel output -/

/-- PHASE after a decoder pixel step that has made PPOS `ppos` (R121). -/
def phaseAfterPixel (npix ppos : Nat) (p : Phase) : Phase := if ppos = npix then .done else p

/-- The end of every decoder pixel step (R109): write DST at PPOS, PREV <- PX, PPOS + 1, DONE at NPIX. A pixel number at or
above NPIX does not exist (R43, R52; log 12). -/
def emitPixel (px : Pixel) (s : State) : Result :=
  if s.dec.ppos < s.dec.npix then
    .next ((s.setDst (s.dst.writePixel s.dec.ppos px)).setDec
      { s.dec with
        prev := px
        ppos := s.dec.ppos + 1
        phase := phaseAfterPixel s.dec.npix (s.dec.ppos + 1) s.dec.phase })
  else .fault .noDestinationPixel

/-- The common tail of every tag-reading step (R120): Store(PX), then the pixel output. -/
def resolvePixel (px : Pixel) (s : State) : Result :=
  emitPixel px (s.setDec { s.dec with cache := store s.dec.cache px })

/-- A run chunk (R113, R114): RUN is loaded, PX is PREV. -/
def startRun (run : BitVec 14) (s : State) : Result :=
  resolvePixel s.dec.prev (s.setDec { s.dec with run := run })

/-! ### ENC: emission (R130) -/

/-- `Emit(b)` of R130 for each byte in turn: append at OPOS, OPOS + 1. -/
def emitBytes (bs : List Byte) (s : State) : State :=
  (s.setOut (s.out.writeBytes s.enc.opos bs)).setEnc { s.enc with opos := s.enc.opos + bs.length }

/-! ### Free values (log 5) -/

/-- How many numbers one draw of a whole context takes. -/
def freeStride : Nat := 128

/-- A cache of free values. -/
def freeCache (k : Nat) : Cache := Vector.ofFn fun i => unpackPixel (Config.freeBits 32 (k + i.val))

/-- A decoder context after ABORT or hardware reset (R177, R173): PHASE = IDLE, ERR = NONE, HDR_VALID as given; every other
register is a free value. -/
def freeDec (k : Nat) (valid : Bool) : DecCtx where
  prev := unpackPixel (Config.freeBits 32 (k + 64))
  run := Config.freeBits 14 (k + 65)
  cache := freeCache k
  ipos := Config.freeNat (k + 66)
  npix := (Config.freeBits 64 (k + 67)).toNat
  ppos := (Config.freeBits 64 (k + 68)).toNat
  hdrWidth := Config.freeBits 32 (k + 69)
  hdrHeight := Config.freeBits 32 (k + 70)
  hdrChannels := Config.freeBits 8 (k + 71)
  hdrColorspace := Config.freeBits 8 (k + 72)
  hdrValid := valid
  phase := .idle
  err := .none
  errPos := Config.freeNat (k + 73)

/-- An encoder context after ABORT or hardware reset (R177, R173): PHASE = IDLE, ERR = NONE; every other register is a
free value. -/
def freeEnc (k : Nat) : EncCtx where
  prev := unpackPixel (Config.freeBits 32 (k + 64))
  run := Config.freeBits 14 (k + 65)
  cache := freeCache k
  opos := Config.freeNat (k + 66)
  npix := (Config.freeBits 64 (k + 67)).toNat
  ppos := (Config.freeBits 64 (k + 68)).toNat
  cfg := ⟨Config.freeBits 32 (k + 69), Config.freeBits 32 (k + 70), Config.freeBits 8 (k + 71), Config.freeBits 8 (k + 72)⟩
  phase := .idle
  err := .none

end Sys2Proof.Machine
end

