-- ==== Sys2Proof/Machine/Chunks.lean ====
section
/-! DEFINITION. The seven chunk kinds as the decoder executes them (R112 to R118), once their bytes have been read and IPOS
has moved past them, and the two pixel steps that execute no chunk: the run continuation (R110) and RESET (R119). -/

namespace Sys2Proof.Machine

/-- INDEX, R112: PX <- CACHE[i]. -/
def execIndex (i : BitVec 6) (s : State) : Result := resolvePixel (lookup s.dec.cache i) s

/-- RUN_S, R113: RUN <- n, PX <- PREV. -/
def execRunS (n : BitVec 5) (s : State) : Result := startRun (runLoadS n) s

/-- RUN_L, R114: RUN <- f + 32, PX <- PREV. -/
def execRunL (f : BitVec 13) (s : State) : Result := startRun (runLoadL f) s

/-- DIFF_S, R115. -/
def execDiffS (r g b : BitVec 2) (s : State) : Result := resolvePixel (addDelta s.dec.prev (deltaS r g b)) s

/-- DIFF_M, R116. -/
def execDiffM (r : BitVec 5) (g b : BitVec 4) (s : State) : Result := resolvePixel (addDelta s.dec.prev (deltaM r g b)) s

/-- DIFF_L, R117. -/
def execDiffL (r g b a : BitVec 5) (s : State) : Result := resolvePixel (addDelta s.dec.prev (deltaL r g b a)) s

/-- OVERWRITE, R118. -/
def execOverwrite (r g b a : Option Byte) (s : State) : Result := resolvePixel (overwritePixel s.dec.prev r g b a) s

/-- RESET, R119: PX <- ZERO_PX. No byte selects it (R67); it has no row and no constructor (R75). -/
def resetPixel (s : State) : Result := resolvePixel zeroPixel s

/-- Run continuation, R110: RUN - 1, PREV again, no byte read, no Store. -/
def continueRun (s : State) : Result :=
  emitPixel s.dec.prev (s.setDec { s.dec with run := s.dec.run - 1#14 })

end Sys2Proof.Machine
end

