-- ==== Sys2Proof/Machine/Header.lean ====
section
/-! DEFINITION. The header codec: HDR.PARSE in the decoder (R87 to R94), HDR.EMIT in the encoder (R85, R86). -/

namespace Sys2Proof.Machine

/-- The four HDR registers written with what was read (R87), before anything is judged. -/
def loadHeader (w h : Word) (c cs : Byte) (s : State) : State :=
  s.setDec { s.dec with hdrWidth := w, hdrHeight := h, hdrChannels := c, hdrColorspace := cs }

/-- A header that passes every check (R87, R90): NPIX, HDR_VALID, PHASE = PIXELS. -/
def acceptHeader (s : State) : State :=
  s.setDec
    { s.dec with
      npix := pixelCount s.dec.hdrWidth s.dec.hdrHeight
      hdrValid := true
      phase := .pixels }

/-- HEADER, HDR.PARSE of R87 for a header whose magic is right, IPOS already at 14: load the registers, then the tests of R89
on width, height and channels; color_space is never judged (R92). -/
def execHeader (w h : Word) (c cs : Byte) (s : State) : Result :=
  if w = 0#32 then .next (raiseDec .format (loadHeader w h c cs s))
  else if h = 0#32 then .next (raiseDec .format (loadHeader w h c cs s))
  else if c ≠ 3#8 ∧ c ≠ 4#8 then .next (raiseDec .format (loadHeader w h c cs s))
  else .next (acceptHeader (loadHeader w h c cs s))

/-- The four HDR registers written with what the first 14 bytes of `bs` hold, whatever their magic (R87). -/
def loadParsed (bs : List Byte) (s : State) : State :=
  match headerParts bs with
  | some (_, w, h, c, cs, _) => loadHeader w h c cs s
  | none => s

/-- HDR.PARSE of R87 on 14 bytes whose magic is wrong: the registers hold the parsed bytes, FormatError. -/
def rejectMagic (bs : List Byte) (s : State) : State := raiseDec .format (loadParsed bs s)

/-- The header ENC writes (R85), unchecked (R86). -/
def cfgHeader (c : Cfg) : Instr := .header c.width c.height c.channels c.colorspace

/-- PHASE after HDR.EMIT (R85): straight to the trailer for an image of no pixel (R150). -/
def phaseAfterHeader (npix : Nat) : Phase := if npix = 0 then .trailer else .pixels

/-- HDR.EMIT of R85: 14 bytes, then the pixels. -/
def emitHeader (s : State) : State :=
  let t := emitBytes (encode (cfgHeader s.enc.cfg)) s
  t.setEnc { t.enc with phase := phaseAfterHeader t.enc.npix }

end Sys2Proof.Machine
end

