-- ==== Sys2Proof/Machine/Trailer.lean ====
section
/-! DEFINITION. The trailer step of the encoder (R148). -/

namespace Sys2Proof.Machine

/-- TRAILER, R148: four zero bytes, PHASE = DONE; nothing else is read or written. -/
def execTrailer (s : State) : Result :=
  let t := emitBytes (encode .trailer) s
  .next (t.setEnc { t.enc with phase := .done })

end Sys2Proof.Machine
end

