-- ==== Sys2Proof/Machine/Dispatch.lean ====
section
/-! DEFINITION. One arm per instruction. -/

namespace Sys2Proof.Machine

def exec (i : Instr) (s : State) : Host.Outcome State Fault Refusal :=
  match i with
  | .index k => Sys2Proof.Machine.execIndex k s
  | .runS n => Sys2Proof.Machine.execRunS n s
  | .runL f => Sys2Proof.Machine.execRunL f s
  | .diffS r g b => Sys2Proof.Machine.execDiffS r g b s
  | .diffM r g b => Sys2Proof.Machine.execDiffM r g b s
  | .diffL r g b a => Sys2Proof.Machine.execDiffL r g b a s
  | .overwrite r g b a => Sys2Proof.Machine.execOverwrite r g b a s
  | .header w h c cs => Sys2Proof.Machine.execHeader w h c cs s
  | .trailer => Sys2Proof.Machine.execTrailer s

end Sys2Proof.Machine
end

