-- ==== Sys2Proof/Machine/Commands.lean ====
section
/-! DEFINITION. What the host does: hardware reset (R173), START (R174), ABORT and `io_fail` (R177, R158), the ports (R178). -/

namespace Sys2Proof.Machine

/-- Number the next draw of free values after this one (log 5). -/
def drawFree (s : State) : State := s.setFreeCount (s.freeCount + freeStride)

/-! ### Hardware reset (R173) -/

/-- R173: each context gets PHASE = IDLE, ERR = NONE, HDR_VALID = 0; every other register is unspecified (log 5); the
spaces and the ports keep what they hold (DEDUCED, log 17). -/
def hardReset (s : State) : State :=
  (drawFree (drawFree s)).setDec (freeDec s.freeCount false) |>.setEnc (freeEnc (s.freeCount + freeStride))

/-! ### START (R174, R177) -/

/-- The decoder registers after START (R174, R34): the HDR registers and NPIX are unspecified until the header step (log 5). -/
def startedDec (k : Nat) : DecCtx where
  prev := prevInit
  run := 0#14
  cache := zeroCache
  ipos := 0
  npix := (Config.freeBits 64 (k + 67)).toNat
  ppos := 0
  hdrWidth := Config.freeBits 32 (k + 69)
  hdrHeight := Config.freeBits 32 (k + 70)
  hdrChannels := Config.freeBits 8 (k + 71)
  hdrColorspace := Config.freeBits 8 (k + 72)
  hdrValid := false
  phase := .header
  err := .none
  errPos := 0

/-- The encoder registers after START (R174): the CFG inputs sampled, NPIX their product. -/
def startedEnc (c : Cfg) : EncCtx where
  prev := prevInit
  run := 0#14
  cache := zeroCache
  opos := 0
  npix := pixelCount c.width c.height
  ppos := 0
  cfg := c
  phase := .header
  err := .none

/-- START to DEC, accepted (R174). DST of the new pass is empty (R94; log 9) and nothing of its stream is offered yet
(R181; log 10). -/
def startDec (s : State) : State :=
  (drawFree s).setDec (startedDec s.freeCount) |>.setDst [] |>.setInp [] |>.setInpEnded false

/-- START to ENC, accepted (R174): OUT empty; nothing of its source is offered yet (R180; log 10). -/
def startEnc (s : State) : State :=
  s.setEnc (startedEnc s.cfgIn) |>.setOut [] |>.setSrc []

/-- START (R177): accepted in IDLE, DONE and ERROR, otherwise ignored. -/
def startCommand (e : Engine) (s : State) : State :=
  if startAccepted (s.phaseOf e) then
    match e with
    | .enc => startEnc s
    | .dec => startDec s
  else s

/-! ### ABORT (R177) -/

/-- HDR_VALID after ABORT: it may be lost and is never set (R27, R177; log 6). -/
def abortedValid (k : Nat) (valid : Bool) : Bool := valid && (Config.freeBits 1 (k + 74)).getLsbD 0

/-- ABORT (R177): PHASE = IDLE, ERR = NONE, every other register of the context unspecified (log 5); output stays. -/
def abortCommand (e : Engine) (s : State) : State :=
  match e with
  | .enc => (drawFree s).setEnc (freeEnc s.freeCount)
  | .dec => (drawFree s).setDec (freeDec s.freeCount (abortedValid s.freeCount s.dec.hdrValid))

/-! ### io_fail (R158) -/

/-- How many bytes of IN the decoder's current step can have taken: the header's 14, a chunk's, or none in a run
continuation (R126, R163). -/
def stepBytes (s : State) : Nat :=
  match s.dec.phase with
  | .header => min 14 s.inp.length - s.dec.ipos
  | .pixels =>
    if runNonzero s.dec.run then 0
    else
      match s.inp[s.dec.ipos]? with
      | some b1 => min (chunkLength b1) (s.inp.length - s.dec.ipos)
      | none => 0
  | .idle => 0
  | .trailer => 0
  | .done => 0
  | .error => 0

/-- IPOS where `io_fail` abandons the decoder's step: somewhere in that step, a free value (log 8). -/
def failPosition (s : State) : Nat := s.dec.ipos + Config.freeNat s.freeCount % (stepBytes s + 1)

/-- Whether the header step that `io_fail` abandons had written the HDR registers (R163: it may have): possible once all 14
bytes were taken, and then a free bit (log 8). -/
def failLoadsHeader (s : State) : Bool :=
  s.dec.phase == .header && failPosition s == 14 && (Config.freeBits 1 (s.freeCount + 75)).getLsbD 0

/-- The HDR registers as the abandoned decoder step leaves them: as they were, or, where it had got that far, as parsed. -/
def failHeader (s : State) : State := if failLoadsHeader s then loadParsed s.inp s else s

/-- The decoder where `io_fail` abandons its step: IPOS and perhaps the HDR registers have moved on, nothing else (R163). -/
def abandonDec (s : State) : State := (failHeader s).setDec { (failHeader s).dec with ipos := failPosition s }

/-- `io_fail` (R158): while the pass is busy, the step under way is abandoned and the error entry taken with ERR = IO;
otherwise no effect (R165). -/
def ioFailCommand (e : Engine) (s : State) : State :=
  if (s.phaseOf e).busy then
    match e with
    | .enc => raiseEnc .io s
    | .dec => raiseDec .io (drawFree (abandonDec s))
  else s

/-! ### Ports (R178; log 10, log 11) -/

/-- A byte offered on BI: part of IN while a decode pass is under way and its stream has not ended. -/
def offerByte (b : Byte) (s : State) : State :=
  if s.dec.phase.busy && !s.inpEnded then s.setInp (s.inp ++ [b]) else s

/-- End of stream on BI: given once, after the last byte (D21). -/
def signalEnd (s : State) : State := if s.dec.phase.busy then s.setInpEnded true else s

/-- A pixel offered on PXI: part of SRC while an encode pass is under way; none is taken after the last (R180). -/
def offerPixel (p : Pixel) (s : State) : State :=
  if s.enc.phase.busy && decide (s.src.length < s.enc.npix) then s.setSrc (s.src ++ [p]) else s

/-- What one action of the host does. -/
def hostAct (h : HostAction) (s : State) : State :=
  match h with
  | .hardReset => hardReset s
  | .start e => startCommand e s
  | .abort e => abortCommand e s
  | .ioFail e => ioFailCommand e s
  | .driveCfg c => s.setCfgIn c
  | .offerByte b => offerByte b s
  | .endOfStream => signalEnd s
  | .offerPixel p => offerPixel p s
  | .acceptPixels b => s.setPxo b
  | .acceptBytes b => s.setBo b

end Sys2Proof.Machine
end

