-- ==== Sys2Proof/Machine/Turn.lean ====
section
/-! DEFINITION. What an engine does when it is its turn. -/

namespace Sys2Proof.Machine

/-- One turn of an engine. -/
inductive Turn where
  /-- The instruction `i` is executed at `s`. -/
  | run (i : Instr) (s : State)
  /-- A step that executes no instruction: its outcome. -/
  | settled (o : Result)
  /-- No step is enabled, or the step waits for the host (R128, R154): nothing changes. -/
  | waits

end Sys2Proof.Machine
end

