-- ==== Sys2Proof/Machine/Decoder.lean ====
section
/-! DEFINITION. The decoder engine's turn (R107, R109). -/

namespace Sys2Proof.Machine

/-- HDR.PARSE's fetch (R87, R88): 14 bytes from offset 0; fewer and the end of stream is FormatError with every byte there is
taken; fewer and no end is a wait. -/
def headerTurn (s : State) : Turn :=
  if s.inp.length < 14 then
    if s.inpEnded then .settled (.next (raiseDec .format (s.setDec { s.dec with ipos := s.inp.length }))) else .waits
  else
    match decodeAt .header (s.inp.take 14) with
    | .ok i _ => .run i (s.setDec { s.dec with ipos := 14 })
    | .reject _ => .settled (.next (rejectMagic (s.inp.take 14) (s.setDec { s.dec with ipos := 14 })))

/-- A tag-reading pixel step's fetch (R109, R111): the chunk's bytes, all read before anything is written (R125); then the pixel
waits for PXO (R128). -/
def chunkTurn (s : State) : Turn :=
  match readChunk s with
  | .got bs t =>
    if s.pxoAccepted then
      match decodeAt .chunk bs with
      | .ok i _ => .run i t
      | .reject _ => .settled (resetPixel t)
    else .waits
  | .ended t => .settled (.next (raiseDec .truncated t))
  | .waits => .waits

/-- DEC.STEP of R109: a run continuation while RUN > 0, a tag-reading step otherwise. -/
def pixelTurn (s : State) : Turn :=
  if runNonzero s.dec.run then
    if s.pxoAccepted then .settled (continueRun s) else .waits
  else chunkTurn s

/-- The decoder's turn, by PHASE (R29, R107). -/
def decTurn (s : State) : Turn :=
  match s.dec.phase with
  | .header => headerTurn s
  | .pixels => pixelTurn s
  | .idle => .waits
  | .trailer => .waits
  | .done => .waits
  | .error => .waits

end Sys2Proof.Machine
end

