-- ==== Sys2Proof/Machine/Encoder.lean ====
section
/-! DEFINITION. The encoder engine: run accumulator (R132 to R137), delta selector (R138 to R144), pixel step (R131), its turn. -/

namespace Sys2Proof.Machine

/-- The run chunk a flush emits: R135 up to 32, R136 above. -/
def flushChunk (run : BitVec 14) : Instr :=
  if run ≤ runShortMax then .runS ((run - 1#14).setWidth 5) else .runL ((run - 33#14).setWidth 13)

/-- R140: INDEX of the slot `p` hashes to. -/
def indexChunk (p : Pixel) : Instr := .index (slot p)

/-- R141. -/
def diffSChunk (d : Delta) : Instr := .diffS (rebias 2 biasS d.vr) (rebias 2 biasS d.vg) (rebias 2 biasS d.vb)

/-- R142. -/
def diffMChunk (d : Delta) : Instr := .diffM (rebias 5 biasM d.vr) (rebias 4 biasMgb d.vg) (rebias 4 biasMgb d.vb)

/-- R143. -/
def diffLChunk (d : Delta) : Instr :=
  .diffL (rebias 5 biasL d.vr) (rebias 5 biasL d.vg) (rebias 5 biasL d.vb) (rebias 5 biasL d.va)

/-- One flag and literal of R144: sent where the channel's difference is not 0. -/
def changedLiteral (v : Int) (x : Byte) : Option Byte := if v ≠ 0 then some x else none

/-- R144. -/
def overwriteChunk (d : Delta) (p : Pixel) : Instr :=
  .overwrite (changedLiteral d.vr p.r) (changedLiteral d.vg p.g) (changedLiteral d.vb p.b) (changedLiteral d.va p.a)

/-- The selection of R138 for a pixel that differs from PREV: the first of five encodings that applies. -/
def selectChunk (c : Cache) (prev p : Pixel) : Instr :=
  if hit c p then indexChunk p
  else if fitS (delta p prev) then diffSChunk (delta p prev)
  else if fitM (delta p prev) then diffMChunk (delta p prev)
  else if fitL (delta p prev) then diffLChunk (delta p prev)
  else overwriteChunk (delta p prev) p

/-- RUN after the increment of R132. -/
def runCounted (e : EncCtx) (p : Pixel) : BitVec 14 := if eqPrev e p then e.run + 1#14 else e.run

/-- The flush condition of R134, on RUN after the increment. -/
def flushes (e : EncCtx) (p : Pixel) : Bool :=
  runNonzero (runCounted e p) && (runFull (runCounted e p) || !eqPrev e p || isLast e)

/-- The chunks one pixel step emits, in order (R131, R137): the flushed run's, then the pixel's own. -/
def pixelChunks (e : EncCtx) (p : Pixel) : List Instr :=
  (if flushes e p then [flushChunk (runCounted e p)] else []) ++
    (if eqPrev e p then [] else [selectChunk e.cache e.prev p])

/-- The bytes of a list of instructions, in order. -/
def encodeAll (l : List Instr) : List Byte := l.flatMap encode

/-- PHASE after an encoder pixel step that has made PPOS `ppos` (R131). -/
def phaseAfterSource (npix ppos : Nat) (p : Phase) : Phase := if ppos = npix then .trailer else p

/-- The registers after the pixel step of R131, but for OPOS: RUN counted, and cleared by a flush (R137); Store(p) for a pixel
that differs from PREV (R145); PREV <- p (R146); PPOS + 1; PHASE. -/
def encAdvance (e : EncCtx) (p : Pixel) : EncCtx :=
  { e with
    run := if flushes e p then 0#14 else runCounted e p
    cache := if eqPrev e p then e.cache else store e.cache p
    prev := p
    ppos := e.ppos + 1
    phase := phaseAfterSource e.npix (e.ppos + 1) e.phase }

/-- ENC.STEP of R131 on the pixel `p`. A pixel number at or above NPIX does not exist (R42, R52; log 12). -/
def encodePixel (p : Pixel) (s : State) : Result :=
  if s.enc.ppos < s.enc.npix then
    .next (emitBytes (encodeAll (pixelChunks s.enc p)) (s.setEnc (encAdvance s.enc p)))
  else .fault .noSourcePixel

/-- Whether a pixel step emits nothing, so that it does not wait for BO (R131, R154). -/
def emitsNothing (e : EncCtx) (p : Pixel) : Bool := (pixelChunks e p).isEmpty

/-- The encoder's pixel step: it waits while no pixel is offered, or while BO stalls and it has bytes to emit (R154). -/
def sourceTurn (s : State) : Turn :=
  match s.src[s.enc.ppos]? with
  | some p => if s.boAccepted || emitsNothing s.enc p then .settled (encodePixel p s) else .waits
  | none => .waits

/-- The encoder's turn, by PHASE (R29, R129). -/
def encTurn (s : State) : Turn :=
  match s.enc.phase with
  | .header => if s.boAccepted then .settled (.next (emitHeader s)) else .waits
  | .pixels => sourceTurn s
  | .trailer => if s.boAccepted then .run .trailer s else .waits
  | .idle => .waits
  | .done => .waits
  | .error => .waits

end Sys2Proof.Machine
end

