-- ==== Sys2Proof/Machine/Schedule.lean ====
section
/-! DEFINITION. Who moves in one step (log 7). -/

namespace Sys2Proof.Machine

/-- The turn of one engine. -/
def engineTurn (e : Engine) (s : State) : Turn :=
  match e with
  | .enc => encTurn s
  | .dec => decTurn s

/-- With an empty agenda the decoder moves if it can, otherwise the encoder if it can. -/
def defaultTurn (s : State) : Turn :=
  match decTurn s with
  | .run i t => .run i t
  | .settled o => .settled o
  | .waits => encTurn s

/-- What an action of the agenda, already taken off it, makes happen at `s`. -/
def actionTurn (a : Action) (s : State) : Turn :=
  match a with
  | .host h => .settled (.next (hostAct h s))
  | .engine e => engineTurn e s

/-- The state an action is taken at: the agenda without its first entry. -/
def popAgenda (s : State) : State := s.setAgenda s.agenda.tail

/-- What happens in the next step. -/
def nextTurn (s : State) : Turn :=
  match s.agenda with
  | [] => defaultTurn s
  | a :: _ => actionTurn a (popAgenda s)

/-! ### Where the next instruction is fetched from (log 13, log 14) -/

/-- `bs` as IN from offset `ipos` on, what is before it kept or filled with zero bytes. -/
def placedInput (inp : List Byte) (ipos : Nat) (bs : List Byte) : List Byte :=
  inp.take ipos ++ List.replicate (ipos - inp.length) 0#8 ++ bs

/-- NPIX as it is, or just large enough for one more pixel. -/
def roomForPixel (npix ppos : Nat) : Nat := if ppos < npix then npix else ppos + 1

/-- The state whose next step runs the header in `bs`: DEC in PHASE = HEADER with those bytes as its stream, and the next move. -/
def placeHeader (s : State) (bs : List Byte) : State :=
  ((s.setDec { s.dec with phase := .header }).setInp bs).setAgenda [.engine .dec]

/-- The state whose next step runs the chunk at the head of `bs`: DEC in PHASE = PIXELS, RUN = 0, a pixel still to come, PXO
accepted, those bytes at IPOS, and the next move. -/
def placeChunk (s : State) (bs : List Byte) : State :=
  (((s.setDec { s.dec with phase := .pixels, run := 0#14, npix := roomForPixel s.dec.npix s.dec.ppos }).setInp
    (placedInput s.inp s.dec.ipos bs)).setPxo true).setAgenda [.engine .dec]

/-- The state whose next step is the trailer step: ENC in PHASE = TRAILER, BO accepted, and the next move. -/
def placeTrailer (s : State) : State :=
  ((s.setEnc { s.enc with phase := .trailer }).setBo true).setAgenda [.engine .enc]

/-- By position in the stream (R59). -/
def placeWord (pos : Position) (s : State) (bs : List Byte) : State :=
  match pos with
  | .header => placeHeader s bs
  | .chunk => placeChunk s bs
  | .trailer => placeTrailer s

end Sys2Proof.Machine
end

