-- ==== Sys2Proof/Machine/Step.lean ====
section
/-! DEFINITION. One step of the machine. -/

namespace Sys2Proof.Machine

/-- Carry out a turn at `s`: an instruction through `exec`, anything else as the turn says; a turn that waits changes nothing. -/
def playTurn (t : Turn) (s : State) : Result :=
  match t with
  | .run i s' => exec i s'
  | .settled o => o
  | .waits => .next s

/-- One step: the agenda's first entry is used up, or, with an empty agenda, an engine moves (log 7). -/
def step (s : State) : Host.Outcome State Fault Refusal := playTurn (nextTurn s) (popAgenda s)

/-- `s` with one instruction of the opcode table placed so that the very next step runs exactly it (log 13, log 14). -/
def State.withFetchWord (s : State) (nbits w : Nat) : State :=
  placeWord (tablePosition nbits w) s (tableBytes nbits w)

end Sys2Proof.Machine
end

