-- ==== Sys2Proof/Safety.lean ====
section
/-! DEFINITION. What a safe run is: the invariant every step keeps, the phase transitions the spec allows, runs of several
steps, and the states a pass begins in. -/

namespace Sys2Proof.Machine

/-- `n` steps, stopping at the first fault or refusal. -/
def steps : Nat → State → Result
  | 0, s => .next s
  | n + 1, s =>
    match step s with
    | .next t => steps n t
    | .fault r => .fault r
    | .refused r => .refused r

/-- A space holds exactly the bytes at offsets 0 to `n - 1` (R41, R43). -/
def Memory.dense (m : Memory) (n : Nat) : Prop := m.map Prod.fst = List.range n

/-- R106: each slot holds ZERO_PX or a pixel that hashes to it. -/
def slotsHashed (c : Cache) : Prop := ∀ i : BitVec 6, lookup c i = zeroPixel ∨ slot (lookup c i) = i

/-- A header a decoder accepts (R61 to R63, R89). -/
def headerLegal (w h : Word) (c : Byte) : Prop := w ≠ 0#32 ∧ h ≠ 0#32 ∧ (c = 3#8 ∨ c = 4#8)

/-- What every state of a run keeps in the decoder context. -/
structure DecInv (s : State) : Prop where
  /-- TRAILER is a phase of ENC only (R29). -/
  noTrailer : s.dec.phase ≠ .trailer
  /-- R30: ERR is not NONE exactly when PHASE = ERROR. -/
  errIff : s.dec.err ≠ .none ↔ s.dec.phase = .error
  /-- R159: UNSUPPORTED_PIXEL is never raised. -/
  errKind : s.dec.err ≠ .unsupportedPixel
  /-- R155: ERR_POS is IPOS at the raise. -/
  errPos : s.dec.phase = .error → s.dec.errPos = s.dec.ipos
  /-- R155: after TRUNCATED, IPOS is LEN(IN) and the stream had ended. -/
  truncatedAtEnd : s.dec.err = .truncated → s.dec.ipos = s.inp.length ∧ s.inpEnded = true
  /-- R15: RUN is at most 8223. -/
  runBound : s.dec.phase ≠ .idle → s.dec.run.toNat ≤ 8223
  /-- R106. -/
  slots : s.dec.phase ≠ .idle → slotsHashed s.dec.cache
  /-- R43: DST holds pixels 0 to PPOS - 1 and nothing else. -/
  written : s.dec.phase ≠ .idle → s.dst.dense (4 * s.dec.ppos)
  /-- R19: IPOS is bounded by the stream length. -/
  iposBound : s.dec.phase ≠ .idle → s.dec.ipos ≤ s.inp.length
  /-- R27: while HDR_VALID is 0 no pixel has been emitted. -/
  nothingBefore : s.dec.phase ≠ .idle → s.dec.hdrValid = false → s.dec.ppos = 0
  /-- R174: the registers START set, until the header step. -/
  fresh : s.dec.phase = .header →
    s.dec.prev = prevInit ∧ s.dec.run = 0#14 ∧ s.dec.cache = zeroCache ∧ s.dec.ipos = 0 ∧ s.dec.ppos = 0 ∧
      s.dec.hdrValid = false ∧ s.dec.errPos = 0
  /-- R87, R90: what the header step fixed, for the rest of the pass. -/
  header : s.dec.phase = .pixels ∨ s.dec.phase = .done →
    s.dec.hdrValid = true ∧ 14 ≤ s.dec.ipos ∧ headerLegal s.dec.hdrWidth s.dec.hdrHeight s.dec.hdrChannels ∧
      s.dec.npix = pixelCount s.dec.hdrWidth s.dec.hdrHeight
  /-- R29, R109: PIXELS implies PPOS < NPIX. -/
  room : s.dec.phase = .pixels → s.dec.ppos < s.dec.npix
  /-- R121: DONE at PPOS = NPIX. -/
  full : s.dec.phase = .done → s.dec.ppos = s.dec.npix
  /-- R110: during a run PREV is in its slot, so a STORE there would change nothing. -/
  runStored : s.dec.phase = .pixels → s.dec.run ≠ 0#14 → lookup s.dec.cache (slot s.dec.prev) = s.dec.prev

/-- What every state of a run keeps in the encoder context. -/
structure EncInv (s : State) : Prop where
  /-- R30. -/
  errIff : s.enc.err ≠ .none ↔ s.enc.phase = .error
  /-- R172: an encode pass ends in ERROR only by `io_fail`. -/
  errKind : s.enc.err = .none ∨ s.enc.err = .io
  /-- R134: RUN is at most 8223 between steps. -/
  runBound : s.enc.phase ≠ .idle → s.enc.run.toNat ≤ 8223
  /-- R106. -/
  slots : s.enc.phase ≠ .idle → slotsHashed s.enc.cache
  /-- R20, R41: OUT holds the bytes at offsets 0 to OPOS - 1 and nothing else. -/
  written : s.enc.phase ≠ .idle → s.out.dense s.enc.opos
  /-- R21: NPIX is the product of the sampled CFG values. -/
  count : s.enc.phase ≠ .idle → s.enc.npix = pixelCount s.enc.cfg.width s.enc.cfg.height
  /-- R42, R180: pixels are taken in order, none beyond the image. -/
  taken : s.enc.phase ≠ .idle → s.enc.ppos ≤ s.src.length ∧ s.src.length ≤ s.enc.npix
  /-- R174: the registers START set, until the header step. -/
  fresh : s.enc.phase = .header →
    s.enc.prev = prevInit ∧ s.enc.run = 0#14 ∧ s.enc.cache = zeroCache ∧ s.enc.opos = 0 ∧ s.enc.ppos = 0
  /-- R29: PIXELS implies PPOS < NPIX. -/
  room : s.enc.phase = .pixels → s.enc.ppos < s.enc.npix
  /-- R147: no run is pending when the trailer is written. -/
  flushed : s.enc.phase = .trailer ∨ s.enc.phase = .done → s.enc.run = 0#14 ∧ s.enc.ppos = s.enc.npix
  /-- R151: at most 5 chunk bytes a pixel. -/
  size : s.enc.phase = .pixels ∨ s.enc.phase = .trailer → 14 ≤ s.enc.opos ∧ s.enc.opos + 5 * s.enc.run.toNat ≤ 14 + 5 * s.enc.ppos
  /-- R151: OPOS at DONE. -/
  finalSize : s.enc.phase = .done → 18 ≤ s.enc.opos ∧ s.enc.opos ≤ 14 + 5 * s.enc.npix + 4

/-- The invariant of the machine. -/
structure Inv (s : State) : Prop where
  outWf : s.out.wf = true
  dstWf : s.dst.wf = true
  dec : DecInv s
  enc : EncInv s

/-- The transitions of PHASE that R29 lists for DEC, staying put included. -/
def decPhaseAllowed : Phase → Phase → Bool
  | _, .idle => true
  | .idle, .header => true
  | .done, .header => true
  | .error, .header => true
  | .header, .pixels => true
  | .pixels, .done => true
  | .header, .error => true
  | .pixels, .error => true
  | p, q => p == q

/-- The transitions of PHASE that R29 lists for ENC, staying put included. -/
def encPhaseAllowed : Phase → Phase → Bool
  | _, .idle => true
  | .idle, .header => true
  | .done, .header => true
  | .error, .header => true
  | .header, .pixels => true
  | .header, .trailer => true
  | .pixels, .trailer => true
  | .trailer, .done => true
  | .header, .error => true
  | .pixels, .error => true
  | .trailer, .error => true
  | p, q => p == q

/-- The state an encode pass over `img` begins in: START just done with `cfg`, every pixel offered, BO accepted, the decoder at
rest, the host doing nothing more (R129, R180). -/
structure EncodeStart (cfg : Cfg) (img : List Pixel) (s : State) : Prop where
  ctx : s.enc = startedEnc cfg
  out : s.out = []
  src : s.src = img
  whole : img.length = pixelCount cfg.width cfg.height
  accepted : s.boAccepted = true
  alone : s.dec.phase.busy = false
  quiet : s.agenda = []

/-- The state a decode pass over `bytes` begins in: START just done, the whole stream offered and its end signalled, PXO
accepted, the host doing nothing more (R107, R181). -/
structure DecodeStart (bytes : List Byte) (s : State) : Prop where
  ctx : ∃ k, s.dec = startedDec k
  inp : s.inp = bytes
  ended : s.inpEnded = true
  dst : s.dst = []
  accepted : s.pxoAccepted = true
  quiet : s.agenda = []

/-! ### What a step leaves alone -/

/-- Everything that is not the decoder's: the encoder, the inputs and the model's own fields are as they were. -/
structure OnlyDecoder (s t : State) : Prop where
  enc : t.enc = s.enc
  inp : t.inp = s.inp
  inpEnded : t.inpEnded = s.inpEnded
  src : t.src = s.src
  out : t.out = s.out
  cfgIn : t.cfgIn = s.cfgIn
  pxo : t.pxoAccepted = s.pxoAccepted
  bo : t.boAccepted = s.boAccepted
  agenda : t.agenda = s.agenda
  free : t.freeCount = s.freeCount

/-- Everything that is not the encoder's: the decoder, the inputs and the model's own fields are as they were. -/
structure OnlyEncoder (s t : State) : Prop where
  dec : t.dec = s.dec
  inp : t.inp = s.inp
  inpEnded : t.inpEnded = s.inpEnded
  dst : t.dst = s.dst
  src : t.src = s.src
  cfgIn : t.cfgIn = s.cfgIn
  pxo : t.pxoAccepted = s.pxoAccepted
  bo : t.boAccepted = s.boAccepted
  agenda : t.agenda = s.agenda
  free : t.freeCount = s.freeCount

/-- What every tag-reading pixel step leaves: PX emitted and stored (R109, R120), RUN holding `run`. -/
structure PixelResult (px : Pixel) (run : Nat) (s t : State) : Prop where
  prev : t.dec.prev = px
  run : t.dec.run.toNat = run
  stored : lookup t.dec.cache (slot px) = px
  emitted : t.dst.readPixel s.dec.ppos = some px
  ppos : t.dec.ppos = s.dec.ppos + 1
  phase : t.dec.phase = if s.dec.ppos + 1 = s.dec.npix then .done else s.dec.phase

/-- An action of the host that begins, ends or resets a pass of DEC. -/
def resetsDec : Action → Bool
  | .host .hardReset => true
  | .host (.start .dec) => true
  | .host (.abort .dec) => true
  | _ => false

/-- An action of the host that begins, ends or resets a pass of ENC. -/
def resetsEnc : Action → Bool
  | .host .hardReset => true
  | .host (.start .enc) => true
  | .host (.abort .enc) => true
  | _ => false

/-- Two states that agree on what the decoder can see. -/
structure SameDecoder (s t : State) : Prop where
  dec : t.dec = s.dec
  inp : t.inp = s.inp
  inpEnded : t.inpEnded = s.inpEnded
  dst : t.dst = s.dst
  pxo : t.pxoAccepted = s.pxoAccepted

/-- Two states that agree on what the encoder can see. -/
structure SameEncoder (s t : State) : Prop where
  enc : t.enc = s.enc
  src : t.src = s.src
  out : t.out = s.out
  bo : t.boAccepted = s.boAccepted

/-- R100, items (1) to (3): the contexts of an encode pass and of the decode pass over its output, after the same pixel. -/
def cachesCoherent (e : EncCtx) (d : DecCtx) : Prop :=
  d.prev = e.prev ∧
    (∀ i : BitVec 6, i ≠ 63#6 → lookup d.cache i = lookup e.cache i) ∧
    (lookup d.cache 63#6 = lookup e.cache 63#6 ∨ (lookup e.cache 63#6 = zeroPixel ∧ lookup d.cache 63#6 = prevInit))

end Sys2Proof.Machine
end

