-- ==== Sys2Proof/Certificates/Slice0/Obligations.lean ====
section
/-! DEFINITION. The statements for the provers, in terms of the machine's step and of the meanings it calls. -/

open Sys2Proof Sys2Proof.Machine

/-! ### Encoding -/

/-- R84: the worked encodings, from the notation of R82 and R83 to bytes. -/
def Obligations.WorkedEncodings : Prop :=
  (itemIndex 63).map encode = some [0x3F#8] ∧
  (itemRunS 1).map encode = some [0x40#8] ∧
  (itemRunS 32).map encode = some [0x5F#8] ∧
  (itemRunL 33).map encode = some [0x60#8, 0x00#8] ∧
  (itemRunL 8224).map encode = some [0x7F#8, 0xFF#8] ∧
  (itemRunL 300).map encode = some [0x61#8, 0x0B#8] ∧
  (itemDiffS 1 0 0).map encode = some [0xBA#8] ∧
  (itemDiffS (-2) (-2) (-2)).map encode = some [0x80#8] ∧
  (itemDiffS 1 1 1).map encode = some [0xBF#8] ∧
  (itemDiffM (-16) (-8) (-8)).map encode = some [0xC0#8, 0x00#8] ∧
  (itemDiffM 15 7 7).map encode = some [0xDF#8, 0xFF#8] ∧
  (itemDiffM 5 (-3) 7).map encode = some [0xD5#8, 0x5F#8] ∧
  (itemDiffL (-16) (-16) (-16) (-16)).map encode = some [0xE0#8, 0x00#8, 0x00#8] ∧
  (itemDiffL 15 15 15 15).map encode = some [0xEF#8, 0xFF#8, 0xFF#8] ∧
  (itemDiffL 0 0 0 1).map encode = some [0xE8#8, 0x42#8, 0x11#8] ∧
  (itemDiffL 3 (-4) 10 (-16)).map encode = some [0xE9#8, 0xB3#8, 0x40#8] ∧
  encode (.overwrite none none none none) = [0xF0#8] ∧
  encode (.overwrite none none none (some 128#8)) = [0xF1#8, 0x80#8] ∧
  encode (.overwrite (some 10#8) (some 20#8) (some 30#8) none) = [0xFE#8, 0x0A#8, 0x14#8, 0x1E#8] ∧
  encode (itemRgba 1#8 2#8 3#8 4#8) = [0xFF#8, 0x01#8, 0x02#8, 0x03#8, 0x04#8]

/-- Words written out from the formats R60 to R64, R68 to R74, R76 decode to what they stand for. -/
def Obligations.WrittenWordsDecode : Prop :=
  decodeAt .chunk [0x3F#8] = .ok (.index 63#6) [] ∧
  decodeAt .chunk [0x5F#8] = .ok (.runS 31#5) [] ∧
  decodeAt .chunk [0x61#8, 0x0B#8] = .ok (.runL 267#13) [] ∧
  decodeAt .chunk [0xBA#8] = .ok (.diffS 3#2 2#2 2#2) [] ∧
  decodeAt .chunk [0xD5#8, 0x5F#8] = .ok (.diffM 21#5 5#4 15#4) [] ∧
  decodeAt .chunk [0xE1#8, 0x7C#8, 0x1F#8] = .ok (.diffL 2#5 31#5 0#5 31#5) [] ∧
  decodeAt .chunk [0xFA#8, 0x09#8, 0x07#8, 0x55#8] = .ok (.overwrite (some 9#8) none (some 7#8) none) [0x55#8] ∧
  decodeAt .header [0x71#8, 0x6F#8, 0x69#8, 0x66#8, 0x00#8, 0x00#8, 0x01#8, 0x00#8, 0x01#8, 0x00#8, 0x00#8, 0x80#8, 0x03#8, 0xFF#8]
    = .ok (.header 256#32 16777344#32 3#8 255#8) [] ∧
  decodeAt .trailer [0x00#8, 0x00#8, 0x00#8, 0x00#8] = .ok .trailer []

/-- Every instruction, every operand at every value its format admits: decoding its bytes where it stands gives it back. -/
def Obligations.DecodeOfEncodeIsTheInstruction : Prop :=
  ∀ (i : Instr) (rest : List Byte), decodeAt i.position (encode i ++ rest) = .ok i rest

/-- What decodes is the encoding of what it decodes to: every byte string has at most one reading, and every bit of it counts. -/
def Obligations.EncodeOfDecodeIsTheBytes : Prop :=
  ∀ (pos : Position) (bs : List Byte) (i : Instr) (rest : List Byte),
    decodeAt pos bs = .ok i rest → encode i ++ rest = bs ∧ i.position = pos

/-- R111: which kind each first byte opens; RESET is never selected. -/
def Obligations.DispatchOfTheFirstByte : Prop :=
  ∀ b : Byte,
    (dispatchTag b = .index ↔ b.toNat / 64 = 0) ∧
    (dispatchTag b = .runS ↔ b.toNat / 32 = 2) ∧
    (dispatchTag b = .runL ↔ b.toNat / 32 = 3) ∧
    (dispatchTag b = .diffS ↔ b.toNat / 64 = 2) ∧
    (dispatchTag b = .diffM ↔ b.toNat / 32 = 6) ∧
    (dispatchTag b = .diffL ↔ b.toNat / 16 = 14) ∧
    (dispatchTag b = .overwrite ↔ b.toNat / 16 = 15) ∧
    dispatchTag b ≠ .reset

/-- R78: a chunk's length is what its first byte says, and that is the number of bytes decoding takes. -/
def Obligations.ChunkLengthFromTheFirstByte : Prop :=
  ∀ b1 : Byte,
    (b1.toNat / 64 = 0 → chunkLength b1 = 1) ∧
    (b1.toNat / 32 = 2 → chunkLength b1 = 1) ∧
    (b1.toNat / 32 = 3 → chunkLength b1 = 2) ∧
    (b1.toNat / 64 = 2 → chunkLength b1 = 1) ∧
    (b1.toNat / 32 = 6 → chunkLength b1 = 2) ∧
    (b1.toNat / 16 = 14 → chunkLength b1 = 3) ∧
    (b1.toNat / 16 = 15 →
      chunkLength b1 = 1 + (b1.toNat / 8 % 2 + b1.toNat / 4 % 2 + b1.toNat / 2 % 2 + b1.toNat % 2)) ∧
    (∀ (tl : List Byte) (i : Instr) (rest : List Byte),
      decodeChunk (b1 :: tl) = .ok i rest → tl.length + 1 = chunkLength b1 + rest.length)

/-- R79: no byte string is an illegal chunk: it is a chunk, or it ends too early. -/
def Obligations.NoChunkEncodingIsIllegal : Prop :=
  ∀ (b1 : Byte) (tl : List Byte),
    (chunkLength b1 ≤ tl.length + 1 → ∃ i rest, decodeChunk (b1 :: tl) = .ok i rest) ∧
    (tl.length + 1 < chunkLength b1 → decodeChunk (b1 :: tl) = .reject .endOfStream)

/-! ### The chunks as the decoder executes them -/

/-- R112: the byte `00iiiiii` and its effect, for every index and every state with a pixel still to come. -/
def Obligations.IndexTakesTheCacheSlot : Prop :=
  (∀ (b1 : Byte) (rest : List Byte), b1.toNat / 64 = 0 →
    decodeChunk (b1 :: rest) = .ok (.index (BitVec.ofNat 6 (b1.toNat % 64))) rest) ∧
  ∀ (i : BitVec 6) (s : State), s.dec.ppos < s.dec.npix →
    ∃ t, exec (.index i) s = .next t ∧ PixelResult (lookup s.dec.cache i) s.dec.run.toNat s t

/-- R113: the byte `010nnnnn` and its effect. -/
def Obligations.ShortRunRepeatsPrev : Prop :=
  (∀ (b1 : Byte) (rest : List Byte), b1.toNat / 32 = 2 →
    decodeChunk (b1 :: rest) = .ok (.runS (BitVec.ofNat 5 (b1.toNat % 32))) rest) ∧
  ∀ (n : BitVec 5) (s : State), s.dec.ppos < s.dec.npix →
    ∃ t, exec (.runS n) s = .next t ∧ PixelResult s.dec.prev n.toNat s t

/-- R114: the bytes `011hhhhh llllllll` and their effect. -/
def Obligations.LongRunRepeatsPrev : Prop :=
  (∀ (b1 b2 : Byte) (rest : List Byte), b1.toNat / 32 = 3 →
    decodeChunk (b1 :: b2 :: rest) = .ok (.runL (BitVec.ofNat 13 (b1.toNat % 32 * 256 + b2.toNat))) rest) ∧
  ∀ (f : BitVec 13) (s : State), s.dec.ppos < s.dec.npix →
    ∃ t, exec (.runL f) s = .next t ∧ PixelResult s.dec.prev (f.toNat + 32) s t

/-- R115: the byte `10rrggbb` and its effect; the sums wrap modulo 256. -/
def Obligations.SmallDiffAddsToPrev : Prop :=
  (∀ (b1 : Byte) (rest : List Byte), b1.toNat / 64 = 2 →
    decodeChunk (b1 :: rest) =
      .ok (.diffS (BitVec.ofNat 2 (b1.toNat / 16 % 4)) (BitVec.ofNat 2 (b1.toNat / 4 % 4)) (BitVec.ofNat 2 (b1.toNat % 4))) rest) ∧
  ∀ (r g b : BitVec 2) (s : State), s.dec.ppos < s.dec.npix →
    ∃ t px, exec (.diffS r g b) s = .next t ∧ PixelResult px s.dec.run.toNat s t ∧
      (px.r.toNat : Int) = ((s.dec.prev.r.toNat : Int) + ((r.toNat : Int) - 2)) % 256 ∧
      (px.g.toNat : Int) = ((s.dec.prev.g.toNat : Int) + ((g.toNat : Int) - 2)) % 256 ∧
      (px.b.toNat : Int) = ((s.dec.prev.b.toNat : Int) + ((b.toNat : Int) - 2)) % 256 ∧
      px.a = s.dec.prev.a

/-- R116: the bytes `110rrrrr ggggbbbb` and their effect. -/
def Obligations.MediumDiffAddsToPrev : Prop :=
  (∀ (b1 b2 : Byte) (rest : List Byte), b1.toNat / 32 = 6 →
    decodeChunk (b1 :: b2 :: rest) =
      .ok (.diffM (BitVec.ofNat 5 (b1.toNat % 32)) (BitVec.ofNat 4 (b2.toNat / 16)) (BitVec.ofNat 4 (b2.toNat % 16))) rest) ∧
  ∀ (r : BitVec 5) (g b : BitVec 4) (s : State), s.dec.ppos < s.dec.npix →
    ∃ t px, exec (.diffM r g b) s = .next t ∧ PixelResult px s.dec.run.toNat s t ∧
      (px.r.toNat : Int) = ((s.dec.prev.r.toNat : Int) + ((r.toNat : Int) - 16)) % 256 ∧
      (px.g.toNat : Int) = ((s.dec.prev.g.toNat : Int) + ((g.toNat : Int) - 8)) % 256 ∧
      (px.b.toNat : Int) = ((s.dec.prev.b.toNat : Int) + ((b.toNat : Int) - 8)) % 256 ∧
      px.a = s.dec.prev.a

/-- R117: the bytes `1110rrrr rgggggbb bbbaaaaa`, the 20 bits of `F` cut in four, and their effect on all four channels. -/
def Obligations.LargeDiffAddsToPrev : Prop :=
  (∀ (b1 b2 b3 : Byte) (rest : List Byte), b1.toNat / 16 = 14 →
    ∀ F, F = b1.toNat % 16 * 65536 + b2.toNat * 256 + b3.toNat →
      decodeChunk (b1 :: b2 :: b3 :: rest) =
        .ok (.diffL (BitVec.ofNat 5 (F / 32768)) (BitVec.ofNat 5 (F / 1024 % 32)) (BitVec.ofNat 5 (F / 32 % 32))
          (BitVec.ofNat 5 (F % 32))) rest) ∧
  ∀ (r g b a : BitVec 5) (s : State), s.dec.ppos < s.dec.npix →
    ∃ t px, exec (.diffL r g b a) s = .next t ∧ PixelResult px s.dec.run.toNat s t ∧
      (px.r.toNat : Int) = ((s.dec.prev.r.toNat : Int) + ((r.toNat : Int) - 16)) % 256 ∧
      (px.g.toNat : Int) = ((s.dec.prev.g.toNat : Int) + ((g.toNat : Int) - 16)) % 256 ∧
      (px.b.toNat : Int) = ((s.dec.prev.b.toNat : Int) + ((b.toNat : Int) - 16)) % 256 ∧
      (px.a.toNat : Int) = ((s.dec.prev.a.toNat : Int) + ((a.toNat : Int) - 16)) % 256

/-- R118: the flags of the byte `1111RGBA` say which literals follow, in the order R, G, B, A; a literal replaces its channel
and the others keep PREV's. -/
def Obligations.OverwriteReplacesFlaggedChannels : Prop :=
  (∀ (b1 : Byte) (r g b a : Option Byte) (rest : List Byte), b1.toNat / 16 = 15 →
    (r.isSome = decide (b1.toNat / 8 % 2 = 1)) → (g.isSome = decide (b1.toNat / 4 % 2 = 1)) →
    (b.isSome = decide (b1.toNat / 2 % 2 = 1)) → (a.isSome = decide (b1.toNat % 2 = 1)) →
      decodeChunk (b1 :: (r.toList ++ g.toList ++ b.toList ++ a.toList ++ rest)) = .ok (.overwrite r g b a) rest) ∧
  ∀ (r g b a : Option Byte) (s : State), s.dec.ppos < s.dec.npix →
    ∃ t px, exec (.overwrite r g b a) s = .next t ∧ PixelResult px s.dec.run.toNat s t ∧
      (∀ v, r = some v → px.r = v) ∧ (r = none → px.r = s.dec.prev.r) ∧
      (∀ v, g = some v → px.g = v) ∧ (g = none → px.g = s.dec.prev.g) ∧
      (∀ v, b = some v → px.b = v) ∧ (b = none → px.b = s.dec.prev.b) ∧
      (∀ v, a = some v → px.a = v) ∧ (a = none → px.a = s.dec.prev.a)

/-- The frame of the seven chunk kinds: the decoder's PREV, RUN (run chunks only), CACHE at the emitted pixel's slot, PPOS and
PHASE may change, and the four bytes of DST at the pixel number PPOS; nothing else does. -/
def Obligations.ChunkFrame : Prop :=
  ∀ (i : Instr) (s t : State), i.position = .chunk → exec i s = .next t →
    OnlyDecoder s t ∧
    ((∀ n, i ≠ .runS n) → (∀ f, i ≠ .runL f) → t.dec.run = s.dec.run) ∧
    (∀ j, j ≠ slot t.dec.prev → lookup t.dec.cache j = lookup s.dec.cache j) ∧
    t.dec.ipos = s.dec.ipos ∧ t.dec.npix = s.dec.npix ∧ t.dec.hdrWidth = s.dec.hdrWidth ∧ t.dec.hdrHeight = s.dec.hdrHeight ∧
    t.dec.hdrChannels = s.dec.hdrChannels ∧ t.dec.hdrColorspace = s.dec.hdrColorspace ∧ t.dec.hdrValid = s.dec.hdrValid ∧
    t.dec.err = s.dec.err ∧ t.dec.errPos = s.dec.errPos ∧
    (∀ a, (a < pixelOffset s.dec.ppos ∨ pixelOffset s.dec.ppos + 4 ≤ a) → t.dst.read a = s.dst.read a)

/-- The model's choice (log 12): a chunk executed with PPOS at or above NPIX stops, since DST has no such pixel (R43, R52). -/
def Obligations.ChunkStopsPastTheRaster : Prop :=
  ∀ (i : Instr) (s : State), i.position = .chunk → s.dec.npix ≤ s.dec.ppos → exec i s = .fault .noDestinationPixel

/-- R87, R90: a header with legal fields, executed. -/
def Obligations.LegalHeaderIsAccepted : Prop :=
  ∀ (w h : Word) (c cs : Byte) (s : State), w ≠ 0#32 → h ≠ 0#32 → (c = 3#8 ∨ c = 4#8) →
    ∃ t, exec (.header w h c cs) s = .next t ∧
      t.dec.hdrWidth = w ∧ t.dec.hdrHeight = h ∧ t.dec.hdrChannels = c ∧ t.dec.hdrColorspace = cs ∧
      t.dec.npix = w.toNat * h.toNat ∧ 1 ≤ t.dec.npix ∧ t.dec.npix < 2 ^ 64 ∧ t.dec.hdrValid = true ∧ t.dec.phase = .pixels ∧
      t.dec.err = s.dec.err ∧ t.dec.errPos = s.dec.errPos

/-- R89: a header with width 0, height 0 or channels other than 3 and 4, executed: the registers hold what was read, FormatError. -/
def Obligations.IllegalHeaderRaisesFormatError : Prop :=
  ∀ (w h : Word) (c cs : Byte) (s : State), (w = 0#32 ∨ h = 0#32 ∨ (c ≠ 3#8 ∧ c ≠ 4#8)) →
    ∃ t, exec (.header w h c cs) s = .next t ∧
      t.dec.hdrWidth = w ∧ t.dec.hdrHeight = h ∧ t.dec.hdrChannels = c ∧ t.dec.hdrColorspace = cs ∧
      t.dec.err = .format ∧ t.dec.err.code = 1 ∧ t.dec.errPos = s.dec.ipos ∧ t.dec.phase = .error ∧
      t.dec.npix = s.dec.npix ∧ t.dec.hdrValid = s.dec.hdrValid

/-- The frame of HEADER: it touches neither PREV, RUN, CACHE, IPOS nor PPOS, and no byte of DST (R87, R94). -/
def Obligations.HeaderFrame : Prop :=
  ∀ (w h : Word) (c cs : Byte) (s t : State), exec (.header w h c cs) s = .next t →
    OnlyDecoder s t ∧ t.dec.prev = s.dec.prev ∧ t.dec.run = s.dec.run ∧ t.dec.cache = s.dec.cache ∧
    t.dec.ipos = s.dec.ipos ∧ t.dec.ppos = s.dec.ppos ∧ ∀ a, t.dst.read a = s.dst.read a

/-- R148: the trailer: four zero bytes at OPOS, PHASE = DONE, nothing else read or written. -/
def Obligations.TrailerEndsTheStream : Prop :=
  ∀ s : State, ∃ t, exec .trailer s = .next t ∧ OnlyEncoder s t ∧
    t.enc = { s.enc with opos := s.enc.opos + 4, phase := .done } ∧
    (∀ a, s.enc.opos ≤ a → a < s.enc.opos + 4 → t.out.read a = some 0#8) ∧
    (∀ a, (a < s.enc.opos ∨ s.enc.opos + 4 ≤ a) → t.out.read a = s.out.read a)

/-! ### Steps of the decoder -/

/-- A step runs the decoded instruction: the chunk at IPOS (IPOS moved past it), the header at offset 0 (IPOS at 14), and the
trailer when ENC is in PHASE = TRAILER; `popAgenda` takes the used entry off the agenda. -/
def Obligations.StepRunsTheDecodedInstruction : Prop :=
  (∀ (s : State) (i : Instr) (rest : List Byte), s.dec.phase = .pixels → s.dec.run = 0#14 → s.pxoAccepted = true →
    (s.agenda = [] ∨ ∃ l, s.agenda = .engine .dec :: l) → decodeAt .chunk (s.inp.drop s.dec.ipos) = .ok i rest →
      step s = exec i ((popAgenda s).setDec { s.dec with ipos := s.dec.ipos + i.size })) ∧
  (∀ (s : State) (i : Instr) (rest : List Byte), s.dec.phase = .header →
    (s.agenda = [] ∨ ∃ l, s.agenda = .engine .dec :: l) → decodeAt .header s.inp = .ok i rest →
      step s = exec i ((popAgenda s).setDec { s.dec with ipos := 14 })) ∧
  (∀ s : State, s.enc.phase = .trailer → s.boAccepted = true →
    ((s.agenda = [] ∧ s.dec.phase.busy = false) ∨ ∃ l, s.agenda = .engine .enc :: l) →
      step s = exec .trailer (popAgenda s))

/-- R110: a run continuation: RUN - 1, one more pixel equal to PREV, no byte read, no store. -/
def Obligations.RunContinuation : Prop :=
  ∀ (s : State) (l : List Action), s.agenda = .engine .dec :: l → s.dec.phase = .pixels → s.dec.run ≠ 0#14 →
    s.pxoAccepted = true → s.dec.ppos < s.dec.npix →
      ∃ t, step s = .next t ∧ OnlyDecoder (popAgenda s) t ∧
        t.dec = { s.dec with
          run := t.dec.run, ppos := s.dec.ppos + 1,
          phase := if s.dec.ppos + 1 = s.dec.npix then .done else .pixels } ∧
        t.dec.run.toNat + 1 = s.dec.run.toNat ∧ t.dst.readPixel s.dec.ppos = some s.dec.prev ∧
        (∀ a, (a < pixelOffset s.dec.ppos ∨ pixelOffset s.dec.ppos + 4 ≤ a) → t.dst.read a = s.dst.read a)

/-- R124, R125: the stream ends before the chunk does: TruncatedStreamError with IPOS and ERR_POS at LEN(IN), and nothing else
of the state changed. -/
def Obligations.TruncatedChunkChangesNothingElse : Prop :=
  ∀ (s : State) (l : List Action), s.agenda = .engine .dec :: l → s.dec.phase = .pixels → s.dec.run = 0#14 →
    s.inpEnded = true → s.dec.ipos ≤ s.inp.length → decodeAt .chunk (s.inp.drop s.dec.ipos) = .reject .endOfStream →
      step s = .next ((popAgenda s).setDec
        { s.dec with ipos := s.inp.length, err := .truncated, errPos := s.inp.length, phase := .error })

/-- R88: fewer than 14 bytes before the end of the stream: FormatError with IPOS and ERR_POS at LEN(IN), and nothing else of
the state changed; without the end of the stream the parser waits (R128), and that IPOS stays where it is in the wait although
some of the bytes may have been offered is the model's choice (log 8). -/
def Obligations.ShortHeaderRaisesFormatError : Prop :=
  ∀ (s : State) (l : List Action), s.agenda = .engine .dec :: l → s.dec.phase = .header → s.inp.length < 14 →
    (s.inpEnded = true →
      step s = .next ((popAgenda s).setDec
        { s.dec with ipos := s.inp.length, err := .format, errPos := s.inp.length, phase := .error })) ∧
    (s.inpEnded = false → step s = .next (popAgenda s))

/-- R89: with 14 bytes offered the header step succeeds exactly when the magic is "qoif", width and height are not 0 and
channels is 3 or 4; otherwise it is FormatError at IPOS = 14; no pixel comes of it. The registers and NPIX are R87's and R90's;
the magic's byte values are R60's, from general knowledge (log 3). -/
def Obligations.HeaderStepJudgesTheHeader : Prop :=
  ∀ (s : State) (l : List Action) (m0 m1 m2 m3 w3 w2 w1 w0 h3 h2 h1 h0 c cs : Byte) (rest : List Byte),
    s.agenda = .engine .dec :: l → s.dec.phase = .header →
    s.inp = m0 :: m1 :: m2 :: m3 :: w3 :: w2 :: w1 :: w0 :: h3 :: h2 :: h1 :: h0 :: c :: cs :: rest →
      ∃ t, step s = .next t ∧ t.dec.ipos = 14 ∧ t.dec.ppos = s.dec.ppos ∧ t.dst = s.dst ∧
        t.dec.hdrWidth.toNat = w3.toNat * 2 ^ 24 + w2.toNat * 2 ^ 16 + w1.toNat * 2 ^ 8 + w0.toNat ∧
        t.dec.hdrHeight.toNat = h3.toNat * 2 ^ 24 + h2.toNat * 2 ^ 16 + h1.toNat * 2 ^ 8 + h0.toNat ∧
        t.dec.hdrChannels = c ∧ t.dec.hdrColorspace = cs ∧
        (((m0 = 0x71#8 ∧ m1 = 0x6F#8 ∧ m2 = 0x69#8 ∧ m3 = 0x66#8) ∧ t.dec.hdrWidth ≠ 0#32 ∧ t.dec.hdrHeight ≠ 0#32 ∧
            (c = 3#8 ∨ c = 4#8)) →
          t.dec.phase = .pixels ∧ t.dec.hdrValid = true ∧ t.dec.npix = t.dec.hdrWidth.toNat * t.dec.hdrHeight.toNat) ∧
        (¬((m0 = 0x71#8 ∧ m1 = 0x6F#8 ∧ m2 = 0x69#8 ∧ m3 = 0x66#8) ∧ t.dec.hdrWidth ≠ 0#32 ∧ t.dec.hdrHeight ≠ 0#32 ∧
            (c = 3#8 ∨ c = 4#8)) →
          t.dec.phase = .error ∧ t.dec.err = .format ∧ t.dec.errPos = 14 ∧ t.dec.hdrValid = s.dec.hdrValid)

/-- R128, R154: a turn that lacks a byte (or a pixel) that may still come, or whose output the host does not accept, changes
nothing. That a step waits as a whole, IPOS and OPOS at its start, is the model's choice (log 8, log 11). -/
def Obligations.WaitsChangeNothing : Prop :=
  (∀ (s : State) (l : List Action), s.agenda = .engine .dec :: l → s.dec.phase = .pixels → s.dec.run = 0#14 →
    s.inpEnded = false → decodeAt .chunk (s.inp.drop s.dec.ipos) = .reject .endOfStream → step s = .next (popAgenda s)) ∧
  (∀ (s : State) (l : List Action), s.agenda = .engine .dec :: l → s.dec.phase = .pixels → s.dec.run ≠ 0#14 →
    s.pxoAccepted = false → step s = .next (popAgenda s)) ∧
  (∀ (s : State) (l : List Action) (i : Instr) (rest : List Byte), s.agenda = .engine .dec :: l → s.dec.phase = .pixels →
    s.dec.run = 0#14 → s.pxoAccepted = false → decodeAt .chunk (s.inp.drop s.dec.ipos) = .ok i rest →
      step s = .next (popAgenda s)) ∧
  (∀ (s : State) (l : List Action), s.agenda = .engine .enc :: l → s.enc.phase = .pixels → s.src.length ≤ s.enc.ppos →
    step s = .next (popAgenda s)) ∧
  (∀ (s : State) (l : List Action), s.agenda = .engine .enc :: l → s.boAccepted = false →
    (s.enc.phase = .header ∨ s.enc.phase = .trailer) → step s = .next (popAgenda s)) ∧
  (∀ (s : State) (l : List Action) (p : Pixel), s.agenda = .engine .enc :: l → s.boAccepted = false → s.enc.phase = .pixels →
    s.src[s.enc.ppos]? = some p → pixelChunks s.enc p ≠ [] → step s = .next (popAgenda s))

/-- R164, R121, R173: in IDLE, DONE and ERROR no step of the engine is enabled. -/
def Obligations.RestingEnginesDoNothing : Prop :=
  ∀ (s : State) (e : Engine) (l : List Action), s.agenda = .engine e :: l →
    (s.phaseOf e = .idle ∨ s.phaseOf e = .done ∨ s.phaseOf e = .error) → step s = .next (popAgenda s)

/-! ### Steps of the encoder -/

/-- R85: HDR.EMIT: "qoif", width and height big-endian, channels, color_space, in that order at OPOS; nothing is checked. -/
def Obligations.HeaderEmission : Prop :=
  ∀ (s : State) (l : List Action), s.agenda = .engine .enc :: l → s.enc.phase = .header → s.boAccepted = true →
    ∃ t, step s = .next t ∧ OnlyEncoder (popAgenda s) t ∧
      t.enc = { s.enc with opos := s.enc.opos + 14, phase := if s.enc.npix = 0 then .trailer else .pixels } ∧
      t.out = s.out.writeBytes s.enc.opos
        [0x71#8, 0x6F#8, 0x69#8, 0x66#8,
          BitVec.ofNat 8 (s.enc.cfg.width.toNat / 2 ^ 24), BitVec.ofNat 8 (s.enc.cfg.width.toNat / 2 ^ 16),
          BitVec.ofNat 8 (s.enc.cfg.width.toNat / 2 ^ 8), BitVec.ofNat 8 s.enc.cfg.width.toNat,
          BitVec.ofNat 8 (s.enc.cfg.height.toNat / 2 ^ 24), BitVec.ofNat 8 (s.enc.cfg.height.toNat / 2 ^ 16),
          BitVec.ofNat 8 (s.enc.cfg.height.toNat / 2 ^ 8), BitVec.ofNat 8 s.enc.cfg.height.toNat,
          s.enc.cfg.channels, s.enc.cfg.colorspace]

/-- R132, R134: a pixel equal to PREV that neither fills the run nor ends the image emits nothing, stores nothing and counts in
RUN (BO need not be accepted). -/
def Obligations.EqualPixelOnlyCounts : Prop :=
  ∀ (s : State) (l : List Action), s.agenda = .engine .enc :: l → s.enc.phase = .pixels →
    s.enc.ppos + 1 < s.enc.npix → s.src[s.enc.ppos]? = some s.enc.prev → s.enc.run.toNat + 1 < 8224 →
      ∃ t, step s = .next t ∧ OnlyEncoder (popAgenda s) t ∧ t.out = s.out ∧
        t.enc = { s.enc with run := t.enc.run, ppos := s.enc.ppos + 1 } ∧ t.enc.run.toNat = s.enc.run.toNat + 1

/-- R134, R137: a pixel equal to PREV that fills the run (8224) or is the last of the image flushes it at once: the run's chunk
alone is emitted, nothing is stored, RUN = 0. -/
def Obligations.FullOrLastRunIsFlushed : Prop :=
  ∀ (s : State) (l : List Action), s.agenda = .engine .enc :: l → s.enc.phase = .pixels → s.boAccepted = true →
    s.enc.ppos < s.enc.npix → s.src[s.enc.ppos]? = some s.enc.prev → s.enc.run.toNat < 8224 →
    (s.enc.run.toNat + 1 = 8224 ∨ s.enc.ppos + 1 = s.enc.npix) →
      ∃ t, step s = .next t ∧ OnlyEncoder (popAgenda s) t ∧
        t.out = s.out.writeBytes s.enc.opos (encode (flushChunk (s.enc.run + 1#14))) ∧
        t.enc = { s.enc with
          run := 0#14, opos := s.enc.opos + (encode (flushChunk (s.enc.run + 1#14))).length, ppos := s.enc.ppos + 1,
          phase := if s.enc.ppos + 1 = s.enc.npix then .trailer else .pixels }

/-- R131, R137, R145, R146: a pixel that differs from PREV: a pending run's chunk first, then one chunk for the pixel, one store,
PREV <- p. -/
def Obligations.DifferingPixelIsEmitted : Prop :=
  ∀ (s : State) (l : List Action) (p : Pixel), s.agenda = .engine .enc :: l → s.enc.phase = .pixels → s.boAccepted = true →
    s.enc.ppos < s.enc.npix → s.src[s.enc.ppos]? = some p → p ≠ s.enc.prev →
      ∃ t bs, step s = .next t ∧ OnlyEncoder (popAgenda s) t ∧
        bs = (if s.enc.run = 0#14 then [] else encode (flushChunk s.enc.run)) ++ encode (selectChunk s.enc.cache s.enc.prev p) ∧
        t.out = s.out.writeBytes s.enc.opos bs ∧
        t.enc = { s.enc with
          prev := p, run := 0#14, cache := t.enc.cache, opos := s.enc.opos + bs.length, ppos := s.enc.ppos + 1,
          phase := if s.enc.ppos + 1 = s.enc.npix then .trailer else .pixels } ∧
        lookup t.enc.cache (slot p) = p ∧ ∀ j, j ≠ slot p → lookup t.enc.cache j = lookup s.enc.cache j

/-- R135, R136: the bytes of a flushed run. -/
def Obligations.RunChunkBytes : Prop :=
  (∀ run : BitVec 14, 1 ≤ run.toNat → run.toNat ≤ 32 → encode (flushChunk run) = [BitVec.ofNat 8 (0x40 + (run.toNat - 1))]) ∧
  (∀ run : BitVec 14, 33 ≤ run.toNat → run.toNat ≤ 8224 →
    encode (flushChunk run) =
      [BitVec.ofNat 8 (0x60 + (run.toNat - 33) / 256), BitVec.ofNat 8 ((run.toNat - 33) % 256)])

/-- R138, R140 to R144: the chunk a differing pixel gets, by the first condition that holds, and its bytes. -/
def Obligations.SelectionAndItsBytes : Prop :=
  ∀ (c : Cache) (prev p : Pixel) (vr vg vb va : Int), p ≠ prev →
    vr = (p.r.toNat : Int) - prev.r.toNat → vg = (p.g.toNat : Int) - prev.g.toNat →
    vb = (p.b.toNat : Int) - prev.b.toNat → va = (p.a.toNat : Int) - prev.a.toNat →
    ∀ fitsS fitsM fitsL : Prop,
      (fitsS ↔ (-2 ≤ vr ∧ vr ≤ 1) ∧ (-2 ≤ vg ∧ vg ≤ 1) ∧ (-2 ≤ vb ∧ vb ≤ 1) ∧ va = 0) →
      (fitsM ↔ (-16 ≤ vr ∧ vr ≤ 15) ∧ (-8 ≤ vg ∧ vg ≤ 7) ∧ (-8 ≤ vb ∧ vb ≤ 7) ∧ va = 0) →
      (fitsL ↔ (-16 ≤ vr ∧ vr ≤ 15) ∧ (-16 ≤ vg ∧ vg ≤ 15) ∧ (-16 ≤ vb ∧ vb ≤ 15) ∧ (-16 ≤ va ∧ va ≤ 15)) →
      (lookup c (slot p) = p →
        encode (selectChunk c prev p) = [(p.r ^^^ p.g ^^^ p.b ^^^ p.a) &&& 0x3F#8]) ∧
      (lookup c (slot p) ≠ p → fitsS →
        encode (selectChunk c prev p) = [BitVec.ofInt 8 (0x80 + (vr + 2) * 16 + (vg + 2) * 4 + (vb + 2))]) ∧
      (lookup c (slot p) ≠ p → ¬fitsS → fitsM →
        encode (selectChunk c prev p) =
          [BitVec.ofInt 8 (0xC0 + (vr + 16)), BitVec.ofInt 8 ((vg + 8) * 16 + (vb + 8))]) ∧
      (lookup c (slot p) ≠ p → ¬fitsM → fitsL → ∀ F,
        F = (vr + 16) * 2 ^ 15 + (vg + 16) * 2 ^ 10 + (vb + 16) * 2 ^ 5 + (va + 16) →
        encode (selectChunk c prev p) =
          [BitVec.ofInt 8 (0xE0 + F / 65536), BitVec.ofInt 8 (F / 256 % 256), BitVec.ofInt 8 (F % 256)]) ∧
      (lookup c (slot p) ≠ p → ¬fitsL →
        encode (selectChunk c prev p) =
          BitVec.ofNat 8 (0xF0 + (if vr ≠ 0 then 8 else 0) + (if vg ≠ 0 then 4 else 0) + (if vb ≠ 0 then 2 else 0) +
              (if va ≠ 0 then 1 else 0)) ::
            ((if vr ≠ 0 then [p.r] else []) ++ (if vg ≠ 0 then [p.g] else []) ++ (if vb ≠ 0 then [p.b] else []) ++
              (if va ≠ 0 then [p.a] else [])))

/-- R138, R105: the selected chunk is lossless: a decoder with the same PREV, and with `p` in its slot wherever the encoder has it
there, rebuilds `p`; a flushed run loads the rest of the run (R135, R136, C8). -/
def Obligations.EmittedChunksRebuildThePixels : Prop :=
  (∀ (c : Cache) (p : Pixel) (s : State), p ≠ s.dec.prev → s.dec.ppos < s.dec.npix →
    (lookup c (slot p) = p → lookup s.dec.cache (slot p) = p) →
      ∃ t, exec (selectChunk c s.dec.prev p) s = .next t ∧ PixelResult p s.dec.run.toNat s t) ∧
  (∀ (run : BitVec 14) (s : State), 1 ≤ run.toNat → run.toNat ≤ 8224 → s.dec.ppos < s.dec.npix →
    ∃ t, exec (flushChunk run) s = .next t ∧ PixelResult s.dec.prev (run.toNat - 1) s t)

/-! ### Arithmetic -/

/-- R9, R101, R102: ADD8 wraps modulo 256 and obeys the laws (a) to (e), for every integer. -/
def Obligations.ModularAdderLaws : Prop :=
  ∀ (x : Byte) (d e : Int),
    ((add8 x d).toNat : Int) = ((x.toNat : Int) + d) % 256 ∧
    add8 x 0 = x ∧ add8 (add8 x d) e = add8 x (d + e) ∧ add8 x d = add8 x (d % 256) ∧
    (0 ≤ (x.toNat : Int) + d → (x.toNat : Int) + d ≤ 255 → ((add8 x d).toNat : Int) = (x.toNat : Int) + d) ∧
    add8 (add8 x d) (-d) = x

/-- R104: the three range predicates, and FIT_S implies FIT_M implies FIT_L. -/
def Obligations.RangePredicates : Prop :=
  ∀ d : Delta,
    (fitL d = true ↔ (-16 ≤ d.vr ∧ d.vr ≤ 15) ∧ (-16 ≤ d.vg ∧ d.vg ≤ 15) ∧ (-16 ≤ d.vb ∧ d.vb ≤ 15) ∧ (-16 ≤ d.va ∧ d.va ≤ 15)) ∧
    (fitS d = true ↔ fitL d = true ∧ d.va = 0 ∧ (-2 ≤ d.vr ∧ d.vr ≤ 1) ∧ (-2 ≤ d.vg ∧ d.vg ≤ 1) ∧ (-2 ≤ d.vb ∧ d.vb ≤ 1)) ∧
    (fitM d = true ↔ fitL d = true ∧ d.va = 0 ∧ (-16 ≤ d.vr ∧ d.vr ≤ 15) ∧ (-8 ≤ d.vg ∧ d.vg ≤ 7) ∧ (-8 ≤ d.vb ∧ d.vb ≤ 7)) ∧
    (fitS d = true → fitM d = true) ∧ (fitM d = true → fitL d = true)

/-! ### Commands -/

/-- R174, R177: START in IDLE, DONE or ERROR gives the addressed context the initial state of a pass, whatever it held, and
leaves the other alone; in the other phases it is ignored. -/
def Obligations.StartGivesTheInitialState : Prop :=
  (∀ (s : State) (l : List Action), s.agenda = .host (.start .dec) :: l →
    (s.dec.phase = .idle ∨ s.dec.phase = .done ∨ s.dec.phase = .error) →
      ∃ t, step s = .next t ∧ t.dec.prev = ⟨0#8, 0#8, 0#8, 255#8⟩ ∧ t.dec.run = 0#14 ∧
        (∀ i, lookup t.dec.cache i = ⟨0#8, 0#8, 0#8, 0#8⟩) ∧ t.dec.ppos = 0 ∧ t.dec.err = .none ∧ t.dec.phase = .header ∧
        t.dec.ipos = 0 ∧ t.dec.errPos = 0 ∧ t.dec.hdrValid = false ∧ t.enc = s.enc ∧ t.out = s.out) ∧
  (∀ (s : State) (l : List Action), s.agenda = .host (.start .enc) :: l →
    (s.enc.phase = .idle ∨ s.enc.phase = .done ∨ s.enc.phase = .error) →
      ∃ t, step s = .next t ∧ t.enc.prev = ⟨0#8, 0#8, 0#8, 255#8⟩ ∧ t.enc.run = 0#14 ∧
        (∀ i, lookup t.enc.cache i = ⟨0#8, 0#8, 0#8, 0#8⟩) ∧ t.enc.ppos = 0 ∧ t.enc.err = .none ∧ t.enc.phase = .header ∧
        t.enc.opos = 0 ∧ t.out = [] ∧ t.enc.cfg = s.cfgIn ∧ t.enc.npix = s.cfgIn.width.toNat * s.cfgIn.height.toNat ∧
        t.dec = s.dec ∧ t.dst = s.dst) ∧
  (∀ (s : State) (e : Engine) (l : List Action), s.agenda = .host (.start e) :: l →
    (s.phaseOf e = .header ∨ s.phaseOf e = .pixels ∨ s.phaseOf e = .trailer) → step s = .next (popAgenda s))

/-- R177: ABORT in any phase gives PHASE = IDLE and ERR = NONE in the addressed context and leaves the output and the other
context alone. -/
def Obligations.AbortEndsThePass : Prop :=
  (∀ (s : State) (l : List Action), s.agenda = .host (.abort .dec) :: l →
    ∃ t, step s = .next t ∧ t.dec.phase = .idle ∧ t.dec.err = .none ∧ t.dst = s.dst ∧ t.enc = s.enc ∧ t.out = s.out) ∧
  (∀ (s : State) (l : List Action), s.agenda = .host (.abort .enc) :: l →
    ∃ t, step s = .next t ∧ t.enc.phase = .idle ∧ t.enc.err = .none ∧ t.out = s.out ∧ t.dec = s.dec ∧ t.dst = s.dst)

/-- R158, R163, R165: `io_fail` in a busy pass takes the error entry with ERR = IO and abandons the step: nothing but ERR, PHASE
and (DEC) ERR_POS = IPOS changes, IPOS at most moving forward, and the HDR registers at most to the header's bytes, where the
header step had taken all 14; in IDLE, DONE and ERROR it has no effect. Where in the step DEC stops, and that OUT has none of
the abandoned ENC step's bytes, is the model's choice (log 8). -/
def Obligations.IoFailTakesTheErrorEntry : Prop :=
  (∀ (s : State) (l : List Action), s.agenda = .host (.ioFail .dec) :: l →
    (s.dec.phase = .header ∨ s.dec.phase = .pixels ∨ s.dec.phase = .trailer) →
      ∃ t, step s = .next t ∧
        t.dec = { s.dec with
          ipos := t.dec.ipos, err := .io, errPos := t.dec.ipos, phase := .error,
          hdrWidth := t.dec.hdrWidth, hdrHeight := t.dec.hdrHeight, hdrChannels := t.dec.hdrChannels,
          hdrColorspace := t.dec.hdrColorspace } ∧
        t.dec.err.code = 3 ∧ s.dec.ipos ≤ t.dec.ipos ∧
        ((t.dec.hdrWidth = s.dec.hdrWidth ∧ t.dec.hdrHeight = s.dec.hdrHeight ∧ t.dec.hdrChannels = s.dec.hdrChannels ∧
            t.dec.hdrColorspace = s.dec.hdrColorspace) ∨
          (s.dec.phase = .header ∧ t.dec.ipos = 14 ∧ ∃ m rest, headerParts s.inp =
            some (m, t.dec.hdrWidth, t.dec.hdrHeight, t.dec.hdrChannels, t.dec.hdrColorspace, rest))) ∧
        t.dst = s.dst ∧ t.enc = s.enc ∧ t.out = s.out ∧ t.inp = s.inp ∧ t.inpEnded = s.inpEnded ∧ t.src = s.src ∧
        t.cfgIn = s.cfgIn ∧ t.pxoAccepted = s.pxoAccepted ∧ t.boAccepted = s.boAccepted ∧ t.agenda = l) ∧
  (∀ (s : State) (l : List Action), s.agenda = .host (.ioFail .enc) :: l →
    (s.enc.phase = .header ∨ s.enc.phase = .pixels ∨ s.enc.phase = .trailer) →
      step s = .next ((popAgenda s).setEnc { s.enc with err := .io, phase := .error })) ∧
  (∀ (s : State) (e : Engine) (l : List Action), s.agenda = .host (.ioFail e) :: l →
    (s.phaseOf e = .idle ∨ s.phaseOf e = .done ∨ s.phaseOf e = .error) → step s = .next (popAgenda s))

/-- R32: the status outputs: `busy` exactly in HEADER, PIXELS and TRAILER, `done` exactly in DONE, `error` exactly in ERROR.
R173: hardware reset: PHASE = IDLE, ERR = NONE, HDR_VALID = 0 and the three status outputs 0 in each context, in the state
after reset and after the reset input at any moment. -/
def Obligations.HardwareResetValues : Prop :=
  (∀ (s : State) (e : Engine),
    ((s.phaseOf e).busy = true ↔ s.phaseOf e = .header ∨ s.phaseOf e = .pixels ∨ s.phaseOf e = .trailer) ∧
    ((s.phaseOf e).isDone = true ↔ s.phaseOf e = .done) ∧ ((s.phaseOf e).isError = true ↔ s.phaseOf e = .error) ∧
    s.phaseOf .dec = s.dec.phase ∧ s.phaseOf .enc = s.enc.phase) ∧
  (State.reset.dec.phase = .idle ∧ State.reset.dec.err = .none ∧ State.reset.dec.hdrValid = false ∧
    State.reset.enc.phase = .idle ∧ State.reset.enc.err = .none ∧
    ∀ e, (State.reset.phaseOf e).busy = false ∧ (State.reset.phaseOf e).isDone = false ∧ (State.reset.phaseOf e).isError = false) ∧
  ∀ (s : State) (l : List Action), s.agenda = .host .hardReset :: l →
    ∃ t, step s = .next t ∧ t.dec.phase = .idle ∧ t.dec.err = .none ∧ t.dec.hdrValid = false ∧
      t.enc.phase = .idle ∧ t.enc.err = .none ∧
      ∀ e, (t.phaseOf e).busy = false ∧ (t.phaseOf e).isDone = false ∧ (t.phaseOf e).isError = false

/-- R178, R180, R40, R28: what each action of the host on a port changes, and that it changes nothing else. Bytes and the end of
stream count while a decode pass is busy and the end has not been given, pixels while an encode pass is busy and fewer than NPIX
have been offered; what is offered at another time is dropped (log 10). The ready flags and the CFG inputs are log 11.
The last-byte indication of BO goes with the fourth trailer byte and with no other. -/
def Obligations.HostPortsCarryWhatIsOffered : Prop :=
  (∀ (s : State) (b : Byte) (l : List Action), s.agenda = .host (.offerByte b) :: l →
    ((s.dec.phase = .header ∨ s.dec.phase = .pixels ∨ s.dec.phase = .trailer) → s.inpEnded = false →
      step s = .next { popAgenda s with inp := s.inp ++ [b] }) ∧
    ((s.dec.phase = .idle ∨ s.dec.phase = .done ∨ s.dec.phase = .error ∨ s.inpEnded = true) → step s = .next (popAgenda s))) ∧
  (∀ (s : State) (l : List Action), s.agenda = .host .endOfStream :: l →
    ((s.dec.phase = .header ∨ s.dec.phase = .pixels ∨ s.dec.phase = .trailer) →
      step s = .next { popAgenda s with inpEnded := true }) ∧
    ((s.dec.phase = .idle ∨ s.dec.phase = .done ∨ s.dec.phase = .error) → step s = .next (popAgenda s))) ∧
  (∀ (s : State) (p : Pixel) (l : List Action), s.agenda = .host (.offerPixel p) :: l →
    ((s.enc.phase = .header ∨ s.enc.phase = .pixels ∨ s.enc.phase = .trailer) → s.src.length < s.enc.npix →
      step s = .next { popAgenda s with src := s.src ++ [p] }) ∧
    ((s.enc.phase = .idle ∨ s.enc.phase = .done ∨ s.enc.phase = .error ∨ s.enc.npix ≤ s.src.length) →
      step s = .next (popAgenda s))) ∧
  (∀ (s : State) (c : Cfg) (l : List Action), s.agenda = .host (.driveCfg c) :: l →
    step s = .next { popAgenda s with cfgIn := c }) ∧
  (∀ (s : State) (b : Bool) (l : List Action), s.agenda = .host (.acceptPixels b) :: l →
    step s = .next { popAgenda s with pxoAccepted := b }) ∧
  (∀ (s : State) (b : Bool) (l : List Action), s.agenda = .host (.acceptBytes b) :: l →
    step s = .next { popAgenda s with boAccepted := b }) ∧
  (∀ s t : State, exec .trailer s = .next t → ∀ a, boLast t a = true ↔ a = s.enc.opos + 3) ∧
  (∀ (s : State) (a : Nat), s.enc.phase ≠ .done → boLast s a = false)

/-! ### Whole-machine rules -/

/-- R185: nothing but START, ABORT and reset changes the CFG values a pass uses, whatever the CFG inputs do. -/
def Obligations.ConfigurationIsSampledOnce : Prop :=
  ∀ s t : State, step s = .next t → (∀ a ∈ s.agenda.head?, resetsEnc a = false) →
    t.enc.cfg = s.enc.cfg ∧ t.enc.npix = s.enc.npix

/-- R13, R39: a turn of DEC leaves ENC, SRC, OUT and the encoder's ports alone, and a turn of ENC leaves DEC, IN, DST and the
decoder's ports alone. -/
def Obligations.EnginesTouchOnlyTheirOwn : Prop :=
  (∀ (s t : State) (l : List Action), s.agenda = .engine .dec :: l → step s = .next t → OnlyDecoder (popAgenda s) t) ∧
  (∀ (s t : State) (l : List Action), s.agenda = .engine .enc :: l → step s = .next t → OnlyEncoder (popAgenda s) t)

/-- R13, R53, R107, R129: what an engine's turn does depends on nothing outside its own context, spaces and ports: two states
that agree on those go to states that agree on them. -/
def Obligations.EnginesDependOnlyOnTheirOwn : Prop :=
  (∀ (s1 s2 t1 : State) (l1 l2 : List Action), s1.agenda = .engine .dec :: l1 → s2.agenda = .engine .dec :: l2 →
    SameDecoder s1 s2 → step s1 = .next t1 → ∃ t2, step s2 = .next t2 ∧ SameDecoder t1 t2) ∧
  (∀ (s1 s2 t1 : State) (l1 l2 : List Action), s1.agenda = .engine .enc :: l1 → s2.agenda = .engine .enc :: l2 →
    SameEncoder s1 s2 → step s1 = .next t1 → ∃ t2, step s2 = .next t2 ∧ SameEncoder t1 t2)

/-- R29: PHASE moves only as listed there, whatever happens in the step (the invariant rules out a decoder in TRAILER). -/
def Obligations.PhaseTransitions : Prop :=
  ∀ s t : State, Inv s → step s = .next t →
    decPhaseAllowed s.dec.phase t.dec.phase = true ∧ encPhaseAllowed s.enc.phase t.enc.phase = true

/-- R27: HDR_VALID is set by a header step that passes every check and by nothing else. That ABORT, after which R177 leaves it
unspecified, does not set it is the model's reading (DEDUCED, log 6). -/
def Obligations.HeaderValidSetOnlyByTheHeaderStep : Prop :=
  ∀ s t : State, step s = .next t → s.dec.hdrValid = false → t.dec.hdrValid = true →
    s.dec.phase = .header ∧ t.dec.phase = .pixels ∧ headerLegal t.dec.hdrWidth t.dec.hdrHeight t.dec.hdrChannels

/-- R19, R20, R22: but for START, ABORT and reset, IPOS, OPOS and PPOS never decrease (in DEC, from a state where HEADER means
IPOS = 0). -/
def Obligations.PositionsNeverDecrease : Prop :=
  ∀ s t : State, Inv s → step s = .next t →
    ((∀ a ∈ s.agenda.head?, resetsDec a = false) → s.dec.ipos ≤ t.dec.ipos ∧ s.dec.ppos ≤ t.dec.ppos) ∧
    ((∀ a ∈ s.agenda.head?, resetsEnc a = false) → s.enc.opos ≤ t.enc.opos ∧ s.enc.ppos ≤ t.enc.ppos)

/-- R41, R43, R50, R163: a byte of OUT or DST once written stays as it is, whatever happens, until START of a new pass empties
the space (that START empties DST is log 9, that reset keeps both spaces is log 17). -/
def Obligations.OutputIsNeverRetracted : Prop :=
  ∀ s t : State, Inv s → step s = .next t →
    ((∀ l, s.agenda ≠ .host (.start .enc) :: l) → ∀ a b, s.out.read a = some b → t.out.read a = some b) ∧
    ((∀ l, s.agenda ≠ .host (.start .dec) :: l) → ∀ a b, s.dst.read a = some b → t.dst.read a = some b)

/-- R57: but for START, ABORT and reset, a cache changes only by a Store of the new PREV. -/
def Obligations.CachesChangeOnlyByStore : Prop :=
  ∀ s t : State, step s = .next t →
    ((∀ a ∈ s.agenda.head?, resetsDec a = false) →
      t.dec.cache = s.dec.cache ∨ t.dec.cache = store s.dec.cache t.dec.prev) ∧
    ((∀ a ∈ s.agenda.head?, resetsEnc a = false) →
      t.enc.cache = s.enc.cache ∨ t.enc.cache = store s.enc.cache t.enc.prev)

/-! ### Invariants and progress -/

/-- The state after reset meets the invariant. -/
def Obligations.ResetMeetsTheInvariant : Prop := Inv State.reset

/-- Every step keeps the invariant (R15, R19 to R22, R27, R29, R30, R41, R43, R106, R110, R134, R147, R151, R155, R159, R172). -/
def Obligations.StepKeepsTheInvariant : Prop := ∀ s t : State, Inv s → step s = .next t → Inv t

/-- From a state that meets the invariant no step stops the machine. -/
def Obligations.InvariantStatesNeverStop : Prop := ∀ s : State, Inv s → ∃ t, step s = .next t

/-- OUT and DST keep their canonical form in every step, from any state where they have it. -/
def Obligations.StepKeepsMemoriesCanonical : Prop :=
  ∀ s t : State, s.out.wf = true → s.dst.wf = true → step s = .next t → t.out.wf = true ∧ t.dst.wf = true

/-- R188, R109: a decoder pixel step that does not wait raises, or emits exactly one pixel: the new PREV, at the old PPOS. -/
def Obligations.DecoderPixelStepProgresses : Prop :=
  ∀ (s : State) (l : List Action), s.agenda = .engine .dec :: l → s.dec.phase = .pixels → s.dec.ppos < s.dec.npix →
    s.pxoAccepted = true → s.inpEnded = true →
      ∃ t, step s = .next t ∧
        ((t.dec.phase = .error ∧ t.dec.err = .truncated ∧ t.dec.ppos = s.dec.ppos ∧ t.dst = s.dst) ∨
          (t.dec.ppos = s.dec.ppos + 1 ∧ t.dec.err = s.dec.err ∧ (t.dec.phase = .done ↔ s.dec.ppos + 1 = s.dec.npix) ∧
            t.dst.readPixel s.dec.ppos = some t.dec.prev ∧
            ∀ a, (a < pixelOffset s.dec.ppos ∨ pixelOffset s.dec.ppos + 4 ≤ a) → t.dst.read a = s.dst.read a))

/-! ### Whole passes -/

/-- R107, R187, R188: a decode pass over any finite stream ends, in DONE with every pixel emitted or in ERROR, after the header
step and at most NPIX pixel steps. -/
def Obligations.EveryDecodePassEnds : Prop :=
  ∀ (bytes : List Byte) (s : State), DecodeStart bytes s →
    ∃ n t, steps (n + 1) s = .next t ∧
      ((t.dec.phase = .done ∧ n = t.dec.npix ∧ t.dec.ppos = t.dec.npix) ∨
        (t.dec.phase = .error ∧ t.dec.err = .format ∧ n = 0 ∧ t.dec.ppos = 0 ∧ t.dst = []) ∨
        (t.dec.phase = .error ∧ t.dec.err = .truncated ∧ n ≤ t.dec.npix ∧ t.dec.ppos < t.dec.npix ∧ t.dec.errPos = bytes.length))

/-- R129, R151, R187: an encode pass over any image and any configuration ends in DONE after the header step, NPIX pixel steps
and the trailer step, with 18 to 14 + 5 * NPIX + 4 bytes in OUT, the last four of them 0. -/
def Obligations.EveryEncodePassEnds : Prop :=
  ∀ (cfg : Cfg) (img : List Pixel) (s : State), EncodeStart cfg img s →
    ∃ t, steps (img.length + 2) s = .next t ∧ t.enc.phase = .done ∧ t.enc.err = .none ∧ t.enc.ppos = img.length ∧
      t.out.bytes.length = t.enc.opos ∧ 18 ≤ t.enc.opos ∧ t.enc.opos ≤ 14 + 5 * img.length + 4 ∧
      t.out.bytes.drop (t.enc.opos - 4) = [0#8, 0#8, 0#8, 0#8]

/-- R153: round trip. Decoding what an encode pass has written gives the image back, pixel for pixel, and the four header
fields, and reads everything but the trailer. -/
def Obligations.DecodingAnEncodedImageGivesItBack : Prop :=
  ∀ (cfg : Cfg) (img : List Pixel) (s u : State), EncodeStart cfg img s → headerLegal cfg.width cfg.height cfg.channels →
    ∀ te : State, steps (img.length + 2) s = .next te → DecodeStart te.out.bytes u →
      ∃ td, steps (img.length + 1) u = .next td ∧ td.dec.phase = .done ∧
        td.dec.hdrWidth = cfg.width ∧ td.dec.hdrHeight = cfg.height ∧ td.dec.hdrChannels = cfg.channels ∧
        td.dec.hdrColorspace = cfg.colorspace ∧ td.dec.ipos + 4 = te.enc.opos ∧
        ∀ i, i < img.length → td.dst.readPixel i = img[i]?

/-- R100, items (1) to (4): after every pixel of an encode pass and of the decode pass over its output, PREV agrees, the caches
agree but possibly in slot 63, and every hit of the encoder's is a hit of the decoder's. -/
def Obligations.CachesStayCoherent : Prop :=
  ∀ (cfg : Cfg) (img : List Pixel) (s u : State), EncodeStart cfg img s → headerLegal cfg.width cfg.height cfg.channels →
    ∀ te : State, steps (img.length + 2) s = .next te → DecodeStart te.out.bytes u →
      ∀ k, k ≤ img.length → ∀ ek dk : State, steps (k + 1) s = .next ek → steps (k + 1) u = .next dk →
        cachesCoherent ek.enc dk.dec ∧
        ∀ p, lookup ek.enc.cache (slot p) = p → lookup dk.dec.cache (slot p) = p

/-- R124: an encoded stream cut anywhere after its header and before its last chunk byte fails with TruncatedStreamError at the
cut, never silently with a partial raster. -/
def Obligations.CutStreamsFailAsTruncated : Prop :=
  ∀ (cfg : Cfg) (img : List Pixel) (s u : State), EncodeStart cfg img s → headerLegal cfg.width cfg.height cfg.channels →
    ∀ (te : State) (n : Nat), steps (img.length + 2) s = .next te → 14 ≤ n → n + 4 < te.enc.opos →
      DecodeStart (te.out.bytes.take n) u →
        ∃ k td, steps k u = .next td ∧ k ≤ img.length + 1 ∧ td.dec.phase = .error ∧ td.dec.err = .truncated ∧ td.dec.errPos = n

/-- R152: an image of N pixels all equal to `{0,0,0,255}` encodes to floor(N / 8224) chunks `7F FF`, one chunk for the rest, and
nothing else between header and trailer. -/
def Obligations.OpaqueBlackImageIsRunChunks : Prop :=
  ∀ (cfg : Cfg) (n : Nat) (s : State), 1 ≤ n → EncodeStart cfg (List.replicate n ⟨0#8, 0#8, 0#8, 255#8⟩) s →
    ∃ t, steps (n + 2) s = .next t ∧ t.enc.phase = .done ∧
      (t.out.bytes.drop 14).take (t.enc.opos - 18) =
        (List.replicate (n / 8224) [0x7F#8, 0xFF#8]).flatten ++
          (if n % 8224 = 0 then []
            else if n % 8224 ≤ 32 then [BitVec.ofNat 8 (0x40 + (n % 8224 - 1))]
            else [BitVec.ofNat 8 (0x60 + (n % 8224 - 33) / 256), BitVec.ofNat 8 ((n % 8224 - 33) % 256)])
end

