-- ==== Sys2Proof/Laws/Bits.lean ====
section
/-! SUPPORT. Bit fields, tags, the cache and the channel arithmetic as natural-number arithmetic. -/

namespace Sys2Proof

theorem field_toNat {n : Nat} (v : BitVec n) (lo w : Nat) : (field v lo w).toNat = v.toNat / 2 ^ lo % 2 ^ w := by
  simp [field, BitVec.extractLsb'_toNat, Nat.shiftRight_eq_div_pow]

theorem join_toNat {m n k : Nat} (a : BitVec m) (b : BitVec n) (hk : k = m + n) :
    (join k a b).toNat = a.toNat * 2 ^ n + b.toNat := by
  subst hk
  simp only [join, BitVec.setWidth_eq, BitVec.toNat_append]
  rw [Nat.shiftLeft_eq, Nat.mul_comm, ← Nat.two_pow_add_eq_or_of_lt b.isLt]

/-- A header integer from its bytes, as a sum (R46). -/
theorem wordOfBytes_toNat (b3 b2 b1 b0 : Byte) :
    (wordOfBytes b3 b2 b1 b0).toNat = b3.toNat * 2 ^ 24 + b2.toNat * 2 ^ 16 + b1.toNat * 2 ^ 8 + b0.toNat := by
  simp only [wordOfBytes]
  rw [join_toNat _ _ rfl, join_toNat _ _ rfl, join_toNat _ _ rfl]
  omega

namespace Machine

theorem slot_toNat (p : Pixel) : (slot p).toNat = (pixelHash p).toNat % 64 := by
  simp [slot, field_toNat]

theorem lookup_store (c : Cache) (p : Pixel) (i : BitVec 6) :
    lookup (store c p) i = if slot p = i then p else lookup c i := by
  simp [lookup, store, Vector.getElem_set, BitVec.toNat_inj]

theorem lookup_store_same (c : Cache) (p : Pixel) : lookup (store c p) (slot p) = p := by
  simp [lookup_store]

theorem lookup_store_other (c : Cache) (p : Pixel) (i : BitVec 6) (h : i ≠ slot p) :
    lookup (store c p) i = lookup c i := by
  simp [lookup_store, Ne.symm h]

theorem lookup_zeroCache (i : BitVec 6) : lookup zeroCache i = zeroPixel := by
  simp [lookup, zeroCache]

/-- Two caches are equal when every slot is. -/
theorem cache_ext {c d : Cache} (h : ∀ i : BitVec 6, lookup c i = lookup d i) : c = d := by
  apply Vector.ext
  intro i hi
  have := h (BitVec.ofNat 6 i)
  simpa [lookup, Nat.mod_eq_of_lt hi] using this

theorem add8_toNat (x : Byte) (d : Int) : ((add8 x d).toNat : Int) = ((x.toNat : Int) + d) % 256 := by
  have : (0 : Int) ≤ ((x.toNat : Int) + d) % 256 := Int.emod_nonneg _ (by decide)
  simp [add8, BitVec.toNat_ofInt, Int.toNat_of_nonneg this]

theorem rebias_toNat (w : Nat) (bias d : Int) (h : 0 ≤ d + bias) (h' : d + bias < 2 ^ w) :
    ((rebias w bias d).toNat : Int) = d + bias := by
  have hmod : (d + bias) % 2 ^ w = d + bias := Int.emod_eq_of_lt h h'
  simp [rebias, BitVec.toNat_ofInt, hmod, Int.toNat_of_nonneg h]

theorem inRange_iff (lo hi d : Int) : inRange lo hi d = true ↔ lo ≤ d ∧ d ≤ hi := by
  simp [inRange]

theorem runNonzero_iff (run : BitVec 14) : runNonzero run = true ↔ run ≠ 0#14 := by
  simp [runNonzero]

theorem eqPrev_iff (e : EncCtx) (p : Pixel) : eqPrev e p = true ↔ p = e.prev := by
  simp [eqPrev]

theorem hit_iff (c : Cache) (p : Pixel) : hit c p = true ↔ lookup c (slot p) = p := by
  simp [hit]

end Machine

end Sys2Proof
end

