-- ==== Sys2Proof/Laws/Memory.lean ====
section
/-! SUPPORT. What the memory operations do: read after write, the canonical form kept, appending at the end. -/

namespace Sys2Proof.Machine

theorem Memory.read_write_same (m : Memory) (a : Nat) (v : Byte) : (m.write a v).read a = some v := by
  induction m with
  | nil => simp [Memory.write, Memory.read]
  | cons c m ih =>
    obtain ⟨b, x⟩ := c
    simp only [Memory.write]
    split
    · simp [Memory.read]
    · split
      · simp [Memory.read]
      · simp [Memory.read, *]

theorem Memory.read_write_other (m : Memory) (a b : Nat) (v : Byte) (h : a ≠ b) : (m.write b v).read a = m.read a := by
  induction m with
  | nil => simp [Memory.write, Memory.read, h]
  | cons c m ih =>
    obtain ⟨k, x⟩ := c
    simp only [Memory.write]
    split
    · simp [Memory.read, h]
    · split
      · rename_i hb
        subst hb
        simp [Memory.read, h]
      · simp [Memory.read, ih]

/-- A write leaves every byte outside the stored bytes as it was. -/
theorem Memory.read_writeBytes_outside (vs : List Byte) :
    ∀ (m : Memory) (b a : Nat), (a < b ∨ b + vs.length ≤ a) → (m.writeBytes b vs).read a = m.read a := by
  induction vs with
  | nil => intro m b a _; rfl
  | cons v vs ih =>
    intro m b a h
    simp only [Memory.writeBytes, List.length_cons] at *
    rw [ih _ _ _ (by omega), Memory.read_write_other _ _ _ _ (by omega)]

/-- The stored bytes read back. -/
theorem Memory.read_writeBytes_inside (vs : List Byte) :
    ∀ (m : Memory) (b i : Nat), i < vs.length → (m.writeBytes b vs).read (b + i) = vs[i]? := by
  induction vs with
  | nil => intro m b i h; simp at h
  | cons v vs ih =>
    intro m b i h
    cases i with
    | zero =>
      simp only [Memory.writeBytes, Nat.add_zero, List.getElem?_cons_zero]
      rw [Memory.read_writeBytes_outside _ _ _ _ (by omega), Memory.read_write_same]
    | succ i =>
      simp only [Memory.writeBytes, List.getElem?_cons_succ]
      rw [← ih (m.write b v) (b + 1) i (by simpa using h)]
      congr 1
      omega

/-- Every entry of a canonical memory after the first lies above it. -/
theorem Memory.wf_cons_iff (a : Nat) (x : Byte) (m : Memory) :
    Memory.wf ((a, x) :: m) = true ↔ (∀ c ∈ m, a < c.1) ∧ Memory.wf m = true := by
  induction m generalizing a x with
  | nil => simp [Memory.wf]
  | cons c m ih =>
    obtain ⟨b, y⟩ := c
    simp only [Memory.wf, Bool.and_eq_true, decide_eq_true_eq]
    rw [ih b y]
    constructor
    · rintro ⟨hab, hm, hwf⟩
      refine ⟨?_, hm, hwf⟩
      intro c hc
      rcases List.mem_cons.mp hc with rfl | hc
      · exact hab
      · exact Nat.lt_trans hab (hm c hc)
    · rintro ⟨hall, hm, hwf⟩
      exact ⟨hall (b, y) (by simp), hm, hwf⟩

theorem Memory.mem_write (m : Memory) (a : Nat) (v : Byte) (c : Host.Cell) (h : c ∈ m.write a v) : c = (a, v) ∨ c ∈ m := by
  induction m with
  | nil => simpa [Memory.write] using h
  | cons d m ih =>
    obtain ⟨b, x⟩ := d
    simp only [Memory.write] at h
    split at h
    · simpa using h
    · split at h
      · rcases List.mem_cons.mp h with h | h
        · exact .inl h
        · exact .inr (List.mem_cons_of_mem _ h)
      · rcases List.mem_cons.mp h with h | h
        · exact .inr (by simp [h])
        · rcases ih h with h | h
          · exact .inl h
          · exact .inr (List.mem_cons_of_mem _ h)

/-- A write keeps the canonical form. -/
theorem Memory.wf_write (m : Memory) (a : Nat) (v : Byte) (h : m.wf = true) : (m.write a v).wf = true := by
  induction m with
  | nil => rfl
  | cons c m ih =>
    obtain ⟨b, x⟩ := c
    have hb := (Memory.wf_cons_iff b x m).mp h
    simp only [Memory.write]
    split
    · rename_i hab
      refine (Memory.wf_cons_iff _ _ _).mpr ⟨?_, h⟩
      intro d hd
      rcases List.mem_cons.mp hd with rfl | hd
      · exact hab
      · exact Nat.lt_trans hab (hb.1 d hd)
    · split
      · rename_i hab
        subst hab
        exact (Memory.wf_cons_iff _ _ _).mpr hb
      · refine (Memory.wf_cons_iff _ _ _).mpr ⟨?_, ih hb.2⟩
        intro d hd
        rcases Memory.mem_write _ _ _ _ hd with rfl | hd
        · simp only
          omega
        · exact hb.1 d hd

theorem Memory.wf_writeBytes (vs : List Byte) :
    ∀ (m : Memory) (a : Nat), m.wf = true → (m.writeBytes a vs).wf = true := by
  induction vs with
  | nil => intro m a h; exact h
  | cons v vs ih => intro m a h; exact ih _ _ (Memory.wf_write _ _ _ h)

theorem Memory.wf_writePixel (m : Memory) (i : Nat) (p : Pixel) (h : m.wf = true) : (m.writePixel i p).wf = true :=
  Memory.wf_writeBytes _ _ _ h

theorem Memory.wf_reset : State.reset.out.wf = true ∧ State.reset.dst.wf = true := by decide

/-- A write above every listed offset appends. -/
theorem Memory.write_append (m : Memory) (a : Nat) (v : Byte) (h : ∀ c ∈ m, c.1 < a) : m.write a v = m ++ [(a, v)] := by
  induction m with
  | nil => rfl
  | cons c m ih =>
    obtain ⟨b, x⟩ := c
    have hb : b < a := h (b, x) (by simp)
    simp only [Memory.write]
    rw [if_neg (by omega), if_neg (by omega), ih (fun c hc => h c (List.mem_cons_of_mem _ hc))]
    rfl

/-- The pixel just written reads back. -/
theorem Memory.readPixel_writePixel (m : Memory) (i : Nat) (p : Pixel) : (m.writePixel i p).readPixel i = some p := by
  have h := Memory.read_writeBytes_inside (pixelBytes p) m (pixelOffset i)
  have h0 := h 0 (by simp [pixelBytes])
  have h1 := h 1 (by simp [pixelBytes])
  have h2 := h 2 (by simp [pixelBytes])
  have h3 := h 3 (by simp [pixelBytes])
  simp only [Nat.add_zero] at h0
  unfold Memory.readPixel Memory.writePixel
  rw [h0, h1, h2, h3]
  rfl

/-- The pixel's four bytes are the only ones a pixel write changes. -/
theorem Memory.read_writePixel_outside (m : Memory) (i a : Nat) (p : Pixel)
    (h : a < pixelOffset i ∨ pixelOffset i + 4 ≤ a) : (m.writePixel i p).read a = m.read a :=
  Memory.read_writeBytes_outside _ _ _ _ (by simpa [pixelBytes] using h)

end Sys2Proof.Machine
end

