-- ==== Sys2Proof/Laws/State.lean ====
section
/-! SUPPORT. One lemma per field per whole-field update of State: what the update writes and what it leaves. -/

namespace Sys2Proof.Machine

@[simp] theorem State.setDec_dec (s : State) (d : DecCtx) : (s.setDec d).dec = d := rfl
@[simp] theorem State.setDec_enc (s : State) (d : DecCtx) : (s.setDec d).enc = s.enc := rfl
@[simp] theorem State.setDec_inp (s : State) (d : DecCtx) : (s.setDec d).inp = s.inp := rfl
@[simp] theorem State.setDec_inpEnded (s : State) (d : DecCtx) : (s.setDec d).inpEnded = s.inpEnded := rfl
@[simp] theorem State.setDec_dst (s : State) (d : DecCtx) : (s.setDec d).dst = s.dst := rfl
@[simp] theorem State.setDec_src (s : State) (d : DecCtx) : (s.setDec d).src = s.src := rfl
@[simp] theorem State.setDec_out (s : State) (d : DecCtx) : (s.setDec d).out = s.out := rfl
@[simp] theorem State.setDec_cfgIn (s : State) (d : DecCtx) : (s.setDec d).cfgIn = s.cfgIn := rfl
@[simp] theorem State.setDec_pxoAccepted (s : State) (d : DecCtx) : (s.setDec d).pxoAccepted = s.pxoAccepted := rfl
@[simp] theorem State.setDec_boAccepted (s : State) (d : DecCtx) : (s.setDec d).boAccepted = s.boAccepted := rfl
@[simp] theorem State.setDec_agenda (s : State) (d : DecCtx) : (s.setDec d).agenda = s.agenda := rfl
@[simp] theorem State.setDec_freeCount (s : State) (d : DecCtx) : (s.setDec d).freeCount = s.freeCount := rfl

@[simp] theorem State.setEnc_dec (s : State) (e : EncCtx) : (s.setEnc e).dec = s.dec := rfl
@[simp] theorem State.setEnc_enc (s : State) (e : EncCtx) : (s.setEnc e).enc = e := rfl
@[simp] theorem State.setEnc_inp (s : State) (e : EncCtx) : (s.setEnc e).inp = s.inp := rfl
@[simp] theorem State.setEnc_inpEnded (s : State) (e : EncCtx) : (s.setEnc e).inpEnded = s.inpEnded := rfl
@[simp] theorem State.setEnc_dst (s : State) (e : EncCtx) : (s.setEnc e).dst = s.dst := rfl
@[simp] theorem State.setEnc_src (s : State) (e : EncCtx) : (s.setEnc e).src = s.src := rfl
@[simp] theorem State.setEnc_out (s : State) (e : EncCtx) : (s.setEnc e).out = s.out := rfl
@[simp] theorem State.setEnc_cfgIn (s : State) (e : EncCtx) : (s.setEnc e).cfgIn = s.cfgIn := rfl
@[simp] theorem State.setEnc_pxoAccepted (s : State) (e : EncCtx) : (s.setEnc e).pxoAccepted = s.pxoAccepted := rfl
@[simp] theorem State.setEnc_boAccepted (s : State) (e : EncCtx) : (s.setEnc e).boAccepted = s.boAccepted := rfl
@[simp] theorem State.setEnc_agenda (s : State) (e : EncCtx) : (s.setEnc e).agenda = s.agenda := rfl
@[simp] theorem State.setEnc_freeCount (s : State) (e : EncCtx) : (s.setEnc e).freeCount = s.freeCount := rfl

@[simp] theorem State.setInp_dec (s : State) (v : List Byte) : (s.setInp v).dec = s.dec := rfl
@[simp] theorem State.setInp_enc (s : State) (v : List Byte) : (s.setInp v).enc = s.enc := rfl
@[simp] theorem State.setInp_inp (s : State) (v : List Byte) : (s.setInp v).inp = v := rfl
@[simp] theorem State.setInp_inpEnded (s : State) (v : List Byte) : (s.setInp v).inpEnded = s.inpEnded := rfl
@[simp] theorem State.setInp_dst (s : State) (v : List Byte) : (s.setInp v).dst = s.dst := rfl
@[simp] theorem State.setInp_src (s : State) (v : List Byte) : (s.setInp v).src = s.src := rfl
@[simp] theorem State.setInp_out (s : State) (v : List Byte) : (s.setInp v).out = s.out := rfl
@[simp] theorem State.setInp_cfgIn (s : State) (v : List Byte) : (s.setInp v).cfgIn = s.cfgIn := rfl
@[simp] theorem State.setInp_pxoAccepted (s : State) (v : List Byte) : (s.setInp v).pxoAccepted = s.pxoAccepted := rfl
@[simp] theorem State.setInp_boAccepted (s : State) (v : List Byte) : (s.setInp v).boAccepted = s.boAccepted := rfl
@[simp] theorem State.setInp_agenda (s : State) (v : List Byte) : (s.setInp v).agenda = s.agenda := rfl
@[simp] theorem State.setInp_freeCount (s : State) (v : List Byte) : (s.setInp v).freeCount = s.freeCount := rfl

@[simp] theorem State.setInpEnded_dec (s : State) (v : Bool) : (s.setInpEnded v).dec = s.dec := rfl
@[simp] theorem State.setInpEnded_enc (s : State) (v : Bool) : (s.setInpEnded v).enc = s.enc := rfl
@[simp] theorem State.setInpEnded_inp (s : State) (v : Bool) : (s.setInpEnded v).inp = s.inp := rfl
@[simp] theorem State.setInpEnded_inpEnded (s : State) (v : Bool) : (s.setInpEnded v).inpEnded = v := rfl
@[simp] theorem State.setInpEnded_dst (s : State) (v : Bool) : (s.setInpEnded v).dst = s.dst := rfl
@[simp] theorem State.setInpEnded_src (s : State) (v : Bool) : (s.setInpEnded v).src = s.src := rfl
@[simp] theorem State.setInpEnded_out (s : State) (v : Bool) : (s.setInpEnded v).out = s.out := rfl
@[simp] theorem State.setInpEnded_cfgIn (s : State) (v : Bool) : (s.setInpEnded v).cfgIn = s.cfgIn := rfl
@[simp] theorem State.setInpEnded_pxoAccepted (s : State) (v : Bool) : (s.setInpEnded v).pxoAccepted = s.pxoAccepted := rfl
@[simp] theorem State.setInpEnded_boAccepted (s : State) (v : Bool) : (s.setInpEnded v).boAccepted = s.boAccepted := rfl
@[simp] theorem State.setInpEnded_agenda (s : State) (v : Bool) : (s.setInpEnded v).agenda = s.agenda := rfl
@[simp] theorem State.setInpEnded_freeCount (s : State) (v : Bool) : (s.setInpEnded v).freeCount = s.freeCount := rfl

@[simp] theorem State.setDst_dec (s : State) (v : Memory) : (s.setDst v).dec = s.dec := rfl
@[simp] theorem State.setDst_enc (s : State) (v : Memory) : (s.setDst v).enc = s.enc := rfl
@[simp] theorem State.setDst_inp (s : State) (v : Memory) : (s.setDst v).inp = s.inp := rfl
@[simp] theorem State.setDst_inpEnded (s : State) (v : Memory) : (s.setDst v).inpEnded = s.inpEnded := rfl
@[simp] theorem State.setDst_dst (s : State) (v : Memory) : (s.setDst v).dst = v := rfl
@[simp] theorem State.setDst_src (s : State) (v : Memory) : (s.setDst v).src = s.src := rfl
@[simp] theorem State.setDst_out (s : State) (v : Memory) : (s.setDst v).out = s.out := rfl
@[simp] theorem State.setDst_cfgIn (s : State) (v : Memory) : (s.setDst v).cfgIn = s.cfgIn := rfl
@[simp] theorem State.setDst_pxoAccepted (s : State) (v : Memory) : (s.setDst v).pxoAccepted = s.pxoAccepted := rfl
@[simp] theorem State.setDst_boAccepted (s : State) (v : Memory) : (s.setDst v).boAccepted = s.boAccepted := rfl
@[simp] theorem State.setDst_agenda (s : State) (v : Memory) : (s.setDst v).agenda = s.agenda := rfl
@[simp] theorem State.setDst_freeCount (s : State) (v : Memory) : (s.setDst v).freeCount = s.freeCount := rfl

@[simp] theorem State.setSrc_dec (s : State) (v : List Pixel) : (s.setSrc v).dec = s.dec := rfl
@[simp] theorem State.setSrc_enc (s : State) (v : List Pixel) : (s.setSrc v).enc = s.enc := rfl
@[simp] theorem State.setSrc_inp (s : State) (v : List Pixel) : (s.setSrc v).inp = s.inp := rfl
@[simp] theorem State.setSrc_inpEnded (s : State) (v : List Pixel) : (s.setSrc v).inpEnded = s.inpEnded := rfl
@[simp] theorem State.setSrc_dst (s : State) (v : List Pixel) : (s.setSrc v).dst = s.dst := rfl
@[simp] theorem State.setSrc_src (s : State) (v : List Pixel) : (s.setSrc v).src = v := rfl
@[simp] theorem State.setSrc_out (s : State) (v : List Pixel) : (s.setSrc v).out = s.out := rfl
@[simp] theorem State.setSrc_cfgIn (s : State) (v : List Pixel) : (s.setSrc v).cfgIn = s.cfgIn := rfl
@[simp] theorem State.setSrc_pxoAccepted (s : State) (v : List Pixel) : (s.setSrc v).pxoAccepted = s.pxoAccepted := rfl
@[simp] theorem State.setSrc_boAccepted (s : State) (v : List Pixel) : (s.setSrc v).boAccepted = s.boAccepted := rfl
@[simp] theorem State.setSrc_agenda (s : State) (v : List Pixel) : (s.setSrc v).agenda = s.agenda := rfl
@[simp] theorem State.setSrc_freeCount (s : State) (v : List Pixel) : (s.setSrc v).freeCount = s.freeCount := rfl

@[simp] theorem State.setOut_dec (s : State) (v : Memory) : (s.setOut v).dec = s.dec := rfl
@[simp] theorem State.setOut_enc (s : State) (v : Memory) : (s.setOut v).enc = s.enc := rfl
@[simp] theorem State.setOut_inp (s : State) (v : Memory) : (s.setOut v).inp = s.inp := rfl
@[simp] theorem State.setOut_inpEnded (s : State) (v : Memory) : (s.setOut v).inpEnded = s.inpEnded := rfl
@[simp] theorem State.setOut_dst (s : State) (v : Memory) : (s.setOut v).dst = s.dst := rfl
@[simp] theorem State.setOut_src (s : State) (v : Memory) : (s.setOut v).src = s.src := rfl
@[simp] theorem State.setOut_out (s : State) (v : Memory) : (s.setOut v).out = v := rfl
@[simp] theorem State.setOut_cfgIn (s : State) (v : Memory) : (s.setOut v).cfgIn = s.cfgIn := rfl
@[simp] theorem State.setOut_pxoAccepted (s : State) (v : Memory) : (s.setOut v).pxoAccepted = s.pxoAccepted := rfl
@[simp] theorem State.setOut_boAccepted (s : State) (v : Memory) : (s.setOut v).boAccepted = s.boAccepted := rfl
@[simp] theorem State.setOut_agenda (s : State) (v : Memory) : (s.setOut v).agenda = s.agenda := rfl
@[simp] theorem State.setOut_freeCount (s : State) (v : Memory) : (s.setOut v).freeCount = s.freeCount := rfl

@[simp] theorem State.setCfgIn_dec (s : State) (v : Cfg) : (s.setCfgIn v).dec = s.dec := rfl
@[simp] theorem State.setCfgIn_enc (s : State) (v : Cfg) : (s.setCfgIn v).enc = s.enc := rfl
@[simp] theorem State.setCfgIn_inp (s : State) (v : Cfg) : (s.setCfgIn v).inp = s.inp := rfl
@[simp] theorem State.setCfgIn_inpEnded (s : State) (v : Cfg) : (s.setCfgIn v).inpEnded = s.inpEnded := rfl
@[simp] theorem State.setCfgIn_dst (s : State) (v : Cfg) : (s.setCfgIn v).dst = s.dst := rfl
@[simp] theorem State.setCfgIn_src (s : State) (v : Cfg) : (s.setCfgIn v).src = s.src := rfl
@[simp] theorem State.setCfgIn_out (s : State) (v : Cfg) : (s.setCfgIn v).out = s.out := rfl
@[simp] theorem State.setCfgIn_cfgIn (s : State) (v : Cfg) : (s.setCfgIn v).cfgIn = v := rfl
@[simp] theorem State.setCfgIn_pxoAccepted (s : State) (v : Cfg) : (s.setCfgIn v).pxoAccepted = s.pxoAccepted := rfl
@[simp] theorem State.setCfgIn_boAccepted (s : State) (v : Cfg) : (s.setCfgIn v).boAccepted = s.boAccepted := rfl
@[simp] theorem State.setCfgIn_agenda (s : State) (v : Cfg) : (s.setCfgIn v).agenda = s.agenda := rfl
@[simp] theorem State.setCfgIn_freeCount (s : State) (v : Cfg) : (s.setCfgIn v).freeCount = s.freeCount := rfl

@[simp] theorem State.setPxo_dec (s : State) (v : Bool) : (s.setPxo v).dec = s.dec := rfl
@[simp] theorem State.setPxo_enc (s : State) (v : Bool) : (s.setPxo v).enc = s.enc := rfl
@[simp] theorem State.setPxo_inp (s : State) (v : Bool) : (s.setPxo v).inp = s.inp := rfl
@[simp] theorem State.setPxo_inpEnded (s : State) (v : Bool) : (s.setPxo v).inpEnded = s.inpEnded := rfl
@[simp] theorem State.setPxo_dst (s : State) (v : Bool) : (s.setPxo v).dst = s.dst := rfl
@[simp] theorem State.setPxo_src (s : State) (v : Bool) : (s.setPxo v).src = s.src := rfl
@[simp] theorem State.setPxo_out (s : State) (v : Bool) : (s.setPxo v).out = s.out := rfl
@[simp] theorem State.setPxo_cfgIn (s : State) (v : Bool) : (s.setPxo v).cfgIn = s.cfgIn := rfl
@[simp] theorem State.setPxo_pxoAccepted (s : State) (v : Bool) : (s.setPxo v).pxoAccepted = v := rfl
@[simp] theorem State.setPxo_boAccepted (s : State) (v : Bool) : (s.setPxo v).boAccepted = s.boAccepted := rfl
@[simp] theorem State.setPxo_agenda (s : State) (v : Bool) : (s.setPxo v).agenda = s.agenda := rfl
@[simp] theorem State.setPxo_freeCount (s : State) (v : Bool) : (s.setPxo v).freeCount = s.freeCount := rfl

@[simp] theorem State.setBo_dec (s : State) (v : Bool) : (s.setBo v).dec = s.dec := rfl
@[simp] theorem State.setBo_enc (s : State) (v : Bool) : (s.setBo v).enc = s.enc := rfl
@[simp] theorem State.setBo_inp (s : State) (v : Bool) : (s.setBo v).inp = s.inp := rfl
@[simp] theorem State.setBo_inpEnded (s : State) (v : Bool) : (s.setBo v).inpEnded = s.inpEnded := rfl
@[simp] theorem State.setBo_dst (s : State) (v : Bool) : (s.setBo v).dst = s.dst := rfl
@[simp] theorem State.setBo_src (s : State) (v : Bool) : (s.setBo v).src = s.src := rfl
@[simp] theorem State.setBo_out (s : State) (v : Bool) : (s.setBo v).out = s.out := rfl
@[simp] theorem State.setBo_cfgIn (s : State) (v : Bool) : (s.setBo v).cfgIn = s.cfgIn := rfl
@[simp] theorem State.setBo_pxoAccepted (s : State) (v : Bool) : (s.setBo v).pxoAccepted = s.pxoAccepted := rfl
@[simp] theorem State.setBo_boAccepted (s : State) (v : Bool) : (s.setBo v).boAccepted = v := rfl
@[simp] theorem State.setBo_agenda (s : State) (v : Bool) : (s.setBo v).agenda = s.agenda := rfl
@[simp] theorem State.setBo_freeCount (s : State) (v : Bool) : (s.setBo v).freeCount = s.freeCount := rfl

@[simp] theorem State.setAgenda_dec (s : State) (v : List Action) : (s.setAgenda v).dec = s.dec := rfl
@[simp] theorem State.setAgenda_enc (s : State) (v : List Action) : (s.setAgenda v).enc = s.enc := rfl
@[simp] theorem State.setAgenda_inp (s : State) (v : List Action) : (s.setAgenda v).inp = s.inp := rfl
@[simp] theorem State.setAgenda_inpEnded (s : State) (v : List Action) : (s.setAgenda v).inpEnded = s.inpEnded := rfl
@[simp] theorem State.setAgenda_dst (s : State) (v : List Action) : (s.setAgenda v).dst = s.dst := rfl
@[simp] theorem State.setAgenda_src (s : State) (v : List Action) : (s.setAgenda v).src = s.src := rfl
@[simp] theorem State.setAgenda_out (s : State) (v : List Action) : (s.setAgenda v).out = s.out := rfl
@[simp] theorem State.setAgenda_cfgIn (s : State) (v : List Action) : (s.setAgenda v).cfgIn = s.cfgIn := rfl
@[simp] theorem State.setAgenda_pxoAccepted (s : State) (v : List Action) : (s.setAgenda v).pxoAccepted = s.pxoAccepted := rfl
@[simp] theorem State.setAgenda_boAccepted (s : State) (v : List Action) : (s.setAgenda v).boAccepted = s.boAccepted := rfl
@[simp] theorem State.setAgenda_agenda (s : State) (v : List Action) : (s.setAgenda v).agenda = v := rfl
@[simp] theorem State.setAgenda_freeCount (s : State) (v : List Action) : (s.setAgenda v).freeCount = s.freeCount := rfl

@[simp] theorem State.setFreeCount_dec (s : State) (v : Nat) : (s.setFreeCount v).dec = s.dec := rfl
@[simp] theorem State.setFreeCount_enc (s : State) (v : Nat) : (s.setFreeCount v).enc = s.enc := rfl
@[simp] theorem State.setFreeCount_inp (s : State) (v : Nat) : (s.setFreeCount v).inp = s.inp := rfl
@[simp] theorem State.setFreeCount_inpEnded (s : State) (v : Nat) : (s.setFreeCount v).inpEnded = s.inpEnded := rfl
@[simp] theorem State.setFreeCount_dst (s : State) (v : Nat) : (s.setFreeCount v).dst = s.dst := rfl
@[simp] theorem State.setFreeCount_src (s : State) (v : Nat) : (s.setFreeCount v).src = s.src := rfl
@[simp] theorem State.setFreeCount_out (s : State) (v : Nat) : (s.setFreeCount v).out = s.out := rfl
@[simp] theorem State.setFreeCount_cfgIn (s : State) (v : Nat) : (s.setFreeCount v).cfgIn = s.cfgIn := rfl
@[simp] theorem State.setFreeCount_pxoAccepted (s : State) (v : Nat) : (s.setFreeCount v).pxoAccepted = s.pxoAccepted := rfl
@[simp] theorem State.setFreeCount_boAccepted (s : State) (v : Nat) : (s.setFreeCount v).boAccepted = s.boAccepted := rfl
@[simp] theorem State.setFreeCount_agenda (s : State) (v : Nat) : (s.setFreeCount v).agenda = s.agenda := rfl
@[simp] theorem State.setFreeCount_freeCount (s : State) (v : Nat) : (s.setFreeCount v).freeCount = v := rfl

@[simp] theorem State.setDec_self (s : State) : s.setDec s.dec = s := rfl
@[simp] theorem State.setDec_setDec (s : State) (x y : DecCtx) : (s.setDec x).setDec y = s.setDec y := rfl
@[simp] theorem State.setEnc_self (s : State) : s.setEnc s.enc = s := rfl
@[simp] theorem State.setEnc_setEnc (s : State) (x y : EncCtx) : (s.setEnc x).setEnc y = s.setEnc y := rfl
@[simp] theorem State.setInp_self (s : State) : s.setInp s.inp = s := rfl
@[simp] theorem State.setInp_setInp (s : State) (x y : List Byte) : (s.setInp x).setInp y = s.setInp y := rfl
@[simp] theorem State.setInpEnded_self (s : State) : s.setInpEnded s.inpEnded = s := rfl
@[simp] theorem State.setInpEnded_setInpEnded (s : State) (x y : Bool) : (s.setInpEnded x).setInpEnded y = s.setInpEnded y := rfl
@[simp] theorem State.setDst_self (s : State) : s.setDst s.dst = s := rfl
@[simp] theorem State.setDst_setDst (s : State) (x y : Memory) : (s.setDst x).setDst y = s.setDst y := rfl
@[simp] theorem State.setSrc_self (s : State) : s.setSrc s.src = s := rfl
@[simp] theorem State.setSrc_setSrc (s : State) (x y : List Pixel) : (s.setSrc x).setSrc y = s.setSrc y := rfl
@[simp] theorem State.setOut_self (s : State) : s.setOut s.out = s := rfl
@[simp] theorem State.setOut_setOut (s : State) (x y : Memory) : (s.setOut x).setOut y = s.setOut y := rfl
@[simp] theorem State.setCfgIn_self (s : State) : s.setCfgIn s.cfgIn = s := rfl
@[simp] theorem State.setCfgIn_setCfgIn (s : State) (x y : Cfg) : (s.setCfgIn x).setCfgIn y = s.setCfgIn y := rfl
@[simp] theorem State.setPxo_self (s : State) : s.setPxo s.pxoAccepted = s := rfl
@[simp] theorem State.setPxo_setPxo (s : State) (x y : Bool) : (s.setPxo x).setPxo y = s.setPxo y := rfl
@[simp] theorem State.setBo_self (s : State) : s.setBo s.boAccepted = s := rfl
@[simp] theorem State.setBo_setBo (s : State) (x y : Bool) : (s.setBo x).setBo y = s.setBo y := rfl
@[simp] theorem State.setAgenda_self (s : State) : s.setAgenda s.agenda = s := rfl
@[simp] theorem State.setAgenda_setAgenda (s : State) (x y : List Action) : (s.setAgenda x).setAgenda y = s.setAgenda y := rfl
@[simp] theorem State.setFreeCount_self (s : State) : s.setFreeCount s.freeCount = s := rfl
@[simp] theorem State.setFreeCount_setFreeCount (s : State) (x y : Nat) : (s.setFreeCount x).setFreeCount y = s.setFreeCount y := rfl

/-- Two states are equal when every field is. -/
theorem State.ext_fields {s t : State} (hdec : s.dec = t.dec) (henc : s.enc = t.enc) (hinp : s.inp = t.inp)
    (hended : s.inpEnded = t.inpEnded) (hdst : s.dst = t.dst) (hsrc : s.src = t.src) (hout : s.out = t.out)
    (hcfg : s.cfgIn = t.cfgIn) (hpxo : s.pxoAccepted = t.pxoAccepted) (hbo : s.boAccepted = t.boAccepted)
    (hagenda : s.agenda = t.agenda) (hfree : s.freeCount = t.freeCount) : s = t := by
  cases s
  cases t
  simp_all

end Sys2Proof.Machine
end

