-- ==== Sys2Proof/Laws/Ops.lean ====
section
/-! SUPPORT. What each shared operation can do, said once. -/

namespace Sys2Proof.Machine

/-! ### Error entry -/

@[simp] theorem raiseDec_dec (k : ErrKind) (s : State) :
    (raiseDec k s).dec = { s.dec with err := k, errPos := s.dec.ipos, phase := .error } := rfl
@[simp] theorem raiseDec_enc (k : ErrKind) (s : State) : (raiseDec k s).enc = s.enc := rfl
@[simp] theorem raiseDec_inp (k : ErrKind) (s : State) : (raiseDec k s).inp = s.inp := rfl
@[simp] theorem raiseDec_inpEnded (k : ErrKind) (s : State) : (raiseDec k s).inpEnded = s.inpEnded := rfl
@[simp] theorem raiseDec_dst (k : ErrKind) (s : State) : (raiseDec k s).dst = s.dst := rfl
@[simp] theorem raiseDec_src (k : ErrKind) (s : State) : (raiseDec k s).src = s.src := rfl
@[simp] theorem raiseDec_out (k : ErrKind) (s : State) : (raiseDec k s).out = s.out := rfl
@[simp] theorem raiseDec_cfgIn (k : ErrKind) (s : State) : (raiseDec k s).cfgIn = s.cfgIn := rfl
@[simp] theorem raiseDec_pxoAccepted (k : ErrKind) (s : State) : (raiseDec k s).pxoAccepted = s.pxoAccepted := rfl
@[simp] theorem raiseDec_boAccepted (k : ErrKind) (s : State) : (raiseDec k s).boAccepted = s.boAccepted := rfl
@[simp] theorem raiseDec_agenda (k : ErrKind) (s : State) : (raiseDec k s).agenda = s.agenda := rfl
@[simp] theorem raiseDec_freeCount (k : ErrKind) (s : State) : (raiseDec k s).freeCount = s.freeCount := rfl
@[simp] theorem raiseEnc_enc (k : ErrKind) (s : State) : (raiseEnc k s).enc = { s.enc with err := k, phase := .error } := rfl
@[simp] theorem raiseEnc_dec (k : ErrKind) (s : State) : (raiseEnc k s).dec = s.dec := rfl
@[simp] theorem raiseEnc_inp (k : ErrKind) (s : State) : (raiseEnc k s).inp = s.inp := rfl
@[simp] theorem raiseEnc_inpEnded (k : ErrKind) (s : State) : (raiseEnc k s).inpEnded = s.inpEnded := rfl
@[simp] theorem raiseEnc_dst (k : ErrKind) (s : State) : (raiseEnc k s).dst = s.dst := rfl
@[simp] theorem raiseEnc_src (k : ErrKind) (s : State) : (raiseEnc k s).src = s.src := rfl
@[simp] theorem raiseEnc_out (k : ErrKind) (s : State) : (raiseEnc k s).out = s.out := rfl
@[simp] theorem raiseEnc_cfgIn (k : ErrKind) (s : State) : (raiseEnc k s).cfgIn = s.cfgIn := rfl
@[simp] theorem raiseEnc_pxoAccepted (k : ErrKind) (s : State) : (raiseEnc k s).pxoAccepted = s.pxoAccepted := rfl
@[simp] theorem raiseEnc_boAccepted (k : ErrKind) (s : State) : (raiseEnc k s).boAccepted = s.boAccepted := rfl
@[simp] theorem raiseEnc_agenda (k : ErrKind) (s : State) : (raiseEnc k s).agenda = s.agenda := rfl
@[simp] theorem raiseEnc_freeCount (k : ErrKind) (s : State) : (raiseEnc k s).freeCount = s.freeCount := rfl

/-! ### The agenda -/

@[simp] theorem popAgenda_dec (s : State) : (popAgenda s).dec = s.dec := rfl
@[simp] theorem popAgenda_enc (s : State) : (popAgenda s).enc = s.enc := rfl
@[simp] theorem popAgenda_inp (s : State) : (popAgenda s).inp = s.inp := rfl
@[simp] theorem popAgenda_inpEnded (s : State) : (popAgenda s).inpEnded = s.inpEnded := rfl
@[simp] theorem popAgenda_dst (s : State) : (popAgenda s).dst = s.dst := rfl
@[simp] theorem popAgenda_src (s : State) : (popAgenda s).src = s.src := rfl
@[simp] theorem popAgenda_out (s : State) : (popAgenda s).out = s.out := rfl
@[simp] theorem popAgenda_cfgIn (s : State) : (popAgenda s).cfgIn = s.cfgIn := rfl
@[simp] theorem popAgenda_pxoAccepted (s : State) : (popAgenda s).pxoAccepted = s.pxoAccepted := rfl
@[simp] theorem popAgenda_boAccepted (s : State) : (popAgenda s).boAccepted = s.boAccepted := rfl
@[simp] theorem popAgenda_agenda (s : State) : (popAgenda s).agenda = s.agenda.tail := rfl
@[simp] theorem popAgenda_freeCount (s : State) : (popAgenda s).freeCount = s.freeCount := rfl

theorem popAgenda_of_nil {s : State} (h : s.agenda = []) : popAgenda s = s := by
  cases s
  simp_all [popAgenda, State.setAgenda]

/-! ### Reading bytes -/

theorem nextByte_got {s t : State} {b : Byte} (h : nextByte s = .got b t) :
    s.inp[s.dec.ipos]? = some b ∧ t = s.setDec { s.dec with ipos := s.dec.ipos + 1 } := by
  unfold nextByte at h
  split at h
  · simp only [Read.got.injEq] at h
    obtain ⟨rfl, rfl⟩ := h
    exact ⟨‹_›, rfl⟩
  · split at h <;> simp at h

theorem nextByte_ended {s t : State} (h : nextByte s = .ended t) :
    s.inp.length ≤ s.dec.ipos ∧ s.inpEnded = true ∧ t = s := by
  unfold nextByte at h
  split at h
  · simp at h
  · rename_i hnone
    split at h
    · simp only [Read.ended.injEq] at h
      exact ⟨by simpa using hnone, ‹_›, h.symm⟩
    · simp at h

theorem nextByte_of_lt {s : State} {b : Byte} (h : s.inp[s.dec.ipos]? = some b) :
    nextByte s = .got b (s.setDec { s.dec with ipos := s.dec.ipos + 1 }) := by
  simp [nextByte, h]

/-- Reading `n` bytes gives the next `n` bytes of IN and moves IPOS past them. -/
theorem nextBytes_got {n : Nat} : ∀ {s t : State} {bs : List Byte}, nextBytes n s = .got bs t →
    bs = (s.inp.drop s.dec.ipos).take n ∧ bs.length = n ∧ t = s.setDec { s.dec with ipos := s.dec.ipos + n } := by
  induction n with
  | zero =>
    intro s t bs h
    simp only [nextBytes, Read.got.injEq] at h
    obtain ⟨rfl, rfl⟩ := h
    exact ⟨by simp, rfl, rfl⟩
  | succ n ih =>
    intro s t bs h
    simp only [nextBytes] at h
    split at h
    · rename_i b s1 hb
      obtain ⟨hget, rfl⟩ := nextByte_got hb
      split at h
      · rename_i bs' s2 hbs
        simp only [Read.got.injEq] at h
        obtain ⟨rfl, rfl⟩ := h
        obtain ⟨h1, h2, h3⟩ := ih hbs
        obtain ⟨hlt, hb⟩ := List.getElem?_eq_some_iff.mp hget
        refine ⟨?_, by simp [h2], ?_⟩
        · rw [List.drop_eq_getElem_cons hlt, List.take_succ_cons, hb, h1]
          rfl
        · rw [h3]
          simp [Nat.add_assoc, Nat.add_comm 1 n]
      · simp at h
      · simp at h
    · simp at h
    · simp at h

/-- Where the stream ends before `n` bytes are read, every byte there is has been taken. -/
theorem nextBytes_ended {n : Nat} : ∀ {s t : State}, nextBytes n s = .ended t →
    s.inpEnded = true ∧ s.inp.length < s.dec.ipos + n ∧
      t = s.setDec { s.dec with ipos := max s.dec.ipos s.inp.length } := by
  induction n with
  | zero => intro s t h; simp [nextBytes] at h
  | succ n ih =>
    intro s t h
    simp only [nextBytes] at h
    split at h
    · rename_i b s1 hb
      obtain ⟨hget, rfl⟩ := nextByte_got hb
      split at h
      · simp at h
      · rename_i s2 hbs
        simp only [Read.ended.injEq] at h
        subst h
        obtain ⟨h1, h2, h3⟩ := ih hbs
        obtain ⟨hlt, _⟩ := List.getElem?_eq_some_iff.mp hget
        simp only [State.setDec_inpEnded, State.setDec_inp, State.setDec_dec] at h1 h2 h3
        refine ⟨h1, by omega, ?_⟩
        rw [h3]
        simp only [State.setDec_setDec]
        congr 2
        omega
      · simp at h
    · rename_i s1 hb
      simp only [Read.ended.injEq] at h
      subst h
      obtain ⟨h1, h2, rfl⟩ := nextByte_ended hb
      refine ⟨h2, by omega, ?_⟩
      rw [Nat.max_eq_left h1]
      rfl
    · simp at h

/-- Enough bytes offered: they are read. -/
theorem nextBytes_of_le {n : Nat} : ∀ {s : State}, s.dec.ipos + n ≤ s.inp.length →
    nextBytes n s = .got ((s.inp.drop s.dec.ipos).take n) (s.setDec { s.dec with ipos := s.dec.ipos + n }) := by
  induction n with
  | zero => intro s _; rfl
  | succ n ih =>
    intro s h
    have hlt : s.dec.ipos < s.inp.length := by omega
    simp only [nextBytes]
    rw [nextByte_of_lt (List.getElem?_eq_getElem hlt)]
    simp only
    rw [ih (by simpa [Nat.add_assoc, Nat.add_comm 1 n] using h)]
    simp only [State.setDec_inp, State.setDec_dec, State.setDec_setDec]
    rw [List.drop_eq_getElem_cons hlt, List.take_succ_cons]
    simp [Nat.add_assoc, Nat.add_comm 1 n]

/-- A chunk read whole: as many bytes as its first says, IPOS moved past them. -/
theorem readChunk_got {s t : State} {bs : List Byte} (h : readChunk s = .got bs t) :
    ∃ b1 tl, bs = b1 :: tl ∧ s.inp[s.dec.ipos]? = some b1 ∧ tl.length = chunkLength b1 - 1 ∧
      bs = (s.inp.drop s.dec.ipos).take bs.length ∧ t = s.setDec { s.dec with ipos := s.dec.ipos + bs.length } := by
  unfold readChunk at h
  split at h
  · rename_i b1 s1 hb
    obtain ⟨hget, rfl⟩ := nextByte_got hb
    split at h
    · rename_i tl s2 hbs
      simp only [Read.got.injEq] at h
      obtain ⟨rfl, rfl⟩ := h
      obtain ⟨h1, h2, h3⟩ := nextBytes_got hbs
      obtain ⟨hlt, hb⟩ := List.getElem?_eq_some_iff.mp hget
      refine ⟨b1, tl, rfl, hget, h2, ?_, ?_⟩
      · rw [List.drop_eq_getElem_cons hlt, List.length_cons, List.take_succ_cons, hb, h2]
        exact congrArg _ h1
      · rw [h3]
        simp [h2, Nat.add_assoc, Nat.add_comm 1]
    · simp at h
    · simp at h
  · simp at h
  · simp at h

/-- A chunk cut short by the end of the stream: every byte there is has been taken, nothing else changed (R125). -/
theorem readChunk_ended {s t : State} (h : readChunk s = .ended t) :
    s.inpEnded = true ∧ t = s.setDec { s.dec with ipos := max s.dec.ipos s.inp.length } := by
  unfold readChunk at h
  split at h
  · rename_i b1 s1 hb
    obtain ⟨hget, rfl⟩ := nextByte_got hb
    split at h
    · simp at h
    · rename_i s2 hbs
      simp only [Read.ended.injEq] at h
      subst h
      obtain ⟨h1, _, h3⟩ := nextBytes_ended hbs
      obtain ⟨hlt, _⟩ := List.getElem?_eq_some_iff.mp hget
      refine ⟨h1, ?_⟩
      rw [h3]
      simp only [State.setDec_setDec, State.setDec_inp, State.setDec_dec]
      congr 2
      omega
    · simp at h
  · rename_i s1 hb
    simp only [Read.ended.injEq] at h
    subst h
    obtain ⟨h1, h2, rfl⟩ := nextByte_ended hb
    refine ⟨h2, ?_⟩
    rw [Nat.max_eq_left h1]
    rfl
  · simp at h

/-- All of a chunk's bytes offered: it is read whole. -/
theorem readChunk_of_le {s : State} {b1 : Byte} (hget : s.inp[s.dec.ipos]? = some b1)
    (h : s.dec.ipos + 1 + (chunkLength b1 - 1) ≤ s.inp.length) :
    readChunk s = .got ((s.inp.drop s.dec.ipos).take (1 + (chunkLength b1 - 1)))
      (s.setDec { s.dec with ipos := s.dec.ipos + 1 + (chunkLength b1 - 1) }) := by
  obtain ⟨hlt, hb⟩ := List.getElem?_eq_some_iff.mp hget
  unfold readChunk
  rw [nextByte_of_lt hget]
  simp only
  rw [nextBytes_of_le (by simpa using h)]
  simp only [State.setDec_inp, State.setDec_dec, State.setDec_setDec]
  rw [List.drop_eq_getElem_cons hlt, Nat.add_comm 1 (chunkLength b1 - 1), List.take_succ_cons, hb]

/-! ### The pixel output -/

/-- What a pixel output does, when it does not stop. -/
theorem emitPixel_next {px : Pixel} {s t : State} (h : emitPixel px s = .next t) :
    s.dec.ppos < s.dec.npix ∧
      t = (s.setDst (s.dst.writePixel s.dec.ppos px)).setDec
        { s.dec with prev := px, ppos := s.dec.ppos + 1,
                     phase := phaseAfterPixel s.dec.npix (s.dec.ppos + 1) s.dec.phase } := by
  unfold emitPixel at h
  split at h
  · exact ⟨‹_›, by simpa using h.symm⟩
  · simp at h

theorem emitPixel_of_room {px : Pixel} {s : State} (h : s.dec.ppos < s.dec.npix) :
    emitPixel px s = .next ((s.setDst (s.dst.writePixel s.dec.ppos px)).setDec
      { s.dec with prev := px, ppos := s.dec.ppos + 1,
                   phase := phaseAfterPixel s.dec.npix (s.dec.ppos + 1) s.dec.phase }) := by
  simp [emitPixel, h]

theorem emitPixel_not_refused (px : Pixel) (s : State) (r : Refusal) : emitPixel px s ≠ .refused r := by
  unfold emitPixel
  split <;> simp

theorem resolvePixel_next {px : Pixel} {s t : State} (h : resolvePixel px s = .next t) :
    s.dec.ppos < s.dec.npix ∧
      t = (s.setDst (s.dst.writePixel s.dec.ppos px)).setDec
        { s.dec with prev := px, ppos := s.dec.ppos + 1, cache := store s.dec.cache px,
                     phase := phaseAfterPixel s.dec.npix (s.dec.ppos + 1) s.dec.phase } := by
  obtain ⟨h1, h2⟩ := emitPixel_next h
  exact ⟨h1, h2⟩

theorem resolvePixel_of_room {px : Pixel} {s : State} (h : s.dec.ppos < s.dec.npix) :
    resolvePixel px s = .next ((s.setDst (s.dst.writePixel s.dec.ppos px)).setDec
      { s.dec with prev := px, ppos := s.dec.ppos + 1, cache := store s.dec.cache px,
                   phase := phaseAfterPixel s.dec.npix (s.dec.ppos + 1) s.dec.phase }) := by
  unfold resolvePixel
  rw [emitPixel_of_room (by simpa using h)]
  rfl

/-- Every chunk is one resolved pixel: RUN is loaded by the run chunks only. -/
theorem exec_chunk_resolves {i : Instr} (hi : i.position = .chunk) (s : State) :
    ∃ px run, exec i s = resolvePixel px (s.setDec { s.dec with run := run }) ∧
      ((∀ n, i ≠ .runS n) → (∀ f, i ≠ .runL f) → run = s.dec.run) := by
  cases i with
  | index k => exact ⟨_, _, rfl, fun _ _ => rfl⟩
  | runS n => exact ⟨_, _, rfl, fun h _ => absurd rfl (h n)⟩
  | runL f => exact ⟨_, _, rfl, fun _ h => absurd rfl (h f)⟩
  | diffS r g b => exact ⟨_, _, rfl, fun _ _ => rfl⟩
  | diffM r g b => exact ⟨_, _, rfl, fun _ _ => rfl⟩
  | diffL r g b a => exact ⟨_, _, rfl, fun _ _ => rfl⟩
  | overwrite r g b a => exact ⟨_, _, rfl, fun _ _ => rfl⟩
  | header w h c cs => simp [Instr.position] at hi
  | trailer => simp [Instr.position] at hi

/-! ### Emission -/

@[simp] theorem emitBytes_enc (bs : List Byte) (s : State) :
    (emitBytes bs s).enc = { s.enc with opos := s.enc.opos + bs.length } := rfl
@[simp] theorem emitBytes_out (bs : List Byte) (s : State) : (emitBytes bs s).out = s.out.writeBytes s.enc.opos bs := rfl
@[simp] theorem emitBytes_dec (bs : List Byte) (s : State) : (emitBytes bs s).dec = s.dec := rfl
@[simp] theorem emitBytes_inp (bs : List Byte) (s : State) : (emitBytes bs s).inp = s.inp := rfl
@[simp] theorem emitBytes_inpEnded (bs : List Byte) (s : State) : (emitBytes bs s).inpEnded = s.inpEnded := rfl
@[simp] theorem emitBytes_dst (bs : List Byte) (s : State) : (emitBytes bs s).dst = s.dst := rfl
@[simp] theorem emitBytes_src (bs : List Byte) (s : State) : (emitBytes bs s).src = s.src := rfl
@[simp] theorem emitBytes_cfgIn (bs : List Byte) (s : State) : (emitBytes bs s).cfgIn = s.cfgIn := rfl
@[simp] theorem emitBytes_pxoAccepted (bs : List Byte) (s : State) : (emitBytes bs s).pxoAccepted = s.pxoAccepted := rfl
@[simp] theorem emitBytes_boAccepted (bs : List Byte) (s : State) : (emitBytes bs s).boAccepted = s.boAccepted := rfl
@[simp] theorem emitBytes_agenda (bs : List Byte) (s : State) : (emitBytes bs s).agenda = s.agenda := rfl
@[simp] theorem emitBytes_freeCount (bs : List Byte) (s : State) : (emitBytes bs s).freeCount = s.freeCount := rfl

theorem encodePixel_next {p : Pixel} {s t : State} (h : encodePixel p s = .next t) :
    s.enc.ppos < s.enc.npix ∧ t = emitBytes (encodeAll (pixelChunks s.enc p)) (s.setEnc (encAdvance s.enc p)) := by
  unfold encodePixel at h
  split at h
  · exact ⟨‹_›, by simpa using h.symm⟩
  · simp at h

/-! ### `io_fail` in the decoder -/

/-- All that an abandoned decoder step can have moved: IPOS to `failPosition`, and the HDR registers, which are as they were or,
for a header step that had taken all 14 bytes, as parsed. -/
theorem abandonDec_cases (s : State) :
    ∃ w h c cs,
      abandonDec s = s.setDec
        { s.dec with ipos := failPosition s, hdrWidth := w, hdrHeight := h, hdrChannels := c, hdrColorspace := cs } ∧
      ((w = s.dec.hdrWidth ∧ h = s.dec.hdrHeight ∧ c = s.dec.hdrChannels ∧ cs = s.dec.hdrColorspace) ∨
        (s.dec.phase = .header ∧ failPosition s = 14 ∧ ∃ m rest, headerParts s.inp = some (m, w, h, c, cs, rest))) := by
  unfold abandonDec failHeader
  split
  · rename_i hl
    simp only [failLoadsHeader, Bool.and_eq_true, beq_iff_eq] at hl
    unfold loadParsed
    split
    · rename_i m w h c cs rest hp
      exact ⟨w, h, c, cs, rfl, .inr ⟨hl.1.1, hl.1.2, m, rest, hp⟩⟩
    · exact ⟨_, _, _, _, rfl, .inl ⟨rfl, rfl, rfl, rfl⟩⟩
  · exact ⟨_, _, _, _, rfl, .inl ⟨rfl, rfl, rfl, rfl⟩⟩

@[simp] theorem abandonDec_enc (s : State) : (abandonDec s).enc = s.enc := by
  obtain ⟨_, _, _, _, he, _⟩ := abandonDec_cases s
  rw [he, State.setDec_enc]
@[simp] theorem abandonDec_inp (s : State) : (abandonDec s).inp = s.inp := by
  obtain ⟨_, _, _, _, he, _⟩ := abandonDec_cases s
  rw [he, State.setDec_inp]
@[simp] theorem abandonDec_inpEnded (s : State) : (abandonDec s).inpEnded = s.inpEnded := by
  obtain ⟨_, _, _, _, he, _⟩ := abandonDec_cases s
  rw [he, State.setDec_inpEnded]
@[simp] theorem abandonDec_dst (s : State) : (abandonDec s).dst = s.dst := by
  obtain ⟨_, _, _, _, he, _⟩ := abandonDec_cases s
  rw [he, State.setDec_dst]
@[simp] theorem abandonDec_src (s : State) : (abandonDec s).src = s.src := by
  obtain ⟨_, _, _, _, he, _⟩ := abandonDec_cases s
  rw [he, State.setDec_src]
@[simp] theorem abandonDec_out (s : State) : (abandonDec s).out = s.out := by
  obtain ⟨_, _, _, _, he, _⟩ := abandonDec_cases s
  rw [he, State.setDec_out]
@[simp] theorem abandonDec_cfgIn (s : State) : (abandonDec s).cfgIn = s.cfgIn := by
  obtain ⟨_, _, _, _, he, _⟩ := abandonDec_cases s
  rw [he, State.setDec_cfgIn]
@[simp] theorem abandonDec_pxoAccepted (s : State) : (abandonDec s).pxoAccepted = s.pxoAccepted := by
  obtain ⟨_, _, _, _, he, _⟩ := abandonDec_cases s
  rw [he, State.setDec_pxoAccepted]
@[simp] theorem abandonDec_boAccepted (s : State) : (abandonDec s).boAccepted = s.boAccepted := by
  obtain ⟨_, _, _, _, he, _⟩ := abandonDec_cases s
  rw [he, State.setDec_boAccepted]
@[simp] theorem abandonDec_agenda (s : State) : (abandonDec s).agenda = s.agenda := by
  obtain ⟨_, _, _, _, he, _⟩ := abandonDec_cases s
  rw [he, State.setDec_agenda]
@[simp] theorem abandonDec_freeCount (s : State) : (abandonDec s).freeCount = s.freeCount := by
  obtain ⟨_, _, _, _, he, _⟩ := abandonDec_cases s
  rw [he, State.setDec_freeCount]
@[simp] theorem abandonDec_dec_prev (s : State) : (abandonDec s).dec.prev = s.dec.prev := by
  obtain ⟨_, _, _, _, he, _⟩ := abandonDec_cases s
  rw [he, State.setDec_dec]
@[simp] theorem abandonDec_dec_run (s : State) : (abandonDec s).dec.run = s.dec.run := by
  obtain ⟨_, _, _, _, he, _⟩ := abandonDec_cases s
  rw [he, State.setDec_dec]
@[simp] theorem abandonDec_dec_cache (s : State) : (abandonDec s).dec.cache = s.dec.cache := by
  obtain ⟨_, _, _, _, he, _⟩ := abandonDec_cases s
  rw [he, State.setDec_dec]
@[simp] theorem abandonDec_dec_npix (s : State) : (abandonDec s).dec.npix = s.dec.npix := by
  obtain ⟨_, _, _, _, he, _⟩ := abandonDec_cases s
  rw [he, State.setDec_dec]
@[simp] theorem abandonDec_dec_ppos (s : State) : (abandonDec s).dec.ppos = s.dec.ppos := by
  obtain ⟨_, _, _, _, he, _⟩ := abandonDec_cases s
  rw [he, State.setDec_dec]
@[simp] theorem abandonDec_dec_hdrValid (s : State) : (abandonDec s).dec.hdrValid = s.dec.hdrValid := by
  obtain ⟨_, _, _, _, he, _⟩ := abandonDec_cases s
  rw [he, State.setDec_dec]
@[simp] theorem abandonDec_dec_phase (s : State) : (abandonDec s).dec.phase = s.dec.phase := by
  obtain ⟨_, _, _, _, he, _⟩ := abandonDec_cases s
  rw [he, State.setDec_dec]
@[simp] theorem abandonDec_dec_err (s : State) : (abandonDec s).dec.err = s.dec.err := by
  obtain ⟨_, _, _, _, he, _⟩ := abandonDec_cases s
  rw [he, State.setDec_dec]
@[simp] theorem abandonDec_dec_errPos (s : State) : (abandonDec s).dec.errPos = s.dec.errPos := by
  obtain ⟨_, _, _, _, he, _⟩ := abandonDec_cases s
  rw [he, State.setDec_dec]
@[simp] theorem abandonDec_dec_ipos (s : State) : (abandonDec s).dec.ipos = failPosition s := by
  rw [abandonDec, State.setDec_dec]

/-- An abandoned step takes IPOS forward or leaves it, and not past the stream. -/
theorem failPosition_bounds (s : State) (h : s.dec.ipos ≤ s.inp.length) :
    s.dec.ipos ≤ failPosition s ∧ failPosition s ≤ s.inp.length := by
  have hb : stepBytes s ≤ s.inp.length - s.dec.ipos := by
    unfold stepBytes
    split <;> (try split) <;> (try split) <;> omega
  have := Nat.mod_lt (Config.freeNat s.freeCount) (show 0 < stepBytes s + 1 by omega)
  unfold failPosition
  omega

/-! ### One step -/

/-- What a step can do: an action of the host, a turn of one engine, or nothing but the agenda. -/
theorem step_next {s t : State} (h : step s = .next t) :
    (∃ a l, s.agenda = .host a :: l ∧ t = hostAct a (popAgenda s)) ∨
      (∃ e, playTurn (engineTurn e (popAgenda s)) (popAgenda s) = .next t) := by
  unfold step nextTurn at h
  split at h
  · rename_i hag
    rw [popAgenda_of_nil hag] at h ⊢
    unfold defaultTurn at h
    cases hd : decTurn s with
    | run i t' => exact .inr ⟨.dec, by simpa [hd, engineTurn] using h⟩
    | settled o => exact .inr ⟨.dec, by simpa [hd, engineTurn] using h⟩
    | waits => exact .inr ⟨.enc, by simpa [hd, engineTurn] using h⟩
  · rename_i a l hag
    cases a with
    | host a => exact .inl ⟨a, l, hag, by simpa [actionTurn, playTurn] using h.symm⟩
    | engine e => exact .inr ⟨e, h⟩

end Sys2Proof.Machine
end

