-- ==== Sys2Proof/Laws/PerInstr.lean ====
section
/-! SUPPORT. Statements for all instructions, one lemma per constructor. -/

namespace Sys2Proof.Laws.Size

/-- The number of bytes an instruction encodes to is its size; a chunk has 1 to 5 bytes and its first byte says how many (R78);
the header has 14 (R59), the trailer 4 (R76). -/
def Statement (i : Instr) : Prop :=
  (encode i).length = i.size ∧
    match i.position with
    | .chunk => 1 ≤ i.size ∧ i.size ≤ 5 ∧ ∃ b1 tl, encode i = b1 :: tl ∧ chunkLength b1 = i.size
    | .header => i.size = 14
    | .trailer => i.size = 4

theorem index (i : BitVec 6) : Statement (.index i) :=
  ⟨rfl, by simp [Instr.size], by simp [Instr.size], _, _, rfl, (by decide : ∀ i : BitVec 6, chunkLength (join 8 tagIndex i) = 1) i⟩

theorem runS (n : BitVec 5) : Statement (.runS n) :=
  ⟨rfl, by simp [Instr.size], by simp [Instr.size], _, _, rfl, (by decide : ∀ n : BitVec 5, chunkLength (join 8 tagRunS n) = 1) n⟩

theorem runL (f : BitVec 13) : Statement (.runL f) :=
  ⟨rfl, by simp [Instr.size], by simp [Instr.size], _, _, rfl, (by decide : ∀ h : BitVec 5, chunkLength (join 8 tagRunL h) = 2) _⟩

theorem diffS (r g b : BitVec 2) : Statement (.diffS r g b) :=
  ⟨rfl, by simp [Instr.size], by simp [Instr.size], _, _, rfl,
    (by decide : ∀ v : BitVec 6, chunkLength (join 8 tagDiffS v) = 1) _⟩

theorem diffM (r : BitVec 5) (g b : BitVec 4) : Statement (.diffM r g b) :=
  ⟨rfl, by simp [Instr.size], by simp [Instr.size], _, _, rfl,
    (by decide : ∀ r : BitVec 5, chunkLength (join 8 tagDiffM r) = 2) _⟩

theorem diffL (r g b a : BitVec 5) : Statement (.diffL r g b a) :=
  ⟨rfl, by simp [Instr.size], by simp [Instr.size], _, _, rfl,
    (by decide : ∀ v : BitVec 4, chunkLength (join 8 tagDiffL v) = 3) _⟩

/-- R78 for the sixteen flag combinations. -/
theorem chunkLength_overwrite : ∀ r g b a : Bool,
    chunkLength (join 8 tagOverwrite
      (join 4 (join 2 (BitVec.ofBool r) (BitVec.ofBool g)) (join 2 (BitVec.ofBool b) (BitVec.ofBool a)))) =
      1 + r.toNat + g.toNat + b.toNat + a.toNat := by
  decide

theorem overwrite (r g b a : Option Byte) : Statement (.overwrite r g b a) := by
  refine ⟨?_, ?_, ?_, _, _, rfl, chunkLength_overwrite _ _ _ _⟩ <;>
    cases r <;> cases g <;> cases b <;> cases a <;> simp [encode, Instr.size]

theorem header (w h : Word) (c cs : Byte) : Statement (.header w h c cs) := ⟨rfl, rfl⟩

theorem trailer : Statement .trailer := ⟨rfl, rfl⟩

end Sys2Proof.Laws.Size
end

