-- ==== Sys2Proof/Laws/Turns.lean ====
section
/-! SUPPORT. What one turn of an engine can do: the inversions every invariant is derived from. -/

namespace Sys2Proof.Machine

/-- A chunk's decoding is a chunk. -/
theorem decodeChunk_position {bs rest : List Byte} {i : Instr} (h : decodeChunk bs = .ok i rest) : i.position = .chunk := by
  unfold decodeChunk at h
  split at h
  · simp at h
  · split at h
    · simp only [Decoded.ok.injEq] at h; rw [← h.1]; rfl
    · simp only [Decoded.ok.injEq] at h; rw [← h.1]; rfl
    · unfold decodeRunL at h
      split at h
      · simp only [Decoded.ok.injEq] at h; rw [← h.1]; rfl
      · simp at h
    · simp only [Decoded.ok.injEq] at h; rw [← h.1]; rfl
    · unfold decodeDiffM at h
      split at h
      · simp only [Decoded.ok.injEq] at h; rw [← h.1]; rfl
      · simp at h
    · unfold decodeDiffL at h
      split at h
      · simp only [Decoded.ok.injEq] at h; rw [← h.1]; rfl
      · simp at h
    · unfold decodeOverwrite at h
      split at h
      · simp at h
      · split at h
        · simp at h
        · split at h
          · simp at h
          · split at h
            · simp at h
            · simp only [Decoded.ok.injEq] at h; rw [← h.1]; rfl
    · simp at h

/-- A header's decoding is a header instruction. -/
theorem decodeHeader_ok {bs rest : List Byte} {i : Instr} (h : decodeHeader bs = .ok i rest) :
    ∃ w ht c cs, i = .header w ht c cs ∧ headerParts bs = some (magic, w, ht, c, cs, rest) := by
  unfold decodeHeader at h
  split at h
  · simp at h
  · split at h
    · simp only [Decoded.ok.injEq] at h
      obtain ⟨rfl, rfl⟩ := h
      rename_i hp hm
      subst hm
      exact ⟨_, _, _, _, rfl, hp⟩
    · simp at h

/-- The pixel a chunk resolves to and what RUN holds then: a run chunk loads RUN (at most 8223) and repeats PREV, every other
chunk leaves RUN. -/
theorem exec_chunk_cases {i : Instr} (hi : i.position = .chunk) (s : State) :
    ∃ px run, exec i s = resolvePixel px (s.setDec { s.dec with run := run }) ∧
      (run = s.dec.run ∨ (px = s.dec.prev ∧ run.toNat ≤ 8223)) := by
  cases i with
  | index k => exact ⟨_, _, rfl, .inl rfl⟩
  | runS n =>
    refine ⟨_, _, rfl, .inr ⟨rfl, ?_⟩⟩
    have := n.isLt
    simp only [runLoadS, BitVec.toNat_setWidth]
    omega
  | runL f =>
    refine ⟨_, _, rfl, .inr ⟨rfl, ?_⟩⟩
    have := f.isLt
    simp only [runLoadL, BitVec.toNat_add, BitVec.toNat_setWidth, BitVec.toNat_ofNat]
    omega
  | diffS r g b => exact ⟨_, _, rfl, .inl rfl⟩
  | diffM r g b => exact ⟨_, _, rfl, .inl rfl⟩
  | diffL r g b a => exact ⟨_, _, rfl, .inl rfl⟩
  | overwrite r g b a => exact ⟨_, _, rfl, .inl rfl⟩
  | header w h c cs => simp [Instr.position] at hi
  | trailer => simp [Instr.position] at hi

/-- What HDR.PARSE does on a header whose magic is right: it is rejected, or accepted. -/
theorem execHeader_cases (w h : Word) (c cs : Byte) (s : State) :
    execHeader w h c cs s = .next (raiseDec .format (loadHeader w h c cs s)) ∨
      ((w ≠ 0#32 ∧ h ≠ 0#32 ∧ (c = 3#8 ∨ c = 4#8)) ∧
        execHeader w h c cs s = .next (acceptHeader (loadHeader w h c cs s))) := by
  unfold execHeader
  split
  · exact .inl rfl
  · split
    · exact .inl rfl
    · split
      · exact .inl rfl
      · rename_i h1 h2 h3
        refine .inr ⟨⟨h1, h2, ?_⟩, rfl⟩
        by_cases hc : c = 3#8
        · exact .inl hc
        · exact .inr (by_contra fun h4 => h3 ⟨hc, h4⟩)

/-- The decoder's turn, case by case. -/
inductive DecMove (s : State) : State → Prop where
  /-- No step enabled, or a wait. -/
  | rests : DecMove s s
  /-- R88. -/
  | shortHeader (hp : s.dec.phase = .header) (hl : s.inp.length < 14) (he : s.inpEnded = true) :
      DecMove s (raiseDec .format (s.setDec { s.dec with ipos := s.inp.length }))
  /-- R89. -/
  | badHeader (hp : s.dec.phase = .header) (hl : 14 ≤ s.inp.length) (w h : Word) (c cs : Byte) :
      DecMove s (raiseDec .format (loadHeader w h c cs (s.setDec { s.dec with ipos := 14 })))
  /-- R90. -/
  | goodHeader (hp : s.dec.phase = .header) (hl : 14 ≤ s.inp.length) (w h : Word) (c cs : Byte)
      (hw : w ≠ 0#32) (hh : h ≠ 0#32) (hc : c = 3#8 ∨ c = 4#8) :
      DecMove s (acceptHeader (loadHeader w h c cs (s.setDec { s.dec with ipos := 14 })))
  /-- R110. -/
  | continues (hp : s.dec.phase = .pixels) (hr : s.dec.run ≠ 0#14) (hlt : s.dec.ppos < s.dec.npix) :
      DecMove s ((s.setDst (s.dst.writePixel s.dec.ppos s.dec.prev)).setDec
        { s.dec with run := s.dec.run - 1#14, ppos := s.dec.ppos + 1,
                     phase := phaseAfterPixel s.dec.npix (s.dec.ppos + 1) s.dec.phase })
  /-- R109, R120. -/
  | chunk (hp : s.dec.phase = .pixels) (hr : s.dec.run = 0#14) (hlt : s.dec.ppos < s.dec.npix) (n : Nat) (px : Pixel)
      (run : BitVec 14) (hn : 1 ≤ n) (hle : s.dec.ipos + n ≤ s.inp.length)
      (hrun : run = s.dec.run ∨ (px = s.dec.prev ∧ run.toNat ≤ 8223)) :
      DecMove s ((s.setDst (s.dst.writePixel s.dec.ppos px)).setDec
        { s.dec with ipos := s.dec.ipos + n, prev := px, run := run, ppos := s.dec.ppos + 1,
                     cache := store s.dec.cache px,
                     phase := phaseAfterPixel s.dec.npix (s.dec.ppos + 1) s.dec.phase })
  /-- R124, R125. -/
  | truncated (hp : s.dec.phase = .pixels) (hr : s.dec.run = 0#14) (he : s.inpEnded = true) :
      DecMove s (raiseDec .truncated (s.setDec { s.dec with ipos := max s.dec.ipos s.inp.length }))

/-- Every completed turn of the decoder is one of the moves. -/
theorem decTurn_move {s t : State} (h : playTurn (decTurn s) s = .next t) : DecMove s t := by
  unfold decTurn at h
  split at h
  · rename_i hp
    unfold headerTurn at h
    split at h
    · split at h
      · simp only [playTurn, Host.Outcome.next.injEq] at h
        subst h
        exact .shortHeader hp ‹_› ‹_›
      · simp only [playTurn, Host.Outcome.next.injEq] at h
        subst h
        exact .rests
    · rename_i hl
      have hl : 14 ≤ s.inp.length := by omega
      split at h
      · rename_i i rest hd
        obtain ⟨w, ht, c, cs, rfl, _⟩ := decodeHeader_ok hd
        rcases execHeader_cases w ht c cs (s.setDec { s.dec with ipos := 14 }) with he | ⟨⟨h1, h2, h3⟩, he⟩
        · simp only [playTurn, exec, he, Host.Outcome.next.injEq] at h
          subst h
          exact .badHeader hp hl _ _ _ _
        · simp only [playTurn, exec, he, Host.Outcome.next.injEq] at h
          subst h
          exact .goodHeader hp hl _ _ _ _ h1 h2 h3
      · simp only [playTurn, Host.Outcome.next.injEq] at h
        subst h
        have hparts : ∃ m w ht c cs rest, headerParts (s.inp.take 14) = some (m, w, ht, c, cs, rest) := by
          obtain ⟨l, hlen⟩ : ∃ l, s.inp.take 14 = l ∧ l.length = 14 := ⟨_, rfl, by simp [hl]⟩
          rw [hlen.1]
          have h14 := hlen.2
          match l, h14 with
          | [a0, a1, a2, a3, a4, a5, a6, a7, a8, a9, a10, a11, a12, a13], _ => exact ⟨_, _, _, _, _, _, rfl⟩
        obtain ⟨m, w, ht, c, cs, rest, hparts⟩ := hparts
        simp only [rejectMagic, loadParsed, hparts]
        exact .badHeader hp hl _ _ _ _
  · rename_i hp
    unfold pixelTurn at h
    split at h
    · rename_i hr
      split at h
      · obtain ⟨h1, h2⟩ := emitPixel_next (by simpa [playTurn, continueRun] using h)
        subst h2
        exact .continues hp ((runNonzero_iff _).mp hr) h1
      · simp only [playTurn, Host.Outcome.next.injEq] at h
        subst h
        exact .rests
    · rename_i hr
      have hr : s.dec.run = 0#14 := by simpa [runNonzero_iff] using hr
      unfold chunkTurn at h
      split at h
      · rename_i bs s1 hread
        obtain ⟨b1, tl, rfl, hget, _, htake, rfl⟩ := readChunk_got hread
        have hle : s.dec.ipos + (b1 :: tl).length ≤ s.inp.length := by
          have := congrArg List.length htake
          obtain ⟨hlt, _⟩ := List.getElem?_eq_some_iff.mp hget
          rw [List.length_take, List.length_drop] at this
          omega
        split at h
        · split at h
          · rename_i i rest hd
            obtain ⟨px, run, he, hrun⟩ := exec_chunk_cases (decodeChunk_position (bs := b1 :: tl) hd)
              (s.setDec { s.dec with ipos := s.dec.ipos + (b1 :: tl).length })
            rw [playTurn, he] at h
            obtain ⟨h1, h2⟩ := resolvePixel_next h
            subst h2
            exact .chunk hp hr h1 (b1 :: tl).length px run (by simp) hle hrun
          · obtain ⟨h1, h2⟩ := resolvePixel_next (by simpa [playTurn, resetPixel] using h)
            subst h2
            exact .chunk hp hr h1 (b1 :: tl).length zeroPixel s.dec.run (by simp) hle (.inl rfl)
        · simp only [playTurn, Host.Outcome.next.injEq] at h
          subst h
          exact .rests
      · rename_i s1 hread
        obtain ⟨he, rfl⟩ := readChunk_ended hread
        simp only [playTurn, Host.Outcome.next.injEq] at h
        subst h
        exact .truncated hp hr he
      · simp only [playTurn, Host.Outcome.next.injEq] at h
        subst h
        exact .rests
  all_goals
    simp only [playTurn, Host.Outcome.next.injEq] at h
    subst h
    exact .rests

/-- The encoder's turn, case by case. -/
inductive EncMove (s : State) : State → Prop where
  /-- No step enabled, or a wait. -/
  | rests : EncMove s s
  /-- R85. -/
  | header (hp : s.enc.phase = .header) : EncMove s (emitHeader s)
  /-- R131. -/
  | pixel (hp : s.enc.phase = .pixels) (hlt : s.enc.ppos < s.enc.npix) (p : Pixel) (hsrc : s.src[s.enc.ppos]? = some p) :
      EncMove s (emitBytes (encodeAll (pixelChunks s.enc p)) (s.setEnc (encAdvance s.enc p)))
  /-- R148. -/
  | trailer (hp : s.enc.phase = .trailer) :
      EncMove s ((emitBytes (encode .trailer) s).setEnc { (emitBytes (encode .trailer) s).enc with phase := .done })

/-- Every completed turn of the encoder is one of the moves. -/
theorem encTurn_move {s t : State} (h : playTurn (encTurn s) s = .next t) : EncMove s t := by
  unfold encTurn at h
  split at h
  · rename_i hp
    split at h
    · simp only [playTurn, Host.Outcome.next.injEq] at h
      subst h
      exact .header hp
    · simp only [playTurn, Host.Outcome.next.injEq] at h
      subst h
      exact .rests
  · rename_i hp
    unfold sourceTurn at h
    split at h
    · rename_i p hsrc
      split at h
      · obtain ⟨h1, h2⟩ := encodePixel_next (by simpa [playTurn] using h)
        subst h2
        exact .pixel hp h1 p hsrc
      · simp only [playTurn, Host.Outcome.next.injEq] at h
        subst h
        exact .rests
    · simp only [playTurn, Host.Outcome.next.injEq] at h
      subst h
      exact .rests
  · rename_i hp
    split at h
    · simp only [playTurn, exec, execTrailer, Host.Outcome.next.injEq] at h
      subst h
      exact .trailer hp
    · simp only [playTurn, Host.Outcome.next.injEq] at h
      subst h
      exact .rests
  all_goals
    simp only [playTurn, Host.Outcome.next.injEq] at h
    subst h
    exact .rests

/-- What a step can do: an action of the host, or one move of one engine; the used entry of the agenda is gone. -/
theorem step_cases {s t : State} (h : step s = .next t) :
    (∃ a l, s.agenda = .host a :: l ∧ t = hostAct a (popAgenda s)) ∨ DecMove (popAgenda s) t ∨ EncMove (popAgenda s) t := by
  rcases step_next h with h | ⟨e, h⟩
  · exact .inl h
  · cases e with
    | dec => exact .inr (.inl (decTurn_move h))
    | enc => exact .inr (.inr (encTurn_move h))

end Sys2Proof.Machine
end

