-- ==== Sys2Proof/Tests/Slice0.lean ====
section
/-! SUPPORT. Tests on fixed values, each with its source in the spec, and the witnesses of the statements' hypotheses. -/

namespace Sys2Proof.Tests

open Sys2Proof.Machine

/-! ### Helpers -/

/-- The state an outcome goes on to, if it does. -/
def nextOf : Result → Option State
  | .next t => some t
  | .fault _ => none
  | .refused _ => none

/-- The fault an outcome is, if it is one. -/
def faultOf : Result → Option Fault
  | .next _ => none
  | .fault r => some r
  | .refused _ => none

/-- The start state of section 2.4 of 95_test_vectors.md, four pixels to come, before the bytes `bs` and the end of stream. -/
def decVec (bs : List Byte) : State :=
  { State.reset with
    dec := { DecCtx.reset with
      prev := ⟨100#8, 150#8, 200#8, 255#8⟩, cache := zeroCache.set 5 ⟨1#8, 2#8, 3#8, 4#8⟩, npix := 4, phase := .pixels }
    inp := bs
    inpEnded := true
    agenda := [.engine .dec] }

/-- What a vector of section 2.4 names: PX, RUN, IPOS, the slot stored into, the pixel in DST. -/
def decSeen (k : BitVec 6) (t : State) : Pixel × BitVec 14 × Nat × Pixel × Option Pixel :=
  (t.dec.prev, t.dec.run, t.dec.ipos, lookup t.dec.cache k, t.dst.readPixel 0)

/-- The start state of section 2.5: PREV, RUN, a cache, the pixel `p` of an image of four. -/
def encVec (prev : Pixel) (run : BitVec 14) (c : Cache) (p : Pixel) : State :=
  { State.reset with
    enc := { EncCtx.reset with prev := prev, run := run, cache := c, npix := 4, phase := .pixels }
    src := [p]
    agenda := [.engine .enc] }

/-- What a vector of section 2.5 names: the bytes, RUN, PREV, the slot stored into. -/
def encSeen (k : BitVec 6) (t : State) : List Byte × BitVec 14 × Pixel × Pixel :=
  (t.out.bytes, t.enc.run, t.enc.prev, lookup t.enc.cache k)

/-- PREV of the vectors of 2.4 and 2.5. -/
def vecPrev : Pixel := ⟨100#8, 150#8, 200#8, 255#8⟩

/-- DEC just started, its whole stream offered. -/
def decStarted (bs : List Byte) (ended : Bool) : State :=
  { State.reset with dec := startedDec 0, inp := bs, inpEnded := ended }

/-- ENC just started. -/
def encStarted (c : Cfg) (img : List Pixel) : State := { State.reset with enc := startedEnc c, src := img }

/-- A state with the given agenda. -/
def withAgenda (l : List Action) (s : State) : State := { s with agenda := l }

/-- A state whose decoder is in the given phase. -/
def decPhase (p : Phase) : State := { State.reset with dec := { DecCtx.reset with phase := p } }

/-- A state whose encoder is in the given phase, CFG inputs of one pixel. -/
def encPhase (p : Phase) : State :=
  { State.reset with enc := { EncCtx.reset with phase := p }, cfgIn := ⟨1#32, 1#32, 4#8, 0#8⟩ }

/-- 14 header bytes of a 1 x 1 image, channels `c` (95, S1). -/
def header1 (c : Byte) : List Byte :=
  [0x71#8, 0x6F#8, 0x69#8, 0x66#8, 0#8, 0#8, 0#8, 1#8, 0#8, 0#8, 0#8, 1#8, c, 0#8]

/-- The stream of S1 (95): a 1 x 1 opaque black image. -/
def streamS1 : List Byte := header1 4#8 ++ [0x40#8, 0#8, 0#8, 0#8, 0#8]

/-! ### WellFormed refuses (R61, R62, R63) -/

theorem test_wf_width_zero : (Instr.header 0#32 1#32 4#8 0#8).wf = false := by decide
theorem test_wf_height_zero : (Instr.header 1#32 0#32 4#8 0#8).wf = false := by decide
theorem test_wf_channels_two : (Instr.header 1#32 1#32 2#8 0#8).wf = false := by decide
theorem test_wf_channels_five : (Instr.header 1#32 1#32 5#8 0#8).wf = false := by decide
theorem test_wf_accepts : (Instr.header 1#32 0xFFFFFFFF#32 3#8 255#8).wf = true := by decide

/-! ### Decoding, words written out bit by bit from the formats -/

/-- R68: `00 101010`. -/
theorem test_decode_index : decodeAt .chunk [0b00101010#8] = .ok (.index 0b101010#6) [] := by decide
/-- R69: `010 10110`. -/
theorem test_decode_runS : decodeAt .chunk [0b01010110#8] = .ok (.runS 0b10110#5) [] := by decide
/-- R70: `011 10010`, `01101001`, high part first. -/
theorem test_decode_runL : decodeAt .chunk [0b01110010#8, 0b01101001#8] = .ok (.runL 0b1001001101001#13) [] := by decide
/-- R71: `10 11 01 00`. -/
theorem test_decode_diffS : decodeAt .chunk [0b10110100#8] = .ok (.diffS 0b11#2 0b01#2 0b00#2) [] := by decide
/-- R72: `110 10011`, `1010 0110`. -/
theorem test_decode_diffM : decodeAt .chunk [0b11010011#8, 0b10100110#8] = .ok (.diffM 0b10011#5 0b1010#4 0b0110#4) [] := by
  decide
/-- R73: `1110 1010`, `1 01100 10`, `011 10110`. -/
theorem test_decode_diffL :
    decodeAt .chunk [0b11101010#8, 0b10110010#8, 0b01110110#8] = .ok (.diffL 0b10101#5 0b01100#5 0b10011#5 0b10110#5) [] := by
  decide
/-- R74: `1111 0110`, then G and B. -/
theorem test_decode_overwrite :
    decodeAt .chunk [0b11110110#8, 0x21#8, 0x43#8, 0x65#8] = .ok (.overwrite none (some 0x21#8) (some 0x43#8) none) [0x65#8] := by
  decide
/-- R60 to R64: "qoif", width 0x01020304, height 0x05060708, channels 9, color_space 10. -/
theorem test_decode_header :
    decodeAt .header [0x71#8, 0x6F#8, 0x69#8, 0x66#8, 1#8, 2#8, 3#8, 4#8, 5#8, 6#8, 7#8, 8#8, 9#8, 10#8] =
      .ok (.header 0x01020304#32 0x05060708#32 9#8 10#8) [] := by
  decide
/-- R76. -/
theorem test_decode_trailer : decodeAt .trailer [0#8, 0#8, 0#8, 0#8] = .ok .trailer [] := by decide
/-- V-H5: the magic is case-sensitive. -/
theorem test_decode_magic_case : decodeAt .header (0x51#8 :: (header1 4#8).tail) = .reject .badMagic := by decide
/-- R76: not a trailer. -/
theorem test_decode_not_trailer : decodeAt .trailer [0#8, 0#8, 1#8, 0#8] = .reject .notTrailer := by decide

/-- The boundary bytes of section 2.4, both ends of each kind's range. -/
theorem test_dispatch_boundaries :
    [0x00#8, 0x3F#8, 0x40#8, 0x5F#8, 0x60#8, 0x7F#8, 0x80#8, 0xBF#8, 0xC0#8, 0xDF#8, 0xE0#8, 0xEF#8, 0xF0#8, 0xFF#8].map
        dispatchTag =
      [.index, .index, .runS, .runS, .runL, .runL, .diffS, .diffS, .diffM, .diffM, .diffL, .diffL, .overwrite, .overwrite] := by
  decide

/-- The table's own words: the HEADER row by its first word and by all its bits, the TRAILER row, a chunk row. -/
theorem test_table_words :
    decodeTableWord 32 0x716F6966 = some (.header 0#32 0#32 0#8 0#8) ∧
      decodeTableWord 112 0x00040000000100000002716F6966 = some (.header 2#32 1#32 4#8 0#8) ∧
      decodeTableWord 32 0 = some .trailer ∧ decodeTableWord 8 0xF9 = some (.overwrite (some 0#8) none none (some 0#8)) ∧
      decodeTableWord 16 0x0B61 = some (.runL 267#13) := by
  decide +kernel

/-- A table word placed after reset is what the next step runs: a chunk, a header (its fields 0, so FormatError), the trailer. -/
theorem test_withFetchWord :
    (nextOf (step (State.reset.withFetchWord 16 0x60))).map (fun t => (t.dec.run, t.dec.ipos, t.dec.ppos)) = some (32#14, 2, 1) ∧
      (nextOf (step (State.reset.withFetchWord 112 0x716F6966))).map (fun t => (t.dec.err, t.dec.errPos)) = some (.format, 14) ∧
      (nextOf (step (State.reset.withFetchWord 32 0))).map (fun t => (t.enc.opos, t.enc.phase)) = some (4, .done) := by
  decide +kernel

/-! ### Steps of the decoder: the vectors of section 2.4 -/

/-- V-D1: the pixel goes to its own slot. -/
theorem test_index_5 : (nextOf (step (decVec [0x05#8]))).map (decSeen 4) =
    some (⟨1#8, 2#8, 3#8, 4#8⟩, 0#14, 1, ⟨1#8, 2#8, 3#8, 4#8⟩, some ⟨1#8, 2#8, 3#8, 4#8⟩) := by decide
/-- V-D4. -/
theorem test_runS_32 : (nextOf (step (decVec [0x5F#8]))).map (decSeen 5) =
    some (vecPrev, 31#14, 1, vecPrev, some vecPrev) := by decide
/-- V-D6. -/
theorem test_runL_300 : (nextOf (step (decVec [0x61#8, 0x0B#8]))).map (decSeen 5) =
    some (vecPrev, 299#14, 2, vecPrev, some vecPrev) := by decide
/-- V-D8. -/
theorem test_diffS_low : (nextOf (step (decVec [0x80#8]))).map (decSeen 15) =
    some (⟨98#8, 148#8, 198#8, 255#8⟩, 0#14, 1, ⟨98#8, 148#8, 198#8, 255#8⟩, some ⟨98#8, 148#8, 198#8, 255#8⟩) := by decide
/-- V-D11. -/
theorem test_diffM : (nextOf (step (decVec [0xD5#8, 0x5F#8]))).map (decSeen 10) =
    some (⟨105#8, 147#8, 207#8, 255#8⟩, 0#14, 2, ⟨105#8, 147#8, 207#8, 255#8⟩, some ⟨105#8, 147#8, 207#8, 255#8⟩) := by decide
/-- V-D18: alpha wraps. -/
theorem test_diffL : (nextOf (step (decVec [0xE1#8, 0x7C#8, 0x1F#8]))).map (decSeen 5) =
    some (⟨86#8, 165#8, 184#8, 14#8⟩, 0#14, 3, ⟨86#8, 165#8, 184#8, 14#8⟩, some ⟨86#8, 165#8, 184#8, 14#8⟩) := by decide
/-- V-D21. -/
theorem test_overwrite_rb : (nextOf (step (decVec [0xFA#8, 0x09#8, 0x07#8]))).map (decSeen 39) =
    some (⟨9#8, 150#8, 7#8, 255#8⟩, 0#14, 3, ⟨9#8, 150#8, 7#8, 255#8⟩, some ⟨9#8, 150#8, 7#8, 255#8⟩) := by decide
/-- V-D24: no byte read, nothing stored in slot 5. -/
theorem test_run_continuation :
    (nextOf (step { decVec [0x05#8] with dec := { (decVec []).dec with run := 2#14 } })).map (decSeen 5) =
      some (vecPrev, 1#14, 0, ⟨1#8, 2#8, 3#8, 4#8⟩, some vecPrev) := by decide
/-- V-T3: a DIFF_L cut after its second byte: IPOS at the end, nothing else changed. -/
theorem test_truncated :
    (nextOf (step (decVec [0xE8#8, 0x42#8]))).map (fun t => (t.dec.err, t.dec.errPos, t.dec.ipos, t.dec.prev, t.dst.bytes)) =
      some (.truncated, 2, 2, vecPrev, []) := by decide

/-! ### HEADER, TRAILER, HDR.EMIT -/

/-- V-H1. -/
theorem test_header_good :
    (nextOf (exec (.header 256#32 128#32 3#8 1#8) (decStarted [] true))).map
        (fun t => (t.dec.hdrWidth, t.dec.hdrHeight, t.dec.hdrChannels, t.dec.npix, t.dec.hdrValid, t.dec.phase)) =
      some (256#32, 128#32, 3#8, 32768, true, .pixels) := by decide
/-- V-H4: "qoig". -/
theorem test_header_bad_magic :
    (nextOf (step (decStarted ((header1 4#8).set 3 0x67#8) true))).map
        (fun t => (t.dec.err, t.dec.errPos, t.dec.hdrWidth, t.dec.hdrValid, t.dec.phase)) =
      some (.format, 14, 1#32, false, .error) := by decide
/-- R148. -/
theorem test_trailer :
    (nextOf (exec .trailer (encPhase .trailer))).map (fun t => (t.out, t.enc.opos, t.enc.phase)) =
      some ([(0, 0#8), (1, 0#8), (2, 0#8), (3, 0#8)], 4, .done) := by decide
/-- V-H14: nothing is validated, straight to the trailer. -/
theorem test_emit_header_unchecked :
    (nextOf (step (encStarted ⟨0#32, 7#32, 9#8, 2#8⟩ []))).map (fun t => (t.out.bytes, t.enc.opos, t.enc.phase)) =
      some ([0x71#8, 0x6F#8, 0x69#8, 0x66#8, 0#8, 0#8, 0#8, 0#8, 0#8, 0#8, 0#8, 7#8, 9#8, 2#8], 14, .trailer) := by decide

/-! ### Steps of the encoder: the vectors of section 2.5 -/

/-- V-E2. -/
theorem test_encode_diffS :
    (nextOf (step (encVec vecPrev 0#14 zeroCache ⟨98#8, 151#8, 199#8, 255#8⟩))).map (encSeen 13) =
      some ([0x8D#8], 0#14, ⟨98#8, 151#8, 199#8, 255#8⟩, ⟨98#8, 151#8, 199#8, 255#8⟩) := by decide
/-- V-E7. -/
theorem test_encode_diffM :
    (nextOf (step (encVec vecPrev 0#14 zeroCache ⟨115#8, 157#8, 192#8, 255#8⟩))).map (encSeen 17) =
      some ([0xDF#8, 0xF0#8], 0#14, ⟨115#8, 157#8, 192#8, 255#8⟩, ⟨115#8, 157#8, 192#8, 255#8⟩) := by decide
/-- V-E18. -/
theorem test_encode_diffL :
    (nextOf (step (encVec vecPrev 0#14 zeroCache ⟨100#8, 150#8, 200#8, 239#8⟩))).map (encSeen 21) =
      some ([0xE8#8, 0x42#8, 0x00#8], 0#14, ⟨100#8, 150#8, 200#8, 239#8⟩, ⟨100#8, 150#8, 200#8, 239#8⟩) := by decide
/-- V-E25: the difference does not wrap. -/
theorem test_encode_overwrite :
    (nextOf (step (encVec ⟨255#8, 0#8, 0#8, 255#8⟩ 0#14 zeroCache ⟨0#8, 0#8, 0#8, 255#8⟩))).map (encSeen 63) =
      some ([0xF8#8, 0x00#8], 0#14, ⟨0#8, 0#8, 0#8, 255#8⟩, ⟨0#8, 0#8, 0#8, 255#8⟩) := by decide
/-- V-E21: transparent black hits the untouched slot 0. -/
theorem test_encode_index :
    (nextOf (step (encVec vecPrev 0#14 zeroCache zeroPixel))).map (encSeen 0) =
      some ([0x00#8], 0#14, zeroPixel, zeroPixel) := by decide
/-- V-E28: the run's chunk before the pixel's. -/
theorem test_encode_flush_before_pixel :
    (nextOf (step (encVec ⟨11#8, 20#8, 30#8, 255#8⟩ 1#14 (zeroCache.set 63 ⟨10#8, 20#8, 30#8, 255#8⟩)
        ⟨10#8, 20#8, 30#8, 255#8⟩))).map (encSeen 63) =
      some ([0x40#8, 0x3F#8], 0#14, ⟨10#8, 20#8, 30#8, 255#8⟩, ⟨10#8, 20#8, 30#8, 255#8⟩) := by decide
/-- V-E10: the 8224th equal pixel flushes a full run. -/
theorem test_encode_full_run :
    (nextOf (step (encVec vecPrev 8223#14 zeroCache vecPrev))).map (encSeen 5) =
      some ([0x7F#8, 0xFF#8], 0#14, vecPrev, zeroPixel) := by decide
/-- R132: an equal pixel emits and stores nothing. -/
theorem test_encode_equal :
    (nextOf (step (encVec vecPrev 7#14 zeroCache vecPrev))).map (encSeen 5) = some ([], 8#14, vecPrev, zeroPixel) := by decide

/-! ### Arithmetic (section 2.2, 2.3) and the spaces -/

/-- V-C1, V-C4, V-C6, V-C7. -/
theorem test_slots :
    [slot ⟨0#8, 0#8, 0#8, 255#8⟩, slot ⟨10#8, 20#8, 30#8, 255#8⟩, slot ⟨200#8, 100#8, 50#8, 255#8⟩, slot ⟨128#8, 64#8, 0#8, 0#8⟩] =
      [63#6, 63#6, 33#6, 0#6] := by decide
/-- V-A1, V-A2, V-A3, V-A4, V-A6. -/
theorem test_add8 : [add8 200#8 15, add8 250#8 15, add8 255#8 1, add8 0#8 (-1), add8 5#8 (-16)] = [215#8, 9#8, 0#8, 255#8, 245#8] := by
  decide
/-- V-A9, V-A10, V-A11, V-A12, V-A14. -/
theorem test_fits :
    fitL ⟨-255, 0, 0, 0⟩ = false ∧ fitS ⟨2, 0, 0, 0⟩ = false ∧ fitM ⟨2, 0, 0, 0⟩ = true ∧ fitM ⟨0, 8, 0, 0⟩ = false ∧
      fitM ⟨0, 0, 0, -1⟩ = false ∧ fitL ⟨0, 0, 0, -1⟩ = true ∧ fitM ⟨15, 7, -8, 0⟩ = true := by decide
/-- R58: R at the lowest offset. -/
theorem test_pixel_bytes : Memory.writePixel [] 1 ⟨1#8, 2#8, 3#8, 4#8⟩ = [(4, 1#8), (5, 2#8), (6, 3#8), (7, 4#8)] := by decide

/-! ### Commands -/

/-- R174: what START leaves in ENC. -/
theorem test_start_enc :
    (nextOf (step (withAgenda [.host (.start .enc)] (encPhase .done)))).map
        (fun t => (t.enc.prev, t.enc.npix, t.enc.phase, lookup t.enc.cache 63)) =
      some (⟨0#8, 0#8, 0#8, 255#8⟩, 1, .header, zeroPixel) := by decide
/-- V-T7. -/
theorem test_io_fail :
    (nextOf (step (withAgenda [.host (.ioFail .dec)] (decPhase .pixels)))).map (fun t => (t.dec.err, t.dec.err.code, t.dec.phase)) =
      some (.io, 3, .error) := by decide
/-- R177: START is ignored while busy. -/
theorem test_start_ignored :
    nextOf (step (withAgenda [.host (.start .dec)] (decPhase .pixels))) = some (decPhase .pixels) := by decide +kernel

/-! ### Witnesses: states and operands that meet the hypotheses of the statements, clause by clause -/

/-- The decoder of the vectors with one pixel more than it may emit. -/
def decFull : State := { decVec [] with dec := { (decVec []).dec with ppos := 4 } }

/-- The decoder of the vectors in a run. -/
def decRunning : State := { decVec [0x05#8] with dec := { (decVec []).dec with run := 2#14 } }

/-- A decoder in its header phase, its turn next. -/
def decHeader (bs : List Byte) (ended : Bool) : State := withAgenda [.engine .dec] (decStarted bs ended)

/-- Both engines in the middle of a pass: DEC after the header of a 2 x 1 image and a first pixel, ENC just started. -/
def midPass : State :=
  { State.reset with
    dec := { startedDec 0 with
      prev := ⟨10#8, 20#8, 30#8, 255#8⟩, cache := store zeroCache ⟨10#8, 20#8, 30#8, 255#8⟩, ipos := 18, npix := 2, ppos := 1,
      hdrWidth := 2#32, hdrHeight := 1#32, hdrChannels := 4#8, hdrColorspace := 0#8, hdrValid := true, phase := .pixels }
    inp := [0x71#8, 0x6F#8, 0x69#8, 0x66#8, 0#8, 0#8, 0#8, 2#8, 0#8, 0#8, 0#8, 1#8, 4#8, 0#8, 0xFE#8, 0x0A#8, 0x14#8, 0x1E#8, 0xBA#8]
    inpEnded := true
    dst := [(0, 10#8), (1, 20#8), (2, 30#8), (3, 255#8)]
    enc := startedEnc ⟨1#32, 1#32, 4#8, 0#8⟩
    src := [⟨0#8, 0#8, 0#8, 255#8⟩] }

/-- `midPass` meets the invariant. -/
theorem witness_Inv : Inv midPass := by
  refine ⟨by decide, by decide, ⟨?_, ?_, ?_, ?_, ?_, ?_, ?_, ?_, ?_, ?_, ?_, ?_, ?_, ?_, ?_⟩, ⟨?_, ?_, ?_, ?_, ?_, ?_, ?_, ?_, ?_, ?_, ?_, ?_⟩⟩ <;>
    first
      | decide
      | (intro _; unfold Memory.dense; decide)
      | (intro _; unfold slotsHashed; decide)
      | (intro _; unfold headerLegal; decide)

theorem witness_EncodeOfDecodeIsTheBytes : decodeAt .chunk [0xF8#8, 0x74#8, 0xFF#8] = .ok (.overwrite (some 0x74#8) none none none) [0xFF#8] := by
  decide
/-- Each kind's least byte and greatest byte. -/
theorem witness_ChunkLengthFromTheFirstByte :
    ([0x00#8, 0x3F#8].all fun b => b.toNat / 64 == 0) && ([0x40#8, 0x5F#8].all fun b => b.toNat / 32 == 2) &&
      ([0x60#8, 0x7F#8].all fun b => b.toNat / 32 == 3) && ([0x80#8, 0xBF#8].all fun b => b.toNat / 64 == 2) &&
      ([0xC0#8, 0xDF#8].all fun b => b.toNat / 32 == 6) && ([0xE0#8, 0xEF#8].all fun b => b.toNat / 16 == 14) &&
      ([0xF0#8, 0xFF#8].all fun b => b.toNat / 16 == 15) = true := by decide
theorem witness_ChunkLength_decodes : decodeChunk [0xE8#8, 0x42#8, 0x11#8, 0x00#8] = .ok (.diffL 16#5 16#5 16#5 17#5) [0x00#8] := by
  decide
/-- As many bytes as the chunk has, and one too few. -/
theorem witness_NoChunkEncodingIsIllegal :
    chunkLength 0xFF#8 ≤ [1#8, 2#8, 3#8, 4#8].length + 1 ∧ [1#8, 2#8, 3#8].length + 1 < chunkLength 0xFF#8 := by decide
/-- A pixel is still to come, at the last pixel too. -/
theorem witness_chunk_results :
    (decVec []).dec.ppos < (decVec []).dec.npix ∧
      ({ decFull.dec with ppos := 3 } : DecCtx).ppos < decFull.dec.npix := by decide
theorem witness_LargeDiffAddsToPrev : (0xE1#8 : Byte).toNat / 16 = 14 ∧ 0x17C1F = (0xE1#8 : Byte).toNat % 16 * 65536 + (0x7C#8 : Byte).toNat * 256 + (0x1F#8 : Byte).toNat := by
  decide
theorem witness_OverwriteReplacesFlaggedChannels :
    (0xFA#8 : Byte).toNat / 16 = 15 ∧ (some 9#8).isSome = decide ((0xFA#8 : Byte).toNat / 8 % 2 = 1) ∧
      (none : Option Byte).isSome = decide ((0xFA#8 : Byte).toNat / 4 % 2 = 1) ∧ (some 7#8).isSome = decide ((0xFA#8 : Byte).toNat / 2 % 2 = 1) ∧
      (none : Option Byte).isSome = decide ((0xFA#8 : Byte).toNat % 2 = 1) := by decide
theorem witness_ChunkFrame :
    (Instr.index 5#6).position = .chunk ∧ (∃ t, exec (.index 5#6) (decVec []) = .next t) ∧ (∃ t, exec (.runS 3#5) (decVec []) = .next t) :=
  ⟨rfl, ⟨_, rfl⟩, ⟨_, rfl⟩⟩
theorem witness_ChunkStopsPastTheRaster :
    (Instr.runL 0#13).position = .chunk ∧ decFull.dec.npix ≤ decFull.dec.ppos ∧
      faultOf (exec (.runL 0#13) decFull) = some .noDestinationPixel := by decide
theorem witness_LegalHeaderIsAccepted : headerLegal 1#32 0xFFFFFFFF#32 3#8 ∧ headerLegal 0xFFFFFFFF#32 1#32 4#8 := by
  unfold headerLegal; decide
theorem witness_IllegalHeaderRaisesFormatError :
    [(0#32, 1#32, 4#8), (1#32, 0#32, 4#8), (1#32, 1#32, 2#8), (1#32, 1#32, 5#8)].all
      (fun x => decide (x.1 = 0#32 ∨ x.2.1 = 0#32 ∨ (x.2.2 ≠ 3#8 ∧ x.2.2 ≠ 4#8))) = true := by decide
theorem witness_HeaderFrame : (∃ t, exec (.header 2#32 3#32 3#8 1#8) (decHeader [] true) = .next t) ∧
    ∃ t, exec (.header 0#32 3#32 3#8 1#8) (decHeader [] true) = .next t := ⟨⟨_, rfl⟩, ⟨_, rfl⟩⟩

theorem witness_StepRuns_chunk :
    (decVec [0x05#8]).dec.phase = .pixels ∧ (decVec [0x05#8]).dec.run = 0#14 ∧ (decVec [0x05#8]).pxoAccepted = true ∧
      (decVec [0x05#8]).agenda = .engine .dec :: [] ∧ (withAgenda [] (decVec [0x05#8])).agenda = [] ∧
      decodeAt .chunk ((decVec [0x05#8]).inp.drop (decVec [0x05#8]).dec.ipos) = .ok (.index 5#6) [] := by decide
theorem witness_StepRuns_header :
    (decHeader streamS1 true).dec.phase = .header ∧ (decHeader streamS1 true).agenda = .engine .dec :: [] ∧
      (decStarted streamS1 true).agenda = [] ∧
      decodeAt .header (decHeader streamS1 true).inp = .ok (.header 1#32 1#32 4#8 0#8) [0x40#8, 0#8, 0#8, 0#8, 0#8] := by decide
theorem witness_StepRuns_trailer :
    (encPhase .trailer).enc.phase = .trailer ∧ (encPhase .trailer).boAccepted = true ∧ (encPhase .trailer).agenda = [] ∧
      (encPhase .trailer).dec.phase.busy = false ∧ (withAgenda [.engine .enc] (encPhase .trailer)).agenda = .engine .enc :: [] := by
  decide
theorem witness_RunContinuation :
    decRunning.agenda = .engine .dec :: [] ∧ decRunning.dec.phase = .pixels ∧ decRunning.dec.run ≠ 0#14 ∧
      decRunning.pxoAccepted = true ∧ decRunning.dec.ppos < decRunning.dec.npix := by decide
theorem witness_TruncatedChunkChangesNothingElse :
    ∀ bs ∈ [[], [0x60#8], [0xC0#8], [0xE8#8, 0x42#8], [0xFF#8, 1#8, 2#8, 3#8]],
      (decVec bs).agenda = .engine .dec :: [] ∧ (decVec bs).dec.phase = .pixels ∧ (decVec bs).dec.run = 0#14 ∧
        (decVec bs).inpEnded = true ∧ (decVec bs).dec.ipos ≤ (decVec bs).inp.length ∧
        decodeAt .chunk ((decVec bs).inp.drop (decVec bs).dec.ipos) = .reject .endOfStream := by decide
theorem witness_ShortHeaderRaisesFormatError :
    ∀ bs ∈ [[], streamS1.take 13], ∀ e ∈ [true, false],
      (decHeader bs e).agenda = .engine .dec :: [] ∧ (decHeader bs e).dec.phase = .header ∧ (decHeader bs e).inp.length < 14 ∧
        (decHeader bs e).inpEnded = e := by decide
theorem witness_HeaderStepJudgesTheHeader :
    (decHeader streamS1 true).agenda = .engine .dec :: [] ∧ (decHeader streamS1 true).dec.phase = .header ∧
      (decHeader streamS1 true).inp =
        0x71#8 :: 0x6F#8 :: 0x69#8 :: 0x66#8 :: 0#8 :: 0#8 :: 0#8 :: 1#8 :: 0#8 :: 0#8 :: 0#8 :: 1#8 :: 4#8 :: 0#8 ::
          [0x40#8, 0#8, 0#8, 0#8, 0#8] := by decide
/-- Its failing clause: channels 2 (P6). -/
theorem witness_HeaderStepJudges_rejects :
    (decHeader (header1 2#8) true).inp =
        0x71#8 :: 0x6F#8 :: 0x69#8 :: 0x66#8 :: 0#8 :: 0#8 :: 0#8 :: 1#8 :: 0#8 :: 0#8 :: 0#8 :: 1#8 :: 2#8 :: 0#8 :: [] ∧
      (nextOf (step (decHeader (header1 2#8) true))).map (fun t => (t.dec.phase, t.dec.errPos)) = some (.error, 14) := by decide
theorem witness_Waits_byte :
    let s := { decVec [0x60#8] with inpEnded := false }
    s.agenda = .engine .dec :: [] ∧ s.dec.phase = .pixels ∧ s.dec.run = 0#14 ∧ s.inpEnded = false ∧
      decodeAt .chunk (s.inp.drop s.dec.ipos) = .reject .endOfStream := by decide
theorem witness_Waits_run :
    let s := { decRunning with pxoAccepted := false }
    s.agenda = .engine .dec :: [] ∧ s.dec.phase = .pixels ∧ s.dec.run ≠ 0#14 ∧ s.pxoAccepted = false := by decide
theorem witness_Waits_pixelOut :
    let s := { decVec [0x05#8] with pxoAccepted := false }
    s.agenda = .engine .dec :: [] ∧ s.dec.phase = .pixels ∧ s.dec.run = 0#14 ∧ s.pxoAccepted = false ∧
      decodeAt .chunk (s.inp.drop s.dec.ipos) = .ok (.index 5#6) [] := by decide
theorem witness_Waits_pixelIn :
    let s := { encVec vecPrev 0#14 zeroCache vecPrev with src := [] }
    s.agenda = .engine .enc :: [] ∧ s.enc.phase = .pixels ∧ s.src.length ≤ s.enc.ppos := by decide
theorem witness_Waits_byteOut :
    ∀ p ∈ [Phase.header, Phase.trailer],
      let s := { withAgenda [.engine .enc] (encPhase p) with boAccepted := false }
      s.agenda = .engine .enc :: [] ∧ s.boAccepted = false ∧ (s.enc.phase = .header ∨ s.enc.phase = .trailer) := by decide
/-- The first of the two bytes V-E28 emits cannot leave. -/
theorem witness_Waits_pixelBytesOut :
    let s := { encVec ⟨11#8, 20#8, 30#8, 255#8⟩ 1#14 zeroCache ⟨10#8, 20#8, 30#8, 255#8⟩ with boAccepted := false }
    s.agenda = .engine .enc :: [] ∧ s.boAccepted = false ∧ s.enc.phase = .pixels ∧
      s.src[s.enc.ppos]? = some ⟨10#8, 20#8, 30#8, 255#8⟩ ∧ pixelChunks s.enc ⟨10#8, 20#8, 30#8, 255#8⟩ ≠ [] := by decide
theorem witness_RestingEnginesDoNothing :
    ∀ p ∈ [Phase.idle, Phase.done, Phase.error],
      (withAgenda [.engine .dec] (decPhase p)).agenda = .engine .dec :: [] ∧ (decPhase p).phaseOf .dec = p ∧
        (withAgenda [.engine .enc] (encPhase p)).agenda = .engine .enc :: [] ∧ (encPhase p).phaseOf .enc = p := by decide

theorem witness_HeaderEmission :
    let s := withAgenda [.engine .enc] (encPhase .header)
    s.agenda = .engine .enc :: [] ∧ s.enc.phase = .header ∧ s.boAccepted = true := by decide
/-- The longest run that is not flushed. -/
theorem witness_EqualPixelOnlyCounts :
    let s := encVec vecPrev 8222#14 zeroCache vecPrev
    s.agenda = .engine .enc :: [] ∧ s.enc.phase = .pixels ∧ s.enc.ppos + 1 < s.enc.npix ∧ s.src[s.enc.ppos]? = some s.enc.prev ∧
      s.enc.run.toNat + 1 < 8224 := by decide
theorem witness_FullRunIsFlushed :
    let s := encVec vecPrev 8223#14 zeroCache vecPrev
    s.agenda = .engine .enc :: [] ∧ s.enc.phase = .pixels ∧ s.boAccepted = true ∧ s.enc.ppos < s.enc.npix ∧
      s.src[s.enc.ppos]? = some s.enc.prev ∧ s.enc.run.toNat < 8224 ∧ s.enc.run.toNat + 1 = 8224 := by decide
theorem witness_LastRunIsFlushed :
    let s := { encVec vecPrev 0#14 zeroCache vecPrev with enc := { (encVec vecPrev 0#14 zeroCache vecPrev).enc with npix := 1 } }
    s.agenda = .engine .enc :: [] ∧ s.enc.phase = .pixels ∧ s.boAccepted = true ∧ s.enc.ppos < s.enc.npix ∧
      s.src[s.enc.ppos]? = some s.enc.prev ∧ s.enc.run.toNat < 8224 ∧ s.enc.ppos + 1 = s.enc.npix := by decide
/-- Without a pending run and with the longest. -/
theorem witness_DifferingPixelIsEmitted :
    [0#14, 8223#14].all (fun r =>
      let s := encVec vecPrev r zeroCache zeroPixel
      decide (s.agenda = .engine .enc :: [] ∧ s.enc.phase = .pixels ∧ s.boAccepted = true ∧ s.enc.ppos < s.enc.npix ∧
        s.src[s.enc.ppos]? = some zeroPixel ∧ zeroPixel ≠ s.enc.prev)) = true := by decide
theorem witness_RunChunkBytes :
    (1 ≤ (1#14).toNat ∧ (32#14).toNat ≤ 32) ∧ (33 ≤ (33#14).toNat ∧ (8224#14).toNat ≤ 8224) := by decide
/-- The five branches of the selection: V-E20, V-E1, V-E6, V-E8, V-E22. -/
theorem witness_SelectionAndItsBytes :
    lookup (zeroCache.set 4 ⟨101#8, 150#8, 200#8, 255#8⟩) (slot ⟨101#8, 150#8, 200#8, 255#8⟩) = ⟨101#8, 150#8, 200#8, 255#8⟩ ∧
      (∀ p ∈ [(⟨101#8, 150#8, 200#8, 255#8⟩ : Pixel), ⟨84#8, 142#8, 207#8, 255#8⟩, ⟨100#8, 158#8, 200#8, 255#8⟩,
        ⟨116#8, 150#8, 200#8, 255#8⟩], p ≠ vecPrev ∧ lookup zeroCache (slot p) ≠ p) ∧
      [(⟨101#8, 150#8, 200#8, 255#8⟩ : Pixel), ⟨84#8, 142#8, 207#8, 255#8⟩, ⟨100#8, 158#8, 200#8, 255#8⟩,
        ⟨116#8, 150#8, 200#8, 255#8⟩].map (fun p => (fitS (delta p vecPrev), fitM (delta p vecPrev), fitL (delta p vecPrev))) =
        [(true, true, true), (false, true, true), (false, false, true), (false, false, false)] := by decide
theorem witness_EmittedChunksRebuildThePixels :
    zeroPixel ≠ (decVec []).dec.prev ∧ (decVec []).dec.ppos < (decVec []).dec.npix ∧
      (lookup zeroCache (slot zeroPixel) = zeroPixel ∧ lookup (decVec []).dec.cache (slot zeroPixel) = zeroPixel) ∧
      1 ≤ (1#14).toNat ∧ (8224#14).toNat ≤ 8224 := by decide
theorem witness_ModularAdderLaws : 0 ≤ ((255#8 : Byte).toNat : Int) + (-255) ∧ ((0#8 : Byte).toNat : Int) + 255 ≤ 255 := by decide

theorem witness_StartGivesTheInitialState :
    (∀ p ∈ [Phase.idle, Phase.done, Phase.error],
      (withAgenda [.host (.start .dec)] (decPhase p)).agenda = .host (.start .dec) :: [] ∧ (decPhase p).dec.phase = p ∧
        (withAgenda [.host (.start .enc)] (encPhase p)).agenda = .host (.start .enc) :: [] ∧ (encPhase p).enc.phase = p) ∧
      ∀ p ∈ [Phase.header, Phase.pixels, Phase.trailer],
        (withAgenda [.host (.start .enc)] (encPhase p)).agenda = .host (.start .enc) :: [] ∧ (encPhase p).phaseOf .enc = p := by
  decide
theorem witness_AbortEndsThePass :
    (withAgenda [.host (.abort .dec)] midPass).agenda = .host (.abort .dec) :: [] ∧
      (withAgenda [.host (.abort .enc)] midPass).agenda = .host (.abort .enc) :: [] := by decide
theorem witness_IoFailTakesTheErrorEntry :
    (∀ p ∈ [Phase.header, Phase.pixels, Phase.trailer],
      (withAgenda [.host (.ioFail .dec)] (decPhase p)).agenda = .host (.ioFail .dec) :: [] ∧ (decPhase p).dec.phase = p ∧
        (withAgenda [.host (.ioFail .enc)] (encPhase p)).agenda = .host (.ioFail .enc) :: [] ∧ (encPhase p).enc.phase = p) ∧
      ∀ p ∈ [Phase.idle, Phase.done, Phase.error],
        (withAgenda [.host (.ioFail .dec)] (decPhase p)).agenda = .host (.ioFail .dec) :: [] ∧ (decPhase p).phaseOf .dec = p := by
  decide
/-- A header step that has all its 14 bytes. -/
theorem witness_IoFail_header :
    let s := withAgenda [.host (.ioFail .dec)] (decStarted streamS1 true)
    s.agenda = .host (.ioFail .dec) :: [] ∧ s.dec.phase = .header ∧ (headerParts s.inp).isSome = true := by decide
/-- A port of each kind, where what is offered counts and where it is dropped: the last pixel of the image and one beyond it. -/
theorem witness_HostPortsCarryWhatIsOffered :
    (withAgenda [.host (.offerByte 7#8)] (decStarted [] false)).agenda = .host (.offerByte 7#8) :: [] ∧
      (decStarted [] false).dec.phase = .header ∧ (decStarted [] false).inpEnded = false ∧ (decStarted [] true).inpEnded = true ∧
      (withAgenda [.host .endOfStream] (decStarted [] false)).agenda = .host .endOfStream :: [] ∧
      (withAgenda [.host (.offerPixel vecPrev)] (decPhase .done)).agenda = .host (.offerPixel vecPrev) :: [] ∧
      (encStarted ⟨1#32, 2#32, 4#8, 0#8⟩ [prevInit]).enc.phase = .header ∧
      (encStarted ⟨1#32, 2#32, 4#8, 0#8⟩ [prevInit]).src.length < (encStarted ⟨1#32, 2#32, 4#8, 0#8⟩ [prevInit]).enc.npix ∧
      (encStarted ⟨1#32, 1#32, 4#8, 0#8⟩ [prevInit]).enc.npix ≤ (encStarted ⟨1#32, 1#32, 4#8, 0#8⟩ [prevInit]).src.length ∧
      (withAgenda [.host (.driveCfg zeroCfg)] (decPhase .idle)).agenda = .host (.driveCfg zeroCfg) :: [] ∧
      (withAgenda [.host (.acceptPixels false)] (decPhase .idle)).agenda = .host (.acceptPixels false) :: [] ∧
      (withAgenda [.host (.acceptBytes false)] (decPhase .idle)).agenda = .host (.acceptBytes false) :: [] ∧
      (nextOf (exec .trailer (encPhase .trailer))).map (fun t => [2, 3, 4].map (boLast t)) = some [false, true, false] ∧
      (encPhase .trailer).enc.phase ≠ .done := by decide
theorem witness_HardwareResetValues : (withAgenda [.host .hardReset] midPass).agenda = .host .hardReset :: [] := by decide

/-- A step of `midPass` that runs a chunk; its agenda asks for no new pass. The statements about every step, with or without the
invariant (`witness_Inv`), have this instance of their hypotheses. -/
theorem witness_step : (∃ t, step midPass = .next t) ∧ (∀ a ∈ midPass.agenda.head?, resetsDec a = false) ∧
    (∀ a ∈ midPass.agenda.head?, resetsEnc a = false) ∧ (∀ l, midPass.agenda ≠ .host (.start .enc) :: l) ∧
    (∀ l, midPass.agenda ≠ .host (.start .dec) :: l) ∧ midPass.out.wf = true ∧ midPass.dst.wf = true :=
  ⟨⟨_, rfl⟩, by decide, by decide, by intro l; simp [midPass, State.reset], by intro l; simp [midPass, State.reset], by decide,
    by decide⟩
theorem witness_bytesToKeep : midPass.dst.read 3 = some 255#8 := by decide
theorem witness_engineTurns :
    (∃ t, step (withAgenda [.engine .dec] midPass) = .next t) ∧ (∃ t, step (withAgenda [.engine .enc] midPass) = .next t) :=
  ⟨⟨_, rfl⟩, ⟨_, rfl⟩⟩
/-- Two states that differ outside the decoder (the encoder) only. -/
theorem witness_EnginesDependOnlyOnTheirOwn :
    SameDecoder (withAgenda [.engine .dec] midPass) { withAgenda [.engine .dec] midPass with enc := EncCtx.reset } ∧
      SameEncoder (withAgenda [.engine .enc] midPass) { withAgenda [.engine .enc] midPass with dec := DecCtx.reset } :=
  ⟨⟨rfl, rfl, rfl, rfl, rfl⟩, ⟨rfl, rfl, rfl, rfl⟩⟩
theorem witness_HeaderValidSetOnlyByTheHeaderStep :
    (decHeader streamS1 true).dec.hdrValid = false ∧
      (nextOf (step (decHeader streamS1 true))).map (fun t => t.dec.hdrValid) = some true := by decide
/-- Either outcome of a pixel step that does not wait. -/
theorem witness_DecoderPixelStepProgresses :
    ∀ bs ∈ [[], [0x05#8]], (decVec bs).agenda = .engine .dec :: [] ∧ (decVec bs).dec.phase = .pixels ∧
      (decVec bs).dec.ppos < (decVec bs).dec.npix ∧ (decVec bs).pxoAccepted = true ∧ (decVec bs).inpEnded = true := by decide

/-! ### Witnesses of the whole passes -/

/-- A decode pass over S1's stream begins here; over it cut at 14 too. -/
theorem witness_DecodeStart (bs : List Byte) : DecodeStart bs (decStarted bs true) := ⟨⟨0, rfl⟩, rfl, rfl, rfl, rfl, rfl⟩
/-- An encode pass over S1's image begins here. -/
theorem witness_EncodeStart : EncodeStart ⟨1#32, 1#32, 4#8, 0#8⟩ [prevInit] (encStarted ⟨1#32, 1#32, 4#8, 0#8⟩ [prevInit]) :=
  ⟨rfl, rfl, rfl, by decide, rfl, rfl, rfl⟩
theorem witness_headerLegal : headerLegal 1#32 1#32 4#8 := by unfold headerLegal; decide
/-- S1: the encode pass and its bytes, the premise of the round trip and of coherence. -/
theorem witness_DecodingAnEncodedImageGivesItBack :
    (nextOf (steps 3 (encStarted ⟨1#32, 1#32, 4#8, 0#8⟩ [prevInit]))).map (fun te => te.out.bytes) = some streamS1 := by
  decide +kernel
/-- Coherence after every pixel of S1: both passes reach the state after the header and the state after the pixel. -/
theorem witness_CachesStayCoherent :
    ∀ k ∈ [0, 1], (nextOf (steps (k + 1) (encStarted ⟨1#32, 1#32, 4#8, 0#8⟩ [prevInit]))).isSome = true ∧
      (nextOf (steps (k + 1) (decStarted streamS1 true))).isSome = true := by decide +kernel
/-- S1's stream has one place to cut: 14. -/
theorem witness_CutStreamsFailAsTruncated :
    (nextOf (steps 3 (encStarted ⟨1#32, 1#32, 4#8, 0#8⟩ [prevInit]))).map (fun te => decide (14 + 4 < te.enc.opos)) = some true := by
  decide +kernel
/-- One pixel, S1's. -/
theorem witness_OpaqueBlackImageIsRunChunks :
    EncodeStart ⟨1#32, 1#32, 4#8, 0#8⟩ (List.replicate 1 ⟨0#8, 0#8, 0#8, 255#8⟩)
      (encStarted ⟨1#32, 1#32, 4#8, 0#8⟩ (List.replicate 1 ⟨0#8, 0#8, 0#8, 255#8⟩)) :=
  ⟨rfl, rfl, rfl, by decide, rfl, rfl, rfl⟩

end Sys2Proof.Tests
end

section
/-!
PROOFS. The laws of ADD8 (R101, R102): every equation between channels is one of residues modulo 256.
-/
namespace Sys2Proof.Machine

/-- How an equation about ADD8 is shown: two channels are equal exactly when their residues are. -/
theorem add8_eq_iff (x y : Byte) (d : Int) : add8 x d = y ↔ ((x.toNat : Int) + d) % 256 = y.toNat := by
  rw [← add8_toNat, Int.ofNat_inj, BitVec.toNat_inj]

theorem add8_zero (x : Byte) : add8 x 0 = x := by
  rw [add8_eq_iff]
  have := x.isLt
  omega

theorem add8_add8 (x : Byte) (d e : Int) : add8 (add8 x d) e = add8 x (d + e) := by
  rw [add8_eq_iff, add8_toNat, add8_toNat, Int.emod_add_emod, Int.add_assoc]

theorem add8_emod (x : Byte) (d : Int) : add8 x d = add8 x (d % 256) := by
  rw [add8_eq_iff, add8_toNat, Int.add_emod_emod]

theorem add8_toNat_of_mem_range (x : Byte) (d : Int) (hlo : 0 ≤ (x.toNat : Int) + d) (hhi : (x.toNat : Int) + d ≤ 255) :
    ((add8 x d).toNat : Int) = (x.toNat : Int) + d := by
  rw [add8_toNat]
  exact Int.emod_eq_of_lt hlo (by omega)

theorem add8_add8_neg (x : Byte) (d : Int) : add8 (add8 x d) (-d) = x := by
  rw [add8_add8, Int.add_right_neg, add8_zero]

/-- Settles O35: R101 and the laws (a) to (e) of R102, each by the lemma that states it. -/
theorem modularAdderLaws : Obligations.ModularAdderLaws := fun x d e =>
  ⟨add8_toNat x d, add8_zero x, add8_add8 x d e, add8_emod x d, add8_toNat_of_mem_range x d, add8_add8_neg x d⟩

end Sys2Proof.Machine
end

section
/-!
PROOFS. What one step does to each engine's own part of the state: the turns leave the other engine alone, and every action of
the host does one of a few things to a context. The statements about every step are derived from these.
-/
namespace Sys2Proof.Machine

/-! ### PHASE (R32) -/

theorem Phase.busy_iff (p : Phase) : p.busy = true ↔ p = .header ∨ p = .pixels ∨ p = .trailer := by
  cases p <;> decide

theorem Phase.busy_eq_false_iff (p : Phase) : p.busy = false ↔ p = .idle ∨ p = .done ∨ p = .error := by
  cases p <;> decide

theorem Phase.isDone_iff (p : Phase) : p.isDone = true ↔ p = .done := by
  simp [Phase.isDone]

theorem Phase.isError_iff (p : Phase) : p.isError = true ↔ p = .error := by
  simp [Phase.isError]

@[simp] theorem State.phaseOf_dec (s : State) : s.phaseOf .dec = s.dec.phase := rfl
@[simp] theorem State.phaseOf_enc (s : State) : s.phaseOf .enc = s.enc.phase := rfl

/-! ### A step with an agenda -/

theorem step_of_host {s : State} {a : HostAction} {l : List Action} (h : s.agenda = .host a :: l) :
    step s = .next (hostAct a (popAgenda s)) := by
  simp [step, nextTurn, h, actionTurn, playTurn]

theorem step_of_engine {s : State} {e : Engine} {l : List Action} (h : s.agenda = .engine e :: l) :
    step s = playTurn (engineTurn e (popAgenda s)) (popAgenda s) := by
  simp [step, nextTurn, h, actionTurn]

/-! ### A turn of one engine leaves the rest of the state -/

theorem DecMove.onlyDecoder {s t : State} (h : DecMove s t) : OnlyDecoder s t := by
  cases h <;> exact ⟨rfl, rfl, rfl, rfl, rfl, rfl, rfl, rfl, rfl, rfl⟩

theorem onlyEncoder_setEnc_emitBytes (bs : List Byte) (e : EncCtx) (s : State) : OnlyEncoder s ((emitBytes bs s).setEnc e) :=
  ⟨rfl, rfl, rfl, rfl, rfl, rfl, rfl, rfl, rfl, rfl⟩

theorem onlyEncoder_emitBytes_setEnc (bs : List Byte) (e : EncCtx) (s : State) : OnlyEncoder s (emitBytes bs (s.setEnc e)) :=
  ⟨rfl, rfl, rfl, rfl, rfl, rfl, rfl, rfl, rfl, rfl⟩

theorem EncMove.onlyEncoder {s t : State} (h : EncMove s t) : OnlyEncoder s t := by
  cases h with
  | rests => exact ⟨rfl, rfl, rfl, rfl, rfl, rfl, rfl, rfl, rfl, rfl⟩
  | header hp => exact onlyEncoder_setEnc_emitBytes _ _ s
  | pixel hp hlt p hsrc => exact onlyEncoder_emitBytes_setEnc _ _ s
  | trailer hp => exact onlyEncoder_setEnc_emitBytes _ _ s

/-- Settles O42: each engine's moves, by the frame lemma of its move. -/
theorem enginesTouchOnlyTheirOwn : Obligations.EnginesTouchOnlyTheirOwn := by
  refine ⟨fun s t l hag h => ?_, fun s t l hag h => ?_⟩
  · rw [step_of_engine hag] at h
    exact (decTurn_move h).onlyDecoder
  · rw [step_of_engine hag] at h
    exact (encTurn_move h).onlyEncoder

/-! ### What the host does to one engine's part -/

/-- What the decoder's invariant speaks of is the same in both states. -/
structure SameDecPart (s t : State) : Prop where
  dec : t.dec = s.dec
  inp : t.inp = s.inp
  inpEnded : t.inpEnded = s.inpEnded
  dst : t.dst = s.dst

/-- What the encoder's invariant speaks of is the same in both states. -/
structure SameEncPart (s t : State) : Prop where
  enc : t.enc = s.enc
  src : t.src = s.src
  out : t.out = s.out

theorem OnlyEncoder.sameDecPart {s t : State} (h : OnlyEncoder s t) : SameDecPart s t := ⟨h.dec, h.inp, h.inpEnded, h.dst⟩

theorem OnlyDecoder.sameEncPart {s t : State} (h : OnlyDecoder s t) : SameEncPart s t := ⟨h.enc, h.src, h.out⟩

/-- What an action of the host can do to the decoder's part: nothing, end the pass (R173, R177), begin one (R174), abandon its
step (R158), lengthen or end its stream (R178). -/
inductive HostOnDec (s : State) : HostAction → State → Prop where
  | keeps {a : HostAction} {t : State} (hsame : SameDecPart s t) : HostOnDec s a t
  | idles {a : HostAction} {t : State} (ha : resetsDec (.host a) = true) (hphase : t.dec.phase = .idle) (herr : t.dec.err = .none)
      (hvalid : t.dec.hdrValid = true → s.dec.hdrValid = true) (hdst : t.dst = s.dst) : HostOnDec s a t
  | starts {t : State} (hrest : s.dec.phase.busy = false) (k : Nat) (hdec : t.dec = startedDec k) (hinp : t.inp = [])
      (hdst : t.dst = []) : HostOnDec s (.start .dec) t
  | fails {t : State} (hbusy : s.dec.phase.busy = true) (w h : Word) (c cs : Byte)
      (hdec : t.dec = { s.dec with
        ipos := failPosition s, hdrWidth := w, hdrHeight := h, hdrChannels := c, hdrColorspace := cs,
        err := .io, errPos := failPosition s, phase := .error })
      (hinp : t.inp = s.inp) (hended : t.inpEnded = s.inpEnded) (hdst : t.dst = s.dst) : HostOnDec s (.ioFail .dec) t
  | offers {a : HostAction} {t : State} (hbusy : s.dec.phase.busy = true) (hdec : t.dec = s.dec)
      (hinp : s.inp.length ≤ t.inp.length) (hdst : t.dst = s.dst) : HostOnDec s a t

/-- What an action of the host can do to the encoder's part: nothing, end the pass, begin one, abandon its step, or add a pixel
to its source. -/
inductive HostOnEnc (s : State) : HostAction → State → Prop where
  | keeps {a : HostAction} {t : State} (hsame : SameEncPart s t) : HostOnEnc s a t
  | idles {a : HostAction} {t : State} (ha : resetsEnc (.host a) = true) (hphase : t.enc.phase = .idle) (herr : t.enc.err = .none)
      (hout : t.out = s.out) : HostOnEnc s a t
  | starts {t : State} (hrest : s.enc.phase.busy = false) (henc : t.enc = startedEnc s.cfgIn) (hsrc : t.src = [])
      (hout : t.out = []) : HostOnEnc s (.start .enc) t
  | fails {t : State} (hbusy : s.enc.phase.busy = true) (henc : t.enc = { s.enc with err := .io, phase := .error })
      (hsrc : t.src = s.src) (hout : t.out = s.out) : HostOnEnc s (.ioFail .enc) t
  | offers {p : Pixel} {t : State} (hbusy : s.enc.phase.busy = true) (hroom : s.src.length < s.enc.npix) (henc : t.enc = s.enc)
      (hsrc : t.src = s.src ++ [p]) (hout : t.out = s.out) : HostOnEnc s (.offerPixel p) t

theorem startCommand_onDec (e : Engine) (s : State) : HostOnDec s (.start e) (startCommand e s) := by
  unfold startCommand
  split
  · rename_i hacc
    cases e with
    | dec => exact .starts (by simpa [startAccepted] using hacc) _ rfl rfl rfl
    | enc => exact .keeps ⟨rfl, rfl, rfl, rfl⟩
  · exact .keeps ⟨rfl, rfl, rfl, rfl⟩

theorem startCommand_onEnc (e : Engine) (s : State) : HostOnEnc s (.start e) (startCommand e s) := by
  unfold startCommand
  split
  · rename_i hacc
    cases e with
    | dec => exact .keeps ⟨rfl, rfl, rfl⟩
    | enc => exact .starts (by simpa [startAccepted] using hacc) rfl rfl rfl
  · exact .keeps ⟨rfl, rfl, rfl⟩

theorem abortedValid_imp {k : Nat} {valid : Bool} (h : abortedValid k valid = true) : valid = true :=
  (Bool.and_eq_true_iff.mp h).1

theorem ioFailCommand_onDec (e : Engine) (s : State) : HostOnDec s (.ioFail e) (ioFailCommand e s) := by
  unfold ioFailCommand
  split
  · rename_i hbusy
    cases e with
    | dec =>
      obtain ⟨w, h, c, cs, hab, _⟩ := abandonDec_cases s
      exact .fails hbusy w h c cs (by rw [hab]; rfl) (abandonDec_inp s) (abandonDec_inpEnded s) (abandonDec_dst s)
    | enc => exact .keeps ⟨rfl, rfl, rfl, rfl⟩
  · exact .keeps ⟨rfl, rfl, rfl, rfl⟩

theorem ioFailCommand_onEnc (e : Engine) (s : State) : HostOnEnc s (.ioFail e) (ioFailCommand e s) := by
  unfold ioFailCommand
  split
  · rename_i hbusy
    cases e with
    | dec => exact .keeps ⟨abandonDec_enc s, abandonDec_src s, abandonDec_out s⟩
    | enc => exact .fails hbusy rfl rfl rfl
  · exact .keeps ⟨rfl, rfl, rfl⟩

theorem offerByte_onDec (b : Byte) (s : State) : HostOnDec s (.offerByte b) (offerByte b s) := by
  unfold offerByte
  split
  · rename_i hacc
    exact .offers (Bool.and_eq_true_iff.mp hacc).1 rfl (by simp) rfl
  · exact .keeps ⟨rfl, rfl, rfl, rfl⟩

theorem signalEnd_onDec (s : State) : HostOnDec s .endOfStream (signalEnd s) := by
  unfold signalEnd
  split
  · exact .offers ‹_› rfl (le_refl _) rfl
  · exact .keeps ⟨rfl, rfl, rfl, rfl⟩

theorem offerPixel_onEnc (p : Pixel) (s : State) : HostOnEnc s (.offerPixel p) (offerPixel p s) := by
  unfold offerPixel
  split
  · rename_i hacc
    obtain ⟨hbusy, hroom⟩ := Bool.and_eq_true_iff.mp hacc
    exact .offers hbusy (of_decide_eq_true hroom) rfl rfl rfl
  · exact .keeps ⟨rfl, rfl, rfl⟩

theorem offerPixel_sameDecPart (p : Pixel) (s : State) : SameDecPart s (offerPixel p s) := by
  unfold offerPixel
  split <;> exact ⟨rfl, rfl, rfl, rfl⟩

theorem offerByte_sameEncPart (b : Byte) (s : State) : SameEncPart s (offerByte b s) := by
  unfold offerByte
  split <;> exact ⟨rfl, rfl, rfl⟩

theorem signalEnd_sameEncPart (s : State) : SameEncPart s (signalEnd s) := by
  unfold signalEnd
  split <;> exact ⟨rfl, rfl, rfl⟩

theorem hostAct_onDec (a : HostAction) (s : State) : HostOnDec s a (hostAct a s) := by
  cases a with
  | hardReset => exact .idles rfl rfl rfl (fun h => by cases h) rfl
  | start e => exact startCommand_onDec e s
  | abort e =>
    cases e with
    | dec => exact .idles rfl rfl rfl abortedValid_imp rfl
    | enc => exact .keeps ⟨rfl, rfl, rfl, rfl⟩
  | ioFail e => exact ioFailCommand_onDec e s
  | driveCfg c => exact .keeps ⟨rfl, rfl, rfl, rfl⟩
  | offerByte b => exact offerByte_onDec b s
  | endOfStream => exact signalEnd_onDec s
  | offerPixel p => exact .keeps (offerPixel_sameDecPart p s)
  | acceptPixels b => exact .keeps ⟨rfl, rfl, rfl, rfl⟩
  | acceptBytes b => exact .keeps ⟨rfl, rfl, rfl, rfl⟩

theorem hostAct_onEnc (a : HostAction) (s : State) : HostOnEnc s a (hostAct a s) := by
  cases a with
  | hardReset => exact .idles rfl rfl rfl rfl
  | start e => exact startCommand_onEnc e s
  | abort e =>
    cases e with
    | dec => exact .keeps ⟨rfl, rfl, rfl⟩
    | enc => exact .idles rfl rfl rfl rfl
  | ioFail e => exact ioFailCommand_onEnc e s
  | driveCfg c => exact .keeps ⟨rfl, rfl, rfl⟩
  | offerByte b => exact .keeps (offerByte_sameEncPart b s)
  | endOfStream => exact .keeps (signalEnd_sameEncPart s)
  | offerPixel p => exact offerPixel_onEnc p s
  | acceptPixels b => exact .keeps ⟨rfl, rfl, rfl⟩
  | acceptBytes b => exact .keeps ⟨rfl, rfl, rfl⟩

/-! ### What a step does to one engine's part -/

/-- To the decoder's part a step does what the host's action does, or what one move of DEC does, or nothing. -/
theorem step_onDec {s t : State} (h : step s = .next t) :
    (∃ a l, s.agenda = .host a :: l ∧ HostOnDec (popAgenda s) a t) ∨ DecMove (popAgenda s) t ∨ SameDecPart (popAgenda s) t := by
  rcases step_cases h with ⟨a, l, hag, rfl⟩ | hmove | hmove
  · exact .inl ⟨a, l, hag, hostAct_onDec a _⟩
  · exact .inr (.inl hmove)
  · exact .inr (.inr hmove.onlyEncoder.sameDecPart)

/-- To the encoder's part a step does what the host's action does, or what one move of ENC does, or nothing. -/
theorem step_onEnc {s t : State} (h : step s = .next t) :
    (∃ a l, s.agenda = .host a :: l ∧ HostOnEnc (popAgenda s) a t) ∨ EncMove (popAgenda s) t ∨ SameEncPart (popAgenda s) t := by
  rcases step_cases h with ⟨a, l, hag, rfl⟩ | hmove | hmove
  · exact .inl ⟨a, l, hag, hostAct_onEnc a _⟩
  · exact .inr (.inr hmove.onlyDecoder.sameEncPart)
  · exact .inr (.inl hmove)

end Sys2Proof.Machine
end

section
/-!
PROOFS. The decoder's half of the invariant: what the moves of DEC and the actions of the host do to it.
-/
namespace Sys2Proof.Machine

/-! ### Spaces that hold the bytes below a bound (R41, R43) -/

theorem Memory.dense_nil : Memory.dense [] 0 := rfl

/-- A byte written at the bound extends the space by it. -/
theorem Memory.dense_write {m : Memory} {n : Nat} (h : m.dense n) (v : Byte) : (m.write n v).dense (n + 1) := by
  have hbelow : ∀ c ∈ m, c.1 < n := fun c hc =>
    List.mem_range.mp (h ▸ List.mem_map_of_mem (f := Prod.fst) hc)
  have hkeys : m.map Prod.fst = List.range n := h
  rw [Memory.write_append m n v hbelow, Memory.dense, List.map_append, hkeys, List.range_succ]
  rfl

theorem Memory.dense_writeBytes (vs : List Byte) :
    ∀ {m : Memory} {n : Nat}, m.dense n → (m.writeBytes n vs).dense (n + vs.length) := by
  induction vs with
  | nil => exact fun h => h
  | cons v vs ih =>
    intro m n h
    rw [List.length_cons, Nat.add_comm vs.length 1, ← Nat.add_assoc]
    exact ih (Memory.dense_write h v)

theorem Memory.dense_writePixel {m : Memory} {i : Nat} (h : m.dense (4 * i)) (p : Pixel) :
    (m.writePixel i p).dense (4 * (i + 1)) :=
  Memory.dense_writeBytes (pixelBytes p) h

/-! ### Caches whose slots hold what hashes to them (R106) -/

theorem slotsHashed_zeroCache : slotsHashed zeroCache := fun i => .inl (lookup_zeroCache i)

theorem slotsHashed_store {c : Cache} (h : slotsHashed c) (p : Pixel) : slotsHashed (store c p) := by
  intro i
  by_cases hi : slot p = i
  · subst hi
    exact .inr (by rw [lookup_store_same])
  · rw [lookup_store_other c p i (Ne.symm hi)]
    exact h i

/-! ### PHASE after a pixel -/

theorem pixelCount_pos {w h : Word} (hw : w ≠ 0#32) (hh : h ≠ 0#32) : 0 < pixelCount w h :=
  Nat.mul_pos (Nat.pos_of_ne_zero fun h0 => hw (BitVec.eq_of_toNat_eq h0))
    (Nat.pos_of_ne_zero fun h0 => hh (BitVec.eq_of_toNat_eq h0))

/-- A pixel step of DEC ends the pass at NPIX and stays in PIXELS below it. -/
theorem phaseAfterPixel_cases {npix ppos : Nat} (hlt : ppos < npix) :
    (ppos + 1 = npix ∧ phaseAfterPixel npix (ppos + 1) .pixels = .done) ∨
      (ppos + 1 < npix ∧ phaseAfterPixel npix (ppos + 1) .pixels = .pixels) := by
  by_cases h : ppos + 1 = npix
  · exact .inl ⟨h, if_pos h⟩
  · exact .inr ⟨by omega, if_neg h⟩

/-! ### The decoder's half of the invariant -/

theorem DecInv.noErr {s : State} (hi : DecInv s) (h : s.dec.phase ≠ .error) : s.dec.err = .none :=
  not_not.mp fun hne => h (hi.errIff.mp hne)

theorem DecInv.of_same {s t : State} (hi : DecInv s) (h : SameDecPart s t) : DecInv t := by
  obtain ⟨hdec, hinp, hended, hdst⟩ := h
  cases s
  cases t
  subst hdec hinp hended hdst
  exact { hi with }

/-- An idle context is asked for nothing but ERR = NONE. -/
theorem DecInv.of_idle {t : State} (hphase : t.dec.phase = .idle) (herr : t.dec.err = .none) : DecInv t := by
  constructor <;> simp [hphase, herr]

theorem DecInv.of_started {t : State} {k : Nat} (hdec : t.dec = startedDec k) (hdst : t.dst = []) : DecInv t := by
  constructor <;> simp [hdec, hdst, startedDec, slotsHashed_zeroCache, Memory.dense_nil]

/-- What is offered in a busy pass lengthens the stream, which bounds IPOS the more. -/
theorem DecInv.of_offer {s t : State} (hi : DecInv s) (hbusy : s.dec.phase.busy = true) (hdec : t.dec = s.dec)
    (hinp : s.inp.length ≤ t.inp.length) (hdst : t.dst = s.dst) : DecInv t := by
  have hnoErr := hi.noErr fun herr => by simp [herr, Phase.busy] at hbusy
  have hbound : t.dec.phase ≠ .idle → t.dec.ipos ≤ t.inp.length := fun hne =>
    hdec ▸ le_trans (hi.iposBound (hdec ▸ hne)) hinp
  have htrunc : t.dec.err = .truncated → t.dec.ipos = t.inp.length ∧ t.inpEnded = true := by
    rw [hdec, hnoErr]
    exact fun h => by cases h
  cases s
  cases t
  subst hdec hdst
  exact { hi with iposBound := hbound, truncatedAtEnd := htrunc }

/-- An error entry of DEC keeps the invariant, wherever in the stream it stops and whatever the HDR registers hold. -/
theorem DecInv.of_error {s t : State} (hi : DecInv s) (hpass : s.dec.phase ≠ .idle) {k : ErrKind} (hk : k ≠ .none)
    (hkind : k ≠ .unsupportedPixel) {n : Nat} (w h : Word) (c cs : Byte)
    (hdec : t.dec = { s.dec with
      ipos := n, hdrWidth := w, hdrHeight := h, hdrChannels := c, hdrColorspace := cs, err := k, errPos := n, phase := .error })
    (hinp : t.inp = s.inp) (hended : t.inpEnded = s.inpEnded) (hdst : t.dst = s.dst) (hn : n ≤ s.inp.length)
    (htrunc : k = .truncated → n = s.inp.length ∧ s.inpEnded = true) : DecInv t where
  noTrailer := by simp [hdec]
  errIff := by simp [hdec, hk]
  errKind := by simp [hdec, hkind]
  errPos := by simp [hdec]
  truncatedAtEnd := by simpa [hdec, hinp, hended] using htrunc
  runBound := by simpa [hdec] using hi.runBound hpass
  slots := by simpa [hdec] using hi.slots hpass
  written := by simpa [hdec, hdst] using hi.written hpass
  iposBound := by simpa [hdec, hinp] using hn
  nothingBefore := by simpa [hdec] using hi.nothingBefore hpass
  fresh := by simp [hdec]
  header := by simp [hdec]
  room := by simp [hdec]
  full := by simp [hdec]
  runStored := by simp [hdec]

/-- A good header opens the pixels of the pass (R90). -/
theorem DecInv.of_goodHeader {s : State} (hi : DecInv s) (hp : s.dec.phase = .header) (hl : 14 ≤ s.inp.length) {w h : Word}
    {c : Byte} (cs : Byte) (hw : w ≠ 0#32) (hh : h ≠ 0#32) (hc : c = 3#8 ∨ c = 4#8) :
    DecInv (acceptHeader (loadHeader w h c cs (s.setDec { s.dec with ipos := 14 }))) := by
  have hpass : s.dec.phase ≠ .idle := by simp [hp]
  have hnoErr := hi.noErr (by simp [hp])
  obtain ⟨-, hrun, -, -, hppos, -, -⟩ := hi.fresh hp
  constructor <;> simp only [acceptHeader, loadHeader, State.setDec_dec, State.setDec_dst, State.setDec_inp, State.setDec_inpEnded]
  case slots => exact fun _ => hi.slots hpass
  case written => exact fun _ => hi.written hpass
  case header => exact by simpa [headerLegal] using ⟨hw, hh, hc⟩
  case room => exact fun _ => by simpa [hppos] using pixelCount_pos hw hh
  all_goals simp [hnoErr, hrun, hl]

/-- A pixel step of DEC keeps the invariant: the pixel's four bytes extend DST, and in a run PREV is in its slot (R109, R110). -/
theorem DecInv.of_pixel {s : State} (hi : DecInv s) (hp : s.dec.phase = .pixels) (hlt : s.dec.ppos < s.dec.npix) {n : Nat}
    {px : Pixel} {run : BitVec 14} {cache : Cache} (hfrom : s.dec.ipos ≤ n) (hto : n ≤ s.inp.length)
    (hrun : run.toNat ≤ 8223) (hslots : slotsHashed cache) (hstored : run ≠ 0#14 → lookup cache (slot px) = px) :
    DecInv ((s.setDst (s.dst.writePixel s.dec.ppos px)).setDec
      { s.dec with ipos := n, prev := px, run := run, ppos := s.dec.ppos + 1, cache := cache,
                   phase := phaseAfterPixel s.dec.npix (s.dec.ppos + 1) s.dec.phase }) := by
  have hpass : s.dec.phase ≠ .idle := by simp [hp]
  have hnoErr := hi.noErr (by simp [hp])
  obtain ⟨hvalid, h14, hlegal, hnpix⟩ := hi.header (.inl hp)
  have hhdr := And.intro hvalid (And.intro (h14.trans hfrom) (And.intro hlegal hnpix))
  have hdense := Memory.dense_writePixel (hi.written hpass) px
  have hphase := phaseAfterPixel_cases hlt
  rw [hp]
  generalize phaseAfterPixel s.dec.npix (s.dec.ppos + 1) .pixels = q at hphase ⊢
  constructor <;> simp only [State.setDec_dec, State.setDec_dst, State.setDst_dst, State.setDec_inp, State.setDst_inp]
  case runBound => exact fun _ => hrun
  case slots => exact fun _ => hslots
  case written => exact fun _ => hdense
  case iposBound => exact fun _ => hto
  case header => exact fun _ => hhdr
  case runStored => exact fun _ => hstored
  all_goals rcases hphase with ⟨hend, rfl⟩ | ⟨hend, rfl⟩ <;> simp [hnoErr, hvalid, hend]

theorem DecInv.of_move {s t : State} (hi : DecInv s) (h : DecMove s t) : DecInv t := by
  cases h with
  | rests => exact hi
  | shortHeader hp hl he =>
    exact hi.of_error (by simp [hp]) (by decide) (by decide) _ _ _ _ rfl rfl rfl rfl (le_refl _) (by simp)
  | badHeader hp hl w h c cs =>
    exact hi.of_error (by simp [hp]) (by decide) (by decide) w h c cs rfl rfl rfl rfl hl (by simp)
  | goodHeader hp hl w h c cs hw hh hc => exact hi.of_goodHeader hp hl cs hw hh hc
  | continues hp hr hlt =>
    have hpass : s.dec.phase ≠ .idle := by simp [hp]
    have hle := hi.runBound hpass
    have hdec : (s.dec.run - 1#14).toNat ≤ 8223 := by bv_omega
    exact hi.of_pixel hp hlt (le_refl _) (hi.iposBound hpass) hdec (hi.slots hpass) fun _ => hi.runStored hp hr
  | chunk hp hr hlt n px run hn hle hrun =>
    have hpass : s.dec.phase ≠ .idle := by simp [hp]
    have hbound : run.toNat ≤ 8223 := by
      rcases hrun with rfl | ⟨-, hrun⟩
      · exact hi.runBound hpass
      · exact hrun
    exact hi.of_pixel hp hlt (Nat.le_add_right _ _) hle hbound (slotsHashed_store (hi.slots hpass) px) fun _ =>
      lookup_store_same _ _
  | truncated hp hr he =>
    have hpass : s.dec.phase ≠ .idle := by simp [hp]
    have hmax : max s.dec.ipos s.inp.length = s.inp.length := Nat.max_eq_right (hi.iposBound hpass)
    exact hi.of_error hpass (by decide) (by decide) _ _ _ _ rfl rfl rfl rfl hmax.le fun _ => ⟨hmax, he⟩

theorem DecInv.of_host {s t : State} {a : HostAction} (hi : DecInv s) (h : HostOnDec s a t) : DecInv t := by
  cases h with
  | keeps hsame => exact hi.of_same hsame
  | idles ha hphase herr hvalid hdst => exact .of_idle hphase herr
  | starts hrest k hdec hinp hdst => exact .of_started hdec hdst
  | fails hbusy w h c cs hdec hinp hended hdst =>
    have hpass : s.dec.phase ≠ .idle := fun hidle => by simp [hidle, Phase.busy] at hbusy
    exact hi.of_error hpass (by decide) (by decide) w h c cs hdec hinp hended hdst
      (failPosition_bounds s (hi.iposBound hpass)).2 (by simp)
  | offers hbusy hdec hinp hdst => exact hi.of_offer hbusy hdec hinp hdst

/-- No step breaks the decoder's half of the invariant. -/
theorem DecInv.of_step {s t : State} (hi : DecInv s) (h : step s = .next t) : DecInv t := by
  have hpop : DecInv (popAgenda s) := hi.of_same ⟨rfl, rfl, rfl, rfl⟩
  rcases step_onDec h with ⟨a, l, -, hact⟩ | hmove | hsame
  · exact hpop.of_host hact
  · exact hpop.of_move hmove
  · exact hpop.of_same hsame

/-! ### DST stays canonical -/

theorem DecMove.dst_wf {s t : State} (h : DecMove s t) (hwf : s.dst.wf = true) : t.dst.wf = true := by
  cases h with
  | continues hp hr hlt => exact Memory.wf_writePixel _ _ _ hwf
  | chunk hp hr hlt n px run hn hle hrun => exact Memory.wf_writePixel _ _ _ hwf
  | rests => exact hwf
  | shortHeader => exact hwf
  | badHeader => exact hwf
  | goodHeader => exact hwf
  | truncated => exact hwf

theorem HostOnDec.dst_wf {s t : State} {a : HostAction} (h : HostOnDec s a t) (hwf : s.dst.wf = true) : t.dst.wf = true := by
  cases h with
  | keeps hsame => rwa [hsame.dst]
  | idles ha hphase herr hvalid hdst => rwa [hdst]
  | starts hrest k hdec hinp hdst => rw [hdst]; rfl
  | fails hbusy w h c cs hdec hinp hended hdst => rwa [hdst]
  | offers hbusy hdec hinp hdst => rwa [hdst]

theorem step_dst_wf {s t : State} (h : step s = .next t) (hwf : s.dst.wf = true) : t.dst.wf = true := by
  rcases step_onDec h with ⟨a, l, -, hact⟩ | hmove | hsame
  · exact hact.dst_wf hwf
  · exact hmove.dst_wf hwf
  · rw [hsame.dst]
    exact hwf

end Sys2Proof.Machine
end

section
/-!
PROOFS. The encoder's half of the invariant, the sizes it rests on (R78, R151), and the invariant of the machine.
-/
namespace Sys2Proof.Machine

/-! ### How many bytes a pixel step emits -/

/-- The size statement of every instruction, from its lemma per constructor. -/
theorem size_statement (i : Instr) : Laws.Size.Statement i := by
  cases i with
  | index k => exact Laws.Size.index k
  | runS n => exact Laws.Size.runS n
  | runL f => exact Laws.Size.runL f
  | diffS r g b => exact Laws.Size.diffS r g b
  | diffM r g b => exact Laws.Size.diffM r g b
  | diffL r g b a => exact Laws.Size.diffL r g b a
  | overwrite r g b a => exact Laws.Size.overwrite r g b a
  | header w h c cs => exact Laws.Size.header w h c cs
  | trailer => exact Laws.Size.trailer

/-- R78: a chunk has at most 5 bytes. -/
theorem encode_length_le_of_chunk {i : Instr} (hi : i.position = .chunk) : (encode i).length ≤ 5 := by
  obtain ⟨hlen, hsize⟩ := size_statement i
  rw [hi] at hsize
  exact hlen ▸ hsize.2.1

/-- Whatever the selection of R138 picks is a chunk. -/
theorem selectChunk_position (c : Cache) (prev p : Pixel) : (selectChunk c prev p).position = .chunk := by
  unfold selectChunk
  repeat' split
  all_goals rfl

/-- R135, R136: a run chunk has one or two bytes. -/
theorem encode_flushChunk_length_le (run : BitVec 14) : (encode (flushChunk run)).length ≤ 2 := by
  unfold flushChunk
  split <;> simp [encode]

theorem encodeAll_flush_length_le (run : BitVec 14) : (encodeAll [flushChunk run]).length ≤ 2 := by
  simpa [encodeAll] using encode_flushChunk_length_le run

theorem encodeAll_select_length_le (c : Cache) (prev p : Pixel) : (encodeAll [selectChunk c prev p]).length ≤ 5 := by
  simpa [encodeAll] using encode_length_le_of_chunk (selectChunk_position c prev p)

/-! ### The run accumulator (R132 to R134) -/

theorem runCounted_of_eqPrev {e : EncCtx} {p : Pixel} (h : eqPrev e p = true) : runCounted e p = e.run + 1#14 := if_pos h

theorem runCounted_of_not_eqPrev {e : EncCtx} {p : Pixel} (h : eqPrev e p = false) : runCounted e p = e.run := by
  simp [runCounted, h]

/-- RUN counts one more pixel without wrapping, as RUN_MAX fits its 14 bits. -/
theorem run_add_one_toNat {run : BitVec 14} (h : run.toNat ≤ 8223) : (run + 1#14).toNat = run.toNat + 1 := by
  bv_omega

/-- An equal pixel flushes a full run, or the run of the last pixel. -/
theorem flushes_of_eqPrev {e : EncCtx} {p : Pixel} (h : eqPrev e p = true) (hrun : e.run.toNat ≤ 8223) :
    flushes e p = (runFull (e.run + 1#14) || isLast e) := by
  have hnat := run_add_one_toNat hrun
  have hnonzero : runNonzero (e.run + 1#14) = true := (runNonzero_iff _).mpr fun h0 => by simp [h0] at hnat
  simp [flushes, runCounted_of_eqPrev h, hnonzero, h]

/-- A differing pixel flushes whatever run is pending. -/
theorem flushes_of_not_eqPrev {e : EncCtx} {p : Pixel} (h : eqPrev e p = false) : flushes e p = runNonzero e.run := by
  simp [flushes, runCounted_of_not_eqPrev h, h]

/-- An equal pixel that does not flush emits nothing. -/
theorem pixelChunks_eq_nil {e : EncCtx} {p : Pixel} (h : eqPrev e p = true) (hfl : flushes e p = false) : pixelChunks e p = [] := by
  simp [pixelChunks, h, hfl]

/-- At most 5 bytes for the pixel and for each one that RUN held (R151). -/
theorem encodeAll_pixelChunks_length_le (e : EncCtx) (p : Pixel) (hrun : e.run.toNat ≤ 8223) :
    (encodeAll (pixelChunks e p)).length ≤ 5 * e.run.toNat + 5 := by
  have hflush := encodeAll_flush_length_le (runCounted e p)
  have hselect := encodeAll_select_length_le e.cache e.prev p
  simp only [encodeAll] at hflush hselect
  simp only [encodeAll, pixelChunks, List.flatMap_append, List.length_append]
  cases heq : eqPrev e p with
  | true =>
    simp only [if_true, List.flatMap_nil, List.length_nil]
    split
    · omega
    · simp
  | false =>
    rw [flushes_of_not_eqPrev heq]
    simp only [Bool.false_eq_true, if_false]
    split
    · have hne := (runNonzero_iff e.run).mp ‹_›
      have hpos : 1 ≤ e.run.toNat := by bv_omega
      omega
    · simp only [List.flatMap_nil, List.length_nil]
      omega

/-- What a pixel step of ENC does to RUN: it counts one more equal pixel of a run that may go on, and emits nothing; or it
leaves no run pending. -/
theorem encAdvance_run_cases (e : EncCtx) (p : Pixel) (hrun : e.run.toNat ≤ 8223) :
    (pixelChunks e p = [] ∧ (encAdvance e p).run.toNat = e.run.toNat + 1 ∧ e.run.toNat + 1 ≤ 8223 ∧ isLast e = false) ∨
      (encAdvance e p).run = 0#14 := by
  have hadvance : (encAdvance e p).run = if flushes e p then 0#14 else runCounted e p := rfl
  cases hfl : flushes e p with
  | true => exact .inr (by simp [hadvance, hfl])
  | false =>
    have hcounted : (encAdvance e p).run = runCounted e p := by simp [hadvance, hfl]
    cases heq : eqPrev e p with
    | true =>
      have hchunks := pixelChunks_eq_nil heq hfl
      rw [flushes_of_eqPrev heq hrun, Bool.or_eq_false_iff] at hfl
      obtain ⟨hnotFull, hnotLast⟩ := hfl
      have hne : e.run + 1#14 ≠ 8224#14 := by simpa [runFull, runMax] using hnotFull
      have hnat := run_add_one_toNat hrun
      exact .inl ⟨hchunks, by rw [hcounted, runCounted_of_eqPrev heq, hnat], by bv_omega, hnotLast⟩
    | false =>
      rw [flushes_of_not_eqPrev heq] at hfl
      have hzero : e.run = 0#14 := by simpa [runNonzero] using hfl
      exact .inr (by rw [hcounted, runCounted_of_not_eqPrev heq, hzero])

/-! ### The encoder's half of the invariant -/

theorem EncInv.noErr {s : State} (hi : EncInv s) (h : s.enc.phase ≠ .error) : s.enc.err = .none :=
  not_not.mp fun hne => h (hi.errIff.mp hne)

theorem EncInv.of_same {s t : State} (hi : EncInv s) (h : SameEncPart s t) : EncInv t := by
  obtain ⟨henc, hsrc, hout⟩ := h
  cases s
  cases t
  subst henc hsrc hout
  exact { hi with }

/-- An idle context is asked for nothing but ERR = NONE. -/
theorem EncInv.of_idle {t : State} (hphase : t.enc.phase = .idle) (herr : t.enc.err = .none) : EncInv t := by
  constructor <;> simp [hphase, herr]

theorem EncInv.of_started {t : State} {c : Cfg} (henc : t.enc = startedEnc c) (hsrc : t.src = []) (hout : t.out = []) :
    EncInv t := by
  constructor <;> simp [henc, hsrc, hout, startedEnc, slotsHashed_zeroCache, Memory.dense_nil]

/-- A pixel offered below NPIX keeps the source within the image (R180). -/
theorem EncInv.of_offer {s t : State} (hi : EncInv s) {p : Pixel} (hroom : s.src.length < s.enc.npix) (henc : t.enc = s.enc)
    (hsrc : t.src = s.src ++ [p]) (hout : t.out = s.out) : EncInv t := by
  have htaken : t.enc.phase ≠ .idle → t.enc.ppos ≤ t.src.length ∧ t.src.length ≤ t.enc.npix := by
    intro hpass
    rw [henc] at hpass ⊢
    have := (hi.taken hpass).1
    rw [hsrc, List.length_append, List.length_singleton]
    omega
  cases s
  cases t
  subst henc hout
  exact { hi with taken := htaken }

/-- `io_fail` keeps the invariant: nothing but ERR and PHASE changes. -/
theorem EncInv.of_ioFail {s t : State} (hi : EncInv s) (hpass : s.enc.phase ≠ .idle)
    (henc : t.enc = { s.enc with err := .io, phase := .error }) (hsrc : t.src = s.src) (hout : t.out = s.out) : EncInv t where
  errIff := by simp [henc]
  errKind := by simp [henc]
  runBound := by simpa [henc] using hi.runBound hpass
  slots := by simpa [henc] using hi.slots hpass
  written := by simpa [henc, hout] using hi.written hpass
  count := by simpa [henc] using hi.count hpass
  taken := by simpa [henc, hsrc] using hi.taken hpass
  fresh := by simp [henc]
  room := by simp [henc]
  flushed := by simp [henc]
  size := by simp [henc]
  finalSize := by simp [henc]

theorem phaseAfterHeader_cases (npix : Nat) :
    (npix = 0 ∧ phaseAfterHeader npix = .trailer) ∨ (0 < npix ∧ phaseAfterHeader npix = .pixels) := by
  rcases Nat.eq_zero_or_pos npix with h0 | h0
  · exact .inl ⟨h0, if_pos h0⟩
  · exact .inr ⟨h0, if_neg h0.ne'⟩

/-- HDR.EMIT keeps the invariant: 14 bytes stand in OUT, and an image of no pixel goes to the trailer with no run pending. -/
theorem EncInv.of_header {s : State} (hi : EncInv s) (hp : s.enc.phase = .header) : EncInv (emitHeader s) := by
  have hpass : s.enc.phase ≠ .idle := by simp [hp]
  have hnoErr := hi.noErr (by simp [hp])
  obtain ⟨-, hrun, -, hopos, hppos⟩ := hi.fresh hp
  have hdense := Memory.dense_writeBytes (encode (cfgHeader s.enc.cfg)) (hi.written hpass)
  have hlen : (encode (cfgHeader s.enc.cfg)).length = 14 := (size_statement (cfgHeader s.enc.cfg)).1
  have hphase := phaseAfterHeader_cases s.enc.npix
  constructor <;> simp only [emitHeader, State.setEnc_enc, State.setEnc_out, State.setEnc_src, emitBytes_enc, emitBytes_out,
    emitBytes_src]
  all_goals generalize phaseAfterHeader s.enc.npix = q at hphase ⊢
  case slots => exact fun _ => hi.slots hpass
  case written => exact fun _ => hdense
  case count => exact fun _ => hi.count hpass
  case taken => exact fun _ => hi.taken hpass
  all_goals rcases hphase with ⟨hnpix, rfl⟩ | ⟨hnpix, rfl⟩ <;> simp [hnoErr, hrun, hopos, hppos, hlen, hnpix]

/-- A pixel step of ENC ends in TRAILER at NPIX and stays in PIXELS below it. -/
theorem phaseAfterSource_cases {npix ppos : Nat} (hlt : ppos < npix) :
    (ppos + 1 = npix ∧ phaseAfterSource npix (ppos + 1) .pixels = .trailer) ∨
      (ppos + 1 < npix ∧ phaseAfterSource npix (ppos + 1) .pixels = .pixels) := by
  by_cases h : ppos + 1 = npix
  · exact .inl ⟨h, if_pos h⟩
  · exact .inr ⟨by omega, if_neg h⟩

/-- A pixel step of ENC keeps the invariant: the last pixel leaves no run pending (R134), and a pending run has its five bytes
a pixel in hand (R151). -/
theorem EncInv.of_pixel {s : State} (hi : EncInv s) (hp : s.enc.phase = .pixels) (hlt : s.enc.ppos < s.enc.npix) {p : Pixel}
    (hsrc : s.src[s.enc.ppos]? = some p) :
    EncInv (emitBytes (encodeAll (pixelChunks s.enc p)) (s.setEnc (encAdvance s.enc p))) := by
  have hpass : s.enc.phase ≠ .idle := by simp [hp]
  have hnoErr := hi.noErr (by simp [hp])
  have hrun := hi.runBound hpass
  obtain ⟨h14, hsize⟩ := hi.size (.inl hp)
  obtain ⟨hoffered, -⟩ := List.getElem?_eq_some_iff.mp hsrc
  have hdense := Memory.dense_writeBytes (encodeAll (pixelChunks s.enc p)) (hi.written hpass)
  have hslots : slotsHashed (encAdvance s.enc p).cache := by
    simp only [encAdvance]
    split
    · exact hi.slots hpass
    · exact slotsHashed_store (hi.slots hpass) p
  have hrun' : (encAdvance s.enc p).run.toNat ≤ 8223 ∧
      (s.enc.ppos + 1 = s.enc.npix → (encAdvance s.enc p).run = 0#14) ∧
      s.enc.opos + (encodeAll (pixelChunks s.enc p)).length + 5 * (encAdvance s.enc p).run.toNat ≤
        14 + 5 * (s.enc.ppos + 1) := by
    rcases encAdvance_run_cases s.enc p hrun with ⟨hnone, hcount, hle, hlast⟩ | hzero
    · refine ⟨by omega, fun hend => ?_, ?_⟩
      · simp [isLast, hend] at hlast
      · rw [hnone, hcount, encodeAll, List.flatMap_nil, List.length_nil]
        omega
    · have hlen := encodeAll_pixelChunks_length_le s.enc p hrun
      exact ⟨by simp [hzero], fun _ => hzero, by simp only [hzero, BitVec.toNat_zero]; omega⟩
  obtain ⟨hbound, hflushed, hroom5⟩ := hrun'
  have hphase : (s.enc.ppos + 1 = s.enc.npix ∧ (encAdvance s.enc p).phase = .trailer) ∨
      (s.enc.ppos + 1 < s.enc.npix ∧ (encAdvance s.enc p).phase = .pixels) := by
    simpa only [encAdvance, hp] using phaseAfterSource_cases hlt
  have hppos : (encAdvance s.enc p).ppos = s.enc.ppos + 1 := rfl
  have hnpix : (encAdvance s.enc p).npix = s.enc.npix := rfl
  have hopos : (encAdvance s.enc p).opos = s.enc.opos := rfl
  have herr : (encAdvance s.enc p).err = .none := hnoErr
  constructor <;> simp only [emitBytes_enc, emitBytes_out, emitBytes_src, State.setEnc_enc, State.setEnc_out, State.setEnc_src,
    hppos, hnpix, hopos]
  case runBound => exact fun _ => hbound
  case slots => exact fun _ => hslots
  case written => exact fun _ => hdense
  case count => exact fun _ => hi.count hpass
  case taken => exact fun _ => ⟨hoffered, (hi.taken hpass).2⟩
  case size => exact fun _ => ⟨by omega, hroom5⟩
  all_goals rcases hphase with ⟨hend, hph⟩ | ⟨hend, hph⟩
  case flushed.inl => exact fun _ => ⟨hflushed hend, hend⟩
  all_goals simp [hph, herr, hend]

/-- The trailer step keeps the invariant: four more bytes, nothing pending (R148). -/
theorem EncInv.of_trailer {s : State} (hi : EncInv s) (hp : s.enc.phase = .trailer) :
    EncInv ((emitBytes (encode .trailer) s).setEnc { (emitBytes (encode .trailer) s).enc with phase := .done }) := by
  have hpass : s.enc.phase ≠ .idle := by simp [hp]
  have hnoErr := hi.noErr (by simp [hp])
  have hdense := Memory.dense_writeBytes (encode .trailer) (hi.written hpass)
  have hlen : (encode .trailer).length = 4 := rfl
  obtain ⟨hrun, hppos⟩ := hi.flushed (.inl hp)
  obtain ⟨h14, hsize⟩ := hi.size (.inr hp)
  constructor <;> simp only [State.setEnc_enc, State.setEnc_out, State.setEnc_src, emitBytes_enc, emitBytes_out, emitBytes_src]
  case runBound => exact fun _ => hi.runBound hpass
  case slots => exact fun _ => hi.slots hpass
  case written => exact fun _ => hdense
  case count => exact fun _ => hi.count hpass
  case taken => exact fun _ => hi.taken hpass
  case flushed => exact fun _ => ⟨hrun, hppos⟩
  case finalSize =>
    rw [hrun, hppos] at hsize
    simp only [BitVec.toNat_zero] at hsize
    exact fun _ => by omega
  all_goals simp [hnoErr]

theorem EncInv.of_move {s t : State} (hi : EncInv s) (h : EncMove s t) : EncInv t := by
  cases h with
  | rests => exact hi
  | header hp => exact hi.of_header hp
  | pixel hp hlt p hsrc => exact hi.of_pixel hp hlt hsrc
  | trailer hp => exact hi.of_trailer hp

theorem EncInv.of_host {s t : State} {a : HostAction} (hi : EncInv s) (h : HostOnEnc s a t) : EncInv t := by
  cases h with
  | keeps hsame => exact hi.of_same hsame
  | idles ha hphase herr hout => exact .of_idle hphase herr
  | starts hrest henc hsrc hout => exact .of_started henc hsrc hout
  | fails hbusy henc hsrc hout =>
    exact hi.of_ioFail (fun hidle => by simp [hidle, Phase.busy] at hbusy) henc hsrc hout
  | offers hbusy hroom henc hsrc hout => exact hi.of_offer hroom henc hsrc hout

/-- No step breaks the encoder's half of the invariant. -/
theorem EncInv.of_step {s t : State} (hi : EncInv s) (h : step s = .next t) : EncInv t := by
  have hpop : EncInv (popAgenda s) := hi.of_same ⟨rfl, rfl, rfl⟩
  rcases step_onEnc h with ⟨a, l, -, hact⟩ | hmove | hsame
  · exact hpop.of_host hact
  · exact hpop.of_move hmove
  · exact hpop.of_same hsame

/-! ### OUT stays canonical -/

theorem EncMove.out_wf {s t : State} (h : EncMove s t) (hwf : s.out.wf = true) : t.out.wf = true := by
  cases h with
  | rests => exact hwf
  | header hp => exact Memory.wf_writeBytes _ _ _ hwf
  | pixel hp hlt p hsrc => exact Memory.wf_writeBytes _ _ _ hwf
  | trailer hp => exact Memory.wf_writeBytes _ _ _ hwf

theorem HostOnEnc.out_wf {s t : State} {a : HostAction} (h : HostOnEnc s a t) (hwf : s.out.wf = true) : t.out.wf = true := by
  cases h with
  | keeps hsame => rwa [hsame.out]
  | idles ha hphase herr hout => rwa [hout]
  | starts hrest henc hsrc hout => rw [hout]; rfl
  | fails hbusy henc hsrc hout => rwa [hout]
  | offers hbusy hroom henc hsrc hout => rwa [hout]

theorem step_out_wf {s t : State} (h : step s = .next t) (hwf : s.out.wf = true) : t.out.wf = true := by
  rcases step_onEnc h with ⟨a, l, -, hact⟩ | hmove | hsame
  · exact hact.out_wf hwf
  · exact hmove.out_wf hwf
  · rw [hsame.out]
    exact hwf

/-! ### The invariant of the machine -/

/-- Settles O50: each part of the invariant is kept on its own, since no step makes one part depend on another. -/
theorem stepKeepsTheInvariant : Obligations.StepKeepsTheInvariant := fun _ _ hi h =>
  ⟨step_out_wf h hi.outWf, step_dst_wf h hi.dstWf, hi.dec.of_step h, hi.enc.of_step h⟩

/-- Settles O49: both contexts are idle and both spaces empty. -/
theorem resetMeetsTheInvariant : Obligations.ResetMeetsTheInvariant :=
  ⟨Memory.wf_reset.1, Memory.wf_reset.2, .of_idle rfl rfl, .of_idle rfl rfl⟩

end Sys2Proof.Machine
end

section
/-!
PROOFS. What every step keeps, derived from what it can do to each context: the sampled configuration, the transitions of PHASE,
HDR_VALID, the positions. What the host's actions leave: hardware reset, the ports.
-/
namespace Sys2Proof.Machine

/-! ### The sampled configuration (R28, R185) -/

theorem EncMove.keeps_cfg {s t : State} (h : EncMove s t) : t.enc.cfg = s.enc.cfg ∧ t.enc.npix = s.enc.npix := by
  cases h with
  | rests => exact ⟨rfl, rfl⟩
  | header hp => exact ⟨rfl, rfl⟩
  | pixel hp hlt p hsrc => exact ⟨rfl, rfl⟩
  | trailer hp => exact ⟨rfl, rfl⟩

theorem HostOnEnc.keeps_cfg {s t : State} {a : HostAction} (h : HostOnEnc s a t) (ha : resetsEnc (.host a) = false) :
    t.enc.cfg = s.enc.cfg ∧ t.enc.npix = s.enc.npix := by
  cases h with
  | keeps hsame => rw [hsame.enc]; exact ⟨rfl, rfl⟩
  | idles ha' hphase herr hout => simp [ha'] at ha
  | starts hrest henc hsrc hout => cases ha
  | fails hbusy henc hsrc hout => rw [henc]; exact ⟨rfl, rfl⟩
  | offers hbusy hroom henc hsrc hout => rw [henc]; exact ⟨rfl, rfl⟩

/-- Settles O41. -/
theorem configurationIsSampledOnce : Obligations.ConfigurationIsSampledOnce := by
  intro s t h hno
  rcases step_onEnc h with ⟨a, l, hag, hact⟩ | hmove | hsame
  · exact hact.keeps_cfg (hno _ (by simp [hag]))
  · exact hmove.keeps_cfg
  · rw [hsame.enc]
    exact ⟨rfl, rfl⟩

/-! ### The transitions of PHASE (R29) -/

@[simp] theorem decPhaseAllowed_self (p : Phase) : decPhaseAllowed p p = true := by cases p <;> rfl
@[simp] theorem decPhaseAllowed_idle (p : Phase) : decPhaseAllowed p .idle = true := by cases p <;> rfl
@[simp] theorem encPhaseAllowed_self (p : Phase) : encPhaseAllowed p p = true := by cases p <;> rfl
@[simp] theorem encPhaseAllowed_idle (p : Phase) : encPhaseAllowed p .idle = true := by cases p <;> rfl

/-- START may open a pass from every phase that is not busy. -/
theorem decPhaseAllowed_header {p : Phase} (h : p.busy = false) : decPhaseAllowed p .header = true := by
  rcases (Phase.busy_eq_false_iff p).mp h with rfl | rfl | rfl <;> rfl

theorem encPhaseAllowed_header {p : Phase} (h : p.busy = false) : encPhaseAllowed p .header = true := by
  rcases (Phase.busy_eq_false_iff p).mp h with rfl | rfl | rfl <;> rfl

theorem decPhaseAllowed_error {p : Phase} (h : p.busy = true) (htr : p ≠ .trailer) : decPhaseAllowed p .error = true := by
  rcases (Phase.busy_iff p).mp h with rfl | rfl | rfl
  · rfl
  · rfl
  · exact absurd rfl htr

theorem encPhaseAllowed_error {p : Phase} (h : p.busy = true) : encPhaseAllowed p .error = true := by
  rcases (Phase.busy_iff p).mp h with rfl | rfl | rfl <;> rfl

/-- A pixel step of DEC stays in PIXELS or ends in DONE. -/
theorem decPhaseAllowed_afterPixel (npix ppos : Nat) : decPhaseAllowed .pixels (phaseAfterPixel npix ppos .pixels) = true := by
  unfold phaseAfterPixel
  split <;> rfl

theorem encPhaseAllowed_afterHeader (npix : Nat) : encPhaseAllowed .header (phaseAfterHeader npix) = true := by
  unfold phaseAfterHeader
  split <;> rfl

theorem encPhaseAllowed_afterSource (npix ppos : Nat) : encPhaseAllowed .pixels (phaseAfterSource npix ppos .pixels) = true := by
  unfold phaseAfterSource
  split <;> rfl

theorem DecMove.phase_allowed {s t : State} (h : DecMove s t) : decPhaseAllowed s.dec.phase t.dec.phase = true := by
  cases h with
  | rests => simp
  | shortHeader hp hl he => rw [hp]; rfl
  | badHeader hp hl w h c cs => rw [hp]; rfl
  | goodHeader hp hl w h c cs hw hh hc => rw [hp]; rfl
  | continues hp hr hlt => simpa only [State.setDec_dec, hp] using decPhaseAllowed_afterPixel _ _
  | chunk hp hr hlt n px run hn hle hrun => simpa only [State.setDec_dec, hp] using decPhaseAllowed_afterPixel _ _
  | truncated hp hr he => rw [hp]; rfl

theorem EncMove.phase_allowed {s t : State} (h : EncMove s t) : encPhaseAllowed s.enc.phase t.enc.phase = true := by
  cases h with
  | rests => simp
  | header hp => rw [hp]; exact encPhaseAllowed_afterHeader _
  | pixel hp hlt p hsrc =>
    simpa only [emitBytes_enc, State.setEnc_enc, encAdvance, hp] using encPhaseAllowed_afterSource _ _
  | trailer hp => rw [hp]; rfl

theorem HostOnDec.phase_allowed {s t : State} {a : HostAction} (h : HostOnDec s a t) (htr : s.dec.phase ≠ .trailer) :
    decPhaseAllowed s.dec.phase t.dec.phase = true := by
  cases h with
  | keeps hsame => simp [hsame.dec]
  | idles ha hphase herr hvalid hdst => simp [hphase]
  | starts hrest k hdec hinp hdst => rw [hdec]; exact decPhaseAllowed_header hrest
  | fails hbusy w h c cs hdec hinp hended hdst => rw [hdec]; exact decPhaseAllowed_error hbusy htr
  | offers hbusy hdec hinp hdst => simp [hdec]

theorem HostOnEnc.phase_allowed {s t : State} {a : HostAction} (h : HostOnEnc s a t) :
    encPhaseAllowed s.enc.phase t.enc.phase = true := by
  cases h with
  | keeps hsame => simp [hsame.enc]
  | idles ha hphase herr hout => simp [hphase]
  | starts hrest henc hsrc hout => rw [henc]; exact encPhaseAllowed_header hrest
  | fails hbusy henc hsrc hout => rw [henc]; exact encPhaseAllowed_error hbusy
  | offers hbusy hroom henc hsrc hout => simp [henc]

/-- Settles O44: the invariant is needed for one thing only, that DEC is never in TRAILER. -/
theorem phaseTransitions : Obligations.PhaseTransitions := by
  intro s t hi h
  constructor
  · rcases step_onDec h with ⟨a, l, -, hact⟩ | hmove | hsame
    · exact hact.phase_allowed hi.dec.noTrailer
    · exact hmove.phase_allowed
    · simp [hsame.dec]
  · rcases step_onEnc h with ⟨a, l, -, hact⟩ | hmove | hsame
    · exact hact.phase_allowed
    · exact hmove.phase_allowed
    · simp [hsame.enc]

/-! ### HDR_VALID (R27) -/

/-- No action of the host sets HDR_VALID. -/
theorem HostOnDec.hdrValid_imp {s t : State} {a : HostAction} (h : HostOnDec s a t) (hv : t.dec.hdrValid = true) :
    s.dec.hdrValid = true := by
  cases h with
  | keeps hsame => rwa [hsame.dec] at hv
  | idles ha hphase herr hvalid hdst => exact hvalid hv
  | starts hrest k hdec hinp hdst => rw [hdec] at hv; cases hv
  | fails hbusy w h c cs hdec hinp hended hdst => rwa [hdec] at hv
  | offers hbusy hdec hinp hdst => rwa [hdec] at hv

/-- Among the decoder's moves the good header alone sets HDR_VALID. -/
theorem DecMove.sets_hdrValid {s t : State} (h : DecMove s t) (hs : s.dec.hdrValid = false) (ht : t.dec.hdrValid = true) :
    s.dec.phase = .header ∧ t.dec.phase = .pixels ∧ headerLegal t.dec.hdrWidth t.dec.hdrHeight t.dec.hdrChannels := by
  have hkept : t.dec.hdrValid ≠ s.dec.hdrValid := by simp [hs, ht]
  cases h with
  | goodHeader hp hl w h c cs hw hh hc => exact ⟨hp, rfl, hw, hh, hc⟩
  | rests => exact absurd rfl hkept
  | shortHeader => exact absurd rfl hkept
  | badHeader => exact absurd rfl hkept
  | continues => exact absurd rfl hkept
  | chunk => exact absurd rfl hkept
  | truncated => exact absurd rfl hkept

/-- Settles O45. -/
theorem headerValidSetOnlyByTheHeaderStep : Obligations.HeaderValidSetOnlyByTheHeaderStep := by
  intro s t h hs ht
  rcases step_onDec h with ⟨a, l, -, hact⟩ | hmove | hsame
  · have hv : s.dec.hdrValid = true := hact.hdrValid_imp ht
    simp [hv] at hs
  · exact hmove.sets_hdrValid hs ht
  · rw [hsame.dec, popAgenda_dec, hs] at ht
    cases ht

/-! ### The positions (R19, R20, R22) -/

/-- A move of DEC takes IPOS and PPOS forward or leaves them; a header step begins at IPOS = 0. -/
theorem DecMove.positions_le {s t : State} (h : DecMove s t) (hfresh : s.dec.phase = .header → s.dec.ipos = 0) :
    s.dec.ipos ≤ t.dec.ipos ∧ s.dec.ppos ≤ t.dec.ppos := by
  cases h with
  | rests => exact ⟨le_refl _, le_refl _⟩
  | shortHeader hp hl he => exact ⟨by simp [hfresh hp], le_refl _⟩
  | badHeader hp hl w h c cs => exact ⟨by simp [hfresh hp], le_refl _⟩
  | goodHeader hp hl w h c cs hw hh hc => exact ⟨by simp [hfresh hp], le_refl _⟩
  | continues hp hr hlt => exact ⟨le_refl _, Nat.le_succ _⟩
  | chunk hp hr hlt n px run hn hle hrun => exact ⟨Nat.le_add_right _ _, Nat.le_succ _⟩
  | truncated hp hr he => exact ⟨Nat.le_max_left _ _, le_refl _⟩

theorem EncMove.positions_le {s t : State} (h : EncMove s t) : s.enc.opos ≤ t.enc.opos ∧ s.enc.ppos ≤ t.enc.ppos := by
  cases h with
  | rests => exact ⟨le_refl _, le_refl _⟩
  | header hp => exact ⟨Nat.le_add_right _ _, le_refl _⟩
  | pixel hp hlt p hsrc => exact ⟨Nat.le_add_right _ _, Nat.le_succ _⟩
  | trailer hp => exact ⟨Nat.le_add_right _ _, le_refl _⟩

theorem HostOnDec.positions_le {s t : State} {a : HostAction} (h : HostOnDec s a t) (ha : resetsDec (.host a) = false) :
    s.dec.ipos ≤ t.dec.ipos ∧ s.dec.ppos ≤ t.dec.ppos := by
  cases h with
  | keeps hsame => simp [hsame.dec]
  | idles ha' hphase herr hvalid hdst => simp [ha'] at ha
  | starts hrest k hdec hinp hdst => cases ha
  | fails hbusy w h c cs hdec hinp hended hdst => rw [hdec]; exact ⟨Nat.le_add_right _ _, le_refl _⟩
  | offers hbusy hdec hinp hdst => simp [hdec]

theorem HostOnEnc.positions_le {s t : State} {a : HostAction} (h : HostOnEnc s a t) (ha : resetsEnc (.host a) = false) :
    s.enc.opos ≤ t.enc.opos ∧ s.enc.ppos ≤ t.enc.ppos := by
  cases h with
  | keeps hsame => simp [hsame.enc]
  | idles ha' hphase herr hout => simp [ha'] at ha
  | starts hrest henc hsrc hout => cases ha
  | fails hbusy henc hsrc hout => simp [henc]
  | offers hbusy hroom henc hsrc hout => simp [henc]

/-- Settles O46: the invariant gives IPOS = 0 before the header step. -/
theorem positionsNeverDecrease : Obligations.PositionsNeverDecrease := by
  intro s t hi h
  constructor
  · intro hno
    rcases step_onDec h with ⟨a, l, hag, hact⟩ | hmove | hsame
    · exact hact.positions_le (hno _ (by simp [hag]))
    · refine hmove.positions_le fun hp => ?_
      obtain ⟨-, -, -, hipos, -⟩ := hi.dec.fresh hp
      exact hipos
    · simp [hsame.dec]
  · intro hno
    rcases step_onEnc h with ⟨a, l, hag, hact⟩ | hmove | hsame
    · exact hact.positions_le (hno _ (by simp [hag]))
    · exact hmove.positions_le
    · simp [hsame.enc]

/-! ### Hardware reset and the status outputs (R32, R173) -/

/-- The status outputs of an idle context are 0. -/
theorem idle_outputs {s : State} {e : Engine} (h : s.phaseOf e = .idle) :
    (s.phaseOf e).busy = false ∧ (s.phaseOf e).isDone = false ∧ (s.phaseOf e).isError = false := by
  rw [h]
  decide

/-- Settles O40. -/
theorem hardwareResetValues : Obligations.HardwareResetValues := by
  refine ⟨fun s e => ⟨Phase.busy_iff _, Phase.isDone_iff _, Phase.isError_iff _, rfl, rfl⟩, ?_, fun s l hag => ?_⟩
  · refine ⟨rfl, rfl, rfl, rfl, rfl, fun e => idle_outputs ?_⟩
    cases e <;> rfl
  · refine ⟨_, step_of_host hag, rfl, rfl, rfl, rfl, rfl, fun e => idle_outputs ?_⟩
    cases e <;> rfl

/-! ### The ports (R178, R180) -/

theorem offerByte_of_busy {s : State} (b : Byte) (hbusy : s.dec.phase.busy = true) (hended : s.inpEnded = false) :
    offerByte b s = s.setInp (s.inp ++ [b]) := by
  simp [offerByte, hbusy, hended]

theorem offerByte_dropped {s : State} (b : Byte) (h : s.dec.phase.busy = false ∨ s.inpEnded = true) : offerByte b s = s := by
  rcases h with h | h <;> simp [offerByte, h]

theorem signalEnd_of_busy {s : State} (hbusy : s.dec.phase.busy = true) : signalEnd s = s.setInpEnded true := if_pos hbusy

theorem signalEnd_dropped {s : State} (h : s.dec.phase.busy = false) : signalEnd s = s := by
  simp [signalEnd, h]

theorem offerPixel_of_busy {s : State} (p : Pixel) (hbusy : s.enc.phase.busy = true) (hroom : s.src.length < s.enc.npix) :
    offerPixel p s = s.setSrc (s.src ++ [p]) := by
  simp [offerPixel, hbusy, hroom]

theorem offerPixel_dropped {s : State} (p : Pixel) (h : s.enc.phase.busy = false ∨ s.enc.npix ≤ s.src.length) :
    offerPixel p s = s := by
  rcases h with h | h <;> simp [offerPixel, h]

theorem boLast_iff (s : State) (a : Nat) : boLast s a = true ↔ s.enc.phase = .done ∧ a + 1 = s.enc.opos := by
  simp [boLast]

/-- After the trailer step the last-byte indication goes with the fourth of its bytes (R178). -/
theorem boLast_of_trailer {s t : State} (h : exec .trailer s = .next t) (a : Nat) : boLast t a = true ↔ a = s.enc.opos + 3 := by
  simp only [exec, execTrailer, Host.Outcome.next.injEq] at h
  subst h
  rw [boLast_iff]
  change Phase.done = .done ∧ a + 1 = s.enc.opos + 4 ↔ a = s.enc.opos + 3
  simp

/-- Settles O60: each action by the equation of what it does, counted or dropped. -/
theorem hostPortsCarryWhatIsOffered : Obligations.HostPortsCarryWhatIsOffered := by
  refine ⟨fun s b l hag => ?_, fun s l hag => ?_, fun s p l hag => ?_, fun s c l hag => step_of_host hag,
    fun s b l hag => step_of_host hag, fun s b l hag => step_of_host hag, fun s t h a => boLast_of_trailer h a, fun s a hp => ?_⟩
  · rw [step_of_host hag, hostAct]
    refine ⟨fun hp hended => ?_, fun hp => ?_⟩
    · rw [offerByte_of_busy (s := popAgenda s) b ((Phase.busy_iff _).mpr hp) hended]
      rfl
    · rw [offerByte_dropped b]
      simpa only [popAgenda_dec, popAgenda_inpEnded, Phase.busy_eq_false_iff, or_assoc] using hp
  · rw [step_of_host hag, hostAct]
    refine ⟨fun hp => ?_, fun hp => ?_⟩
    · rw [signalEnd_of_busy (s := popAgenda s) ((Phase.busy_iff _).mpr hp)]
      rfl
    · rw [signalEnd_dropped (s := popAgenda s) ((Phase.busy_eq_false_iff _).mpr hp)]
  · rw [step_of_host hag, hostAct]
    refine ⟨fun hp hroom => ?_, fun hp => ?_⟩
    · rw [offerPixel_of_busy (s := popAgenda s) p ((Phase.busy_iff _).mpr hp) hroom]
      rfl
    · rw [offerPixel_dropped p]
      simpa only [popAgenda_enc, popAgenda_src, Phase.busy_eq_false_iff, or_assoc] using hp
  · rw [Bool.eq_false_iff, Ne, boLast_iff]
    exact fun h => hp h.1

end Sys2Proof.Machine
end

section
/-!
PROOFS. Noninterference (R13, R53): a turn of one engine commutes with putting that engine's own part of the state into the
surroundings of another state.
-/
namespace Sys2Proof.Machine

/-! ### Outcomes and turns with their states mapped -/

/-- An outcome with its next state mapped. -/
def mapNext (f : State → State) : Result → Result
  | .next s => .next (f s)
  | .fault r => .fault r
  | .refused r => .refused r

theorem mapNext_next {f : State → State} {o : Result} {t : State} (h : o = .next t) : mapNext f o = .next (f t) := by
  subst h
  rfl

/-- A reading with its states mapped. -/
def Read.mapState {α : Type} (f : State → State) : Read α → Read α
  | .got x s => .got x (f s)
  | .ended s => .ended (f s)
  | .waits => .waits

/-! ### The decoder -/

/-- The decoder's part of `s` in the surroundings of `u`. -/
def graftDec (u s : State) : State :=
  { u with dec := s.dec, inp := s.inp, inpEnded := s.inpEnded, dst := s.dst, pxoAccepted := s.pxoAccepted }

@[simp] theorem graftDec_dec (u s : State) : (graftDec u s).dec = s.dec := rfl
@[simp] theorem graftDec_inp (u s : State) : (graftDec u s).inp = s.inp := rfl
@[simp] theorem graftDec_inpEnded (u s : State) : (graftDec u s).inpEnded = s.inpEnded := rfl
@[simp] theorem graftDec_pxoAccepted (u s : State) : (graftDec u s).pxoAccepted = s.pxoAccepted := rfl

theorem sameDecoder_graftDec (u s : State) : SameDecoder s (graftDec u s) := ⟨rfl, rfl, rfl, rfl, rfl⟩

theorem SameDecoder.eq_graftDec {s1 s2 : State} (h : SameDecoder s1 s2) : s2 = graftDec s2 s1 :=
  State.ext_fields h.dec rfl h.inp h.inpEnded h.dst rfl rfl rfl h.pxo rfl rfl rfl

theorem nextByte_of_none {s : State} (h : s.inp[s.dec.ipos]? = none) :
    nextByte s = if s.inpEnded then .ended s else .waits := by
  simp only [nextByte, h]

theorem nextByte_graftDec (u s : State) : nextByte (graftDec u s) = (nextByte s).mapState (graftDec u) := by
  cases hget : s.inp[s.dec.ipos]? with
  | some b =>
    rw [nextByte_of_lt hget, nextByte_of_lt (s := graftDec u s) hget]
    rfl
  | none =>
    rw [nextByte_of_none hget, nextByte_of_none (s := graftDec u s) hget, graftDec_inpEnded]
    split <;> rfl

theorem nextBytes_graftDec (u : State) (n : Nat) :
    ∀ s, nextBytes n (graftDec u s) = (nextBytes n s).mapState (graftDec u) := by
  induction n with
  | zero => exact fun _ => rfl
  | succ n ih =>
    intro s
    simp only [nextBytes, nextByte_graftDec]
    cases nextByte s with
    | got b s1 =>
      simp only [Read.mapState, ih]
      cases nextBytes n s1 <;> rfl
    | ended s1 => rfl
    | waits => rfl

theorem readChunk_graftDec (u s : State) : readChunk (graftDec u s) = (readChunk s).mapState (graftDec u) := by
  simp only [readChunk, nextByte_graftDec]
  cases nextByte s with
  | got b1 s1 =>
    simp only [Read.mapState, nextBytes_graftDec]
    cases nextBytes (chunkLength b1 - 1) s1 <;> rfl
  | ended s1 => rfl
  | waits => rfl

theorem emitPixel_graftDec (u : State) (px : Pixel) (s : State) :
    emitPixel px (graftDec u s) = mapNext (graftDec u) (emitPixel px s) := by
  by_cases h : s.dec.ppos < s.dec.npix
  · rw [emitPixel_of_room h, emitPixel_of_room (s := graftDec u s) h]
    rfl
  · have hs : emitPixel px s = .fault .noDestinationPixel := if_neg h
    rw [hs]
    exact if_neg h

theorem resolvePixel_graftDec (u : State) (px : Pixel) (s : State) :
    resolvePixel px (graftDec u s) = mapNext (graftDec u) (resolvePixel px s) :=
  emitPixel_graftDec u px (s.setDec { s.dec with cache := store s.dec.cache px })

theorem execHeader_graftDec (u : State) (w h : Word) (c cs : Byte) (s : State) :
    execHeader w h c cs (graftDec u s) = mapNext (graftDec u) (execHeader w h c cs s) := by
  unfold execHeader
  repeat' split
  all_goals rfl

/-- Whatever DEC executes (it never meets a trailer: R122) works on its own part. -/
theorem exec_graftDec (u : State) {i : Instr} (hi : i ≠ .trailer) (s : State) :
    exec i (graftDec u s) = mapNext (graftDec u) (exec i s) := by
  cases i with
  | index k => exact resolvePixel_graftDec u _ s
  | runS n => exact resolvePixel_graftDec u _ (s.setDec { s.dec with run := runLoadS n })
  | runL f => exact resolvePixel_graftDec u _ (s.setDec { s.dec with run := runLoadL f })
  | diffS r g b => exact resolvePixel_graftDec u _ s
  | diffM r g b => exact resolvePixel_graftDec u _ s
  | diffL r g b a => exact resolvePixel_graftDec u _ s
  | overwrite r g b a => exact resolvePixel_graftDec u _ s
  | header w h c cs => exact execHeader_graftDec u w h c cs s
  | trailer => exact absurd rfl hi

theorem rejectMagic_graftDec (u : State) (bs : List Byte) (s : State) :
    rejectMagic bs (graftDec u s) = graftDec u (rejectMagic bs s) := by
  unfold rejectMagic loadParsed
  split <;> rfl

theorem headerTurn_graftDec (u s : State) :
    playTurn (headerTurn (graftDec u s)) (graftDec u s) = mapNext (graftDec u) (playTurn (headerTurn s) s) := by
  unfold headerTurn
  rw [graftDec_dec, graftDec_inp, graftDec_inpEnded]
  split
  · split <;> rfl
  · split
    · rename_i i rest hd
      obtain ⟨w, h, c, cs, rfl, -⟩ := decodeHeader_ok hd
      exact execHeader_graftDec u w h c cs (s.setDec { s.dec with ipos := 14 })
    · exact congrArg Host.Outcome.next (rejectMagic_graftDec u _ (s.setDec { s.dec with ipos := 14 }))

theorem chunkTurn_graftDec (u s : State) :
    playTurn (chunkTurn (graftDec u s)) (graftDec u s) = mapNext (graftDec u) (playTurn (chunkTurn s) s) := by
  unfold chunkTurn
  rw [readChunk_graftDec, graftDec_pxoAccepted]
  cases readChunk s with
  | got bs t =>
    simp only [Read.mapState]
    split
    · cases hd : decodeAt .chunk bs with
      | ok i rest =>
        refine exec_graftDec u (fun htr => ?_) t
        have hpos := decodeChunk_position hd
        rw [htr] at hpos
        cases hpos
      | reject r => exact resolvePixel_graftDec u _ t
    · rfl
  | ended t => rfl
  | waits => rfl

theorem pixelTurn_graftDec (u s : State) :
    playTurn (pixelTurn (graftDec u s)) (graftDec u s) = mapNext (graftDec u) (playTurn (pixelTurn s) s) := by
  unfold pixelTurn
  rw [graftDec_dec, graftDec_pxoAccepted]
  split
  · split
    · exact emitPixel_graftDec u _ (s.setDec { s.dec with run := s.dec.run - 1#14 })
    · rfl
  · exact chunkTurn_graftDec u s

/-- A turn of DEC in other surroundings is the same turn. -/
theorem decTurn_graftDec (u s : State) :
    playTurn (decTurn (graftDec u s)) (graftDec u s) = mapNext (graftDec u) (playTurn (decTurn s) s) := by
  unfold decTurn
  rw [graftDec_dec]
  split
  · exact headerTurn_graftDec u s
  · exact pixelTurn_graftDec u s
  all_goals rfl

/-! ### The encoder -/

/-- The encoder's part of `s` in the surroundings of `u`. -/
def graftEnc (u s : State) : State :=
  { u with enc := s.enc, src := s.src, out := s.out, boAccepted := s.boAccepted }

@[simp] theorem graftEnc_enc (u s : State) : (graftEnc u s).enc = s.enc := rfl
@[simp] theorem graftEnc_src (u s : State) : (graftEnc u s).src = s.src := rfl
@[simp] theorem graftEnc_boAccepted (u s : State) : (graftEnc u s).boAccepted = s.boAccepted := rfl

theorem sameEncoder_graftEnc (u s : State) : SameEncoder s (graftEnc u s) := ⟨rfl, rfl, rfl, rfl⟩

theorem SameEncoder.eq_graftEnc {s1 s2 : State} (h : SameEncoder s1 s2) : s2 = graftEnc s2 s1 :=
  State.ext_fields rfl h.enc rfl rfl rfl h.src h.out rfl rfl h.bo rfl rfl

theorem emitBytes_graftEnc (u : State) (bs : List Byte) (s : State) :
    emitBytes bs (graftEnc u s) = graftEnc u (emitBytes bs s) := rfl

theorem encodePixel_graftEnc (u : State) (p : Pixel) (s : State) :
    encodePixel p (graftEnc u s) = mapNext (graftEnc u) (encodePixel p s) := by
  unfold encodePixel
  rw [graftEnc_enc]
  split
  · exact congrArg Host.Outcome.next (emitBytes_graftEnc u _ (s.setEnc (encAdvance s.enc p)))
  · rfl

theorem sourceTurn_graftEnc (u s : State) :
    playTurn (sourceTurn (graftEnc u s)) (graftEnc u s) = mapNext (graftEnc u) (playTurn (sourceTurn s) s) := by
  unfold sourceTurn
  rw [graftEnc_enc, graftEnc_src, graftEnc_boAccepted]
  split
  · split
    · exact encodePixel_graftEnc u _ s
    · rfl
  · rfl

/-- A turn of ENC in other surroundings is the same turn. -/
theorem encTurn_graftEnc (u s : State) :
    playTurn (encTurn (graftEnc u s)) (graftEnc u s) = mapNext (graftEnc u) (playTurn (encTurn s) s) := by
  have hheader : emitHeader (graftEnc u s) = graftEnc u (emitHeader s) := rfl
  have htrailer : execTrailer (graftEnc u s) = mapNext (graftEnc u) (execTrailer s) := rfl
  unfold encTurn
  rw [graftEnc_enc, graftEnc_boAccepted]
  split
  · split
    · exact congrArg Host.Outcome.next hheader
    · rfl
  · exact sourceTurn_graftEnc u s
  · split
    · exact htrailer
    · rfl
  all_goals rfl

/-! ### The statement -/

theorem SameDecoder.popAgenda {s1 s2 : State} (h : SameDecoder s1 s2) : SameDecoder (popAgenda s1) (popAgenda s2) :=
  ⟨h.dec, h.inp, h.inpEnded, h.dst, h.pxo⟩

theorem SameEncoder.popAgenda {s1 s2 : State} (h : SameEncoder s1 s2) : SameEncoder (popAgenda s1) (popAgenda s2) :=
  ⟨h.enc, h.src, h.out, h.bo⟩

/-- Settles O43: the second state is the first one's own part in other surroundings, where the turn is the same. -/
theorem enginesDependOnlyOnTheirOwn : Obligations.EnginesDependOnlyOnTheirOwn := by
  refine ⟨fun s1 s2 t1 l1 l2 hag1 hag2 hsame h => ?_, fun s1 s2 t1 l1 l2 hag1 hag2 hsame h => ?_⟩
  · rw [step_of_engine hag1] at h
    refine ⟨graftDec (popAgenda s2) t1, ?_, sameDecoder_graftDec _ _⟩
    rw [step_of_engine hag2, hsame.popAgenda.eq_graftDec]
    exact (decTurn_graftDec _ _).trans (mapNext_next h)
  · rw [step_of_engine hag1] at h
    refine ⟨graftEnc (popAgenda s2) t1, ?_, sameEncoder_graftEnc _ _⟩
    rw [step_of_engine hag2, hsame.popAgenda.eq_graftEnc]
    exact (encTurn_graftEnc _ _).trans (mapNext_next h)

end Sys2Proof.Machine
end

section
/-!
PROOFS. The judgement of the header step (R87 to R90): what HDR.PARSE does with 14 bytes, by the four checks it makes.
-/
namespace Sys2Proof.Machine

/-- The fields of a header lie in its first 14 bytes. -/
theorem headerParts_take {bs m rest : List Byte} {w h : Word} {c cs : Byte} (hparts : headerParts bs = some (m, w, h, c, cs, rest)) :
    14 ≤ bs.length ∧ headerParts (bs.take 14) = some (m, w, h, c, cs, []) := by
  unfold headerParts at hparts
  split at hparts
  · simp only [Option.some.injEq, Prod.mk.injEq] at hparts
    obtain ⟨rfl, rfl, rfl, rfl, rfl, -⟩ := hparts
    exact ⟨by simp, rfl⟩
  · cases hparts

theorem execHeader_of_legal {w h : Word} {c : Byte} (hlegal : headerLegal w h c) (cs : Byte) (s : State) :
    execHeader w h c cs s = .next (acceptHeader (loadHeader w h c cs s)) := by
  obtain ⟨hw, hh, hc⟩ := hlegal
  have hchannels : ¬(c ≠ 3#8 ∧ c ≠ 4#8) := by tauto
  rw [execHeader, if_neg hw, if_neg hh, if_neg hchannels]

theorem execHeader_of_not_legal {w h : Word} {c : Byte} (hlegal : ¬headerLegal w h c) (cs : Byte) (s : State) :
    execHeader w h c cs s = .next (raiseDec .format (loadHeader w h c cs s)) :=
  (execHeader_cases w h c cs s).resolve_right fun haccepted => hlegal haccepted.1

/-- With 14 bytes offered the header step executes a header whose magic is right and rejects every other. -/
theorem headerTurn_of_parts {s : State} {m rest : List Byte} {w h : Word} {c cs : Byte}
    (hparts : headerParts s.inp = some (m, w, h, c, cs, rest)) :
    headerTurn s =
      if m = magic then .run (.header w h c cs) (s.setDec { s.dec with ipos := 14 })
      else .settled (.next (raiseDec .format (loadHeader w h c cs (s.setDec { s.dec with ipos := 14 })))) := by
  obtain ⟨hlen, htake⟩ := headerParts_take hparts
  have hdecode : decodeAt .header (s.inp.take 14) = if m = magic then .ok (.header w h c cs) [] else .reject .badMagic := by
    simp only [decodeAt, decodeHeader, htake]
  rw [headerTurn, if_neg (by omega), hdecode]
  by_cases hm : m = magic
  · simp only [if_pos hm]
  · simp only [if_neg hm, rejectMagic, loadParsed, htake]

/-- The header step judges what it read: it accepts a right magic with legal fields, and raises on everything else. -/
theorem decTurn_of_header {s : State} {m rest : List Byte} {w h : Word} {c cs : Byte} (hp : s.dec.phase = .header)
    (hparts : headerParts s.inp = some (m, w, h, c, cs, rest)) :
    (m = magic ∧ headerLegal w h c →
      playTurn (decTurn s) s = .next (acceptHeader (loadHeader w h c cs (s.setDec { s.dec with ipos := 14 })))) ∧
    (¬(m = magic ∧ headerLegal w h c) →
      playTurn (decTurn s) s = .next (raiseDec .format (loadHeader w h c cs (s.setDec { s.dec with ipos := 14 })))) := by
  have hturn : decTurn s = headerTurn s := by simp only [decTurn, hp]
  rw [hturn, headerTurn_of_parts hparts]
  refine ⟨fun ⟨hm, hlegal⟩ => ?_, fun hbad => ?_⟩
  · rw [if_pos hm]
    exact execHeader_of_legal hlegal cs _
  · by_cases hm : m = magic
    · rw [if_pos hm]
      exact execHeader_of_not_legal (fun hlegal => hbad ⟨hm, hlegal⟩) cs _
    · rw [if_neg hm]
      rfl

theorem eq_magic_iff (m0 m1 m2 m3 : Byte) :
    [m0, m1, m2, m3] = magic ↔ m0 = 0x71#8 ∧ m1 = 0x6F#8 ∧ m2 = 0x69#8 ∧ m3 = 0x66#8 := by
  simp [magic]

/-- Settles O25: the two outcomes of `decTurn_of_header`, the registers as the sums of R46. -/
theorem headerStepJudgesTheHeader : Obligations.HeaderStepJudgesTheHeader := by
  intro s l m0 m1 m2 m3 w3 w2 w1 w0 h3 h2 h1 h0 c cs rest hag hp hinp
  have hparts : headerParts (popAgenda s).inp =
      some ([m0, m1, m2, m3], wordOfBytes w3 w2 w1 w0, wordOfBytes h3 h2 h1 h0, c, cs, rest) := by
    rw [popAgenda_inp, hinp]
    rfl
  obtain ⟨haccepts, hraises⟩ := decTurn_of_header (s := popAgenda s) hp hparts
  have hwidth := wordOfBytes_toNat w3 w2 w1 w0
  have hheight := wordOfBytes_toNat h3 h2 h1 h0
  rw [step_of_engine hag, engineTurn]
  rw [eq_magic_iff, headerLegal] at haccepts hraises
  by_cases hgood : (m0 = 0x71#8 ∧ m1 = 0x6F#8 ∧ m2 = 0x69#8 ∧ m3 = 0x66#8) ∧
      wordOfBytes w3 w2 w1 w0 ≠ 0#32 ∧ wordOfBytes h3 h2 h1 h0 ≠ 0#32 ∧ (c = 3#8 ∨ c = 4#8)
  · exact ⟨_, haccepts hgood, rfl, rfl, rfl, hwidth, hheight, rfl, rfl, fun _ => ⟨rfl, rfl, rfl⟩, fun hbad => absurd hgood hbad⟩
  · exact ⟨_, hraises hgood, rfl, rfl, rfl, hwidth, hheight, rfl, rfl, fun h => absurd h hgood, fun _ => ⟨rfl, rfl, rfl, rfl⟩⟩

end Sys2Proof.Machine
end

section
/-!
PROOFS. The caches and the output spaces over every step: a cache changes by a Store only (R57), a byte once written stays
(R41, R43), both spaces stay canonical (log 16).
-/
namespace Sys2Proof.Machine

/-! ### The caches (R57, R120, R145) -/

theorem DecMove.cache_cases {s t : State} (h : DecMove s t) :
    t.dec.cache = s.dec.cache ∨ t.dec.cache = store s.dec.cache t.dec.prev := by
  cases h with
  | chunk hp hr hlt n px run hn hle hrun => exact .inr rfl
  | rests => exact .inl rfl
  | shortHeader hp hl he => exact .inl rfl
  | badHeader hp hl w h c cs => exact .inl rfl
  | goodHeader hp hl w h c cs hw hh hc => exact .inl rfl
  | continues hp hr hlt => exact .inl rfl
  | truncated hp hr he => exact .inl rfl

theorem EncMove.cache_cases {s t : State} (h : EncMove s t) :
    t.enc.cache = s.enc.cache ∨ t.enc.cache = store s.enc.cache t.enc.prev := by
  cases h with
  | rests => exact .inl rfl
  | header hp => exact .inl rfl
  | pixel hp hlt p hsrc =>
    cases heq : eqPrev s.enc p with
    | true => exact .inl (by simp [encAdvance, heq])
    | false => exact .inr (by simp [encAdvance, heq])
  | trailer hp => exact .inl rfl

/-- No action of the host touches the cache of a pass it neither begins nor ends. -/
theorem HostOnDec.cache_eq {s t : State} {a : HostAction} (h : HostOnDec s a t) (ha : resetsDec (.host a) = false) :
    t.dec.cache = s.dec.cache := by
  cases h with
  | keeps hsame => rw [hsame.dec]
  | idles ha' hphase herr hvalid hdst => simp [ha'] at ha
  | starts hrest k hdec hinp hdst => cases ha
  | fails hbusy w h c cs hdec hinp hended hdst => rw [hdec]
  | offers hbusy hdec hinp hdst => rw [hdec]

theorem HostOnEnc.cache_eq {s t : State} {a : HostAction} (h : HostOnEnc s a t) (ha : resetsEnc (.host a) = false) :
    t.enc.cache = s.enc.cache := by
  cases h with
  | keeps hsame => rw [hsame.enc]
  | idles ha' hphase herr hout => simp [ha'] at ha
  | starts hrest henc hsrc hout => cases ha
  | fails hbusy henc hsrc hout => rw [henc]
  | offers hbusy hroom henc hsrc hout => rw [henc]

/-- Settles O48: only a move of the engine itself stores. -/
theorem cachesChangeOnlyByStore : Obligations.CachesChangeOnlyByStore := by
  refine fun s t h => ⟨fun hno => ?_, fun hno => ?_⟩
  · rcases step_onDec h with ⟨a, l, hag, hact⟩ | hmove | hsame
    · exact .inl (hact.cache_eq (hno _ (by simp [hag])))
    · exact hmove.cache_cases
    · exact .inl (by rw [hsame.dec, popAgenda_dec])
  · rcases step_onEnc h with ⟨a, l, hag, hact⟩ | hmove | hsame
    · exact .inl (hact.cache_eq (hno _ (by simp [hag])))
    · exact hmove.cache_cases
    · exact .inl (by rw [hsame.enc, popAgenda_enc])

/-! ### Output is appended (R41, R43, R130) -/

theorem Memory.mem_of_read {m : Memory} {a : Nat} {b : Byte} (h : m.read a = some b) : (a, b) ∈ m := by
  induction m with
  | nil => cases h
  | cons c m ih =>
    obtain ⟨k, x⟩ := c
    rw [Memory.read] at h
    split at h
    · rename_i hk
      cases h
      exact hk ▸ List.mem_cons_self
    · exact List.mem_cons_of_mem _ (ih h)

/-- A space that holds the bytes below `n` gives no byte at or above `n`. -/
theorem Memory.lt_of_read_of_dense {m : Memory} {n a : Nat} {b : Byte} (hm : m.dense n) (h : m.read a = some b) : a < n :=
  List.mem_range.mp (hm ▸ List.mem_map_of_mem (f := Prod.fst) (Memory.mem_of_read h))

/-- Every byte the first space holds stands in the second. -/
def Memory.Extends (m m' : Memory) : Prop := ∀ a b, m.read a = some b → m'.read a = some b

theorem Memory.Extends.refl (m : Memory) : m.Extends m := fun _ _ h => h

theorem Memory.Extends.of_eq {m m' : Memory} (h : m' = m) : m.Extends m' := h ▸ .refl m

/-- Bytes written at the bound of a space retract nothing. -/
theorem Memory.Extends.writeBytes {m : Memory} {n : Nat} (hm : m.dense n) (vs : List Byte) : m.Extends (m.writeBytes n vs) := by
  intro a b h
  rw [Memory.read_writeBytes_outside vs m n a (.inl (Memory.lt_of_read_of_dense hm h)), h]

theorem DecMove.extends_dst {s t : State} (hi : DecInv s) (h : DecMove s t) : s.dst.Extends t.dst := by
  cases h with
  | continues hp hr hlt => exact .writeBytes (hi.written (by simp [hp])) _
  | chunk hp hr hlt n px run hn hle hrun => exact .writeBytes (hi.written (by simp [hp])) _
  | rests => exact .refl _
  | shortHeader hp hl he => exact .refl _
  | badHeader hp hl w h c cs => exact .refl _
  | goodHeader hp hl w h c cs hw hh hc => exact .refl _
  | truncated hp hr he => exact .refl _

theorem EncMove.extends_out {s t : State} (hi : EncInv s) (h : EncMove s t) : s.out.Extends t.out := by
  cases h with
  | rests => exact .refl _
  | header hp => exact .writeBytes (hi.written (by simp [hp])) _
  | pixel hp hlt p hsrc => exact .writeBytes (hi.written (by simp [hp])) _
  | trailer hp => exact .writeBytes (hi.written (by simp [hp])) _

theorem HostOnDec.dst_eq {s t : State} {a : HostAction} (h : HostOnDec s a t) (ha : a ≠ .start .dec) : t.dst = s.dst := by
  cases h with
  | keeps hsame => exact hsame.dst
  | idles ha' hphase herr hvalid hdst => exact hdst
  | starts hrest k hdec hinp hdst => exact absurd rfl ha
  | fails hbusy w h c cs hdec hinp hended hdst => exact hdst
  | offers hbusy hdec hinp hdst => exact hdst

theorem HostOnEnc.out_eq {s t : State} {a : HostAction} (h : HostOnEnc s a t) (ha : a ≠ .start .enc) : t.out = s.out := by
  cases h with
  | keeps hsame => exact hsame.out
  | idles ha' hphase herr hout => exact hout
  | starts hrest henc hsrc hout => exact absurd rfl ha
  | fails hbusy henc hsrc hout => exact hout
  | offers hbusy hroom henc hsrc hout => exact hout

/-- Settles O47: a move appends at the bound of its space, and of the host's actions only START empties one. -/
theorem outputIsNeverRetracted : Obligations.OutputIsNeverRetracted := by
  refine fun s t hi h => ⟨fun hno => ?_, fun hno => ?_⟩
  · have hpop : EncInv (popAgenda s) := hi.enc.of_same ⟨rfl, rfl, rfl⟩
    rcases step_onEnc h with ⟨a, l, hag, hact⟩ | hmove | hsame
    · exact Memory.Extends.of_eq (hact.out_eq fun ha => hno l (ha ▸ hag))
    · exact hmove.extends_out (s := popAgenda s) hpop
    · exact Memory.Extends.of_eq hsame.out
  · have hpop : DecInv (popAgenda s) := hi.dec.of_same ⟨rfl, rfl, rfl, rfl⟩
    rcases step_onDec h with ⟨a, l, hag, hact⟩ | hmove | hsame
    · exact Memory.Extends.of_eq (hact.dst_eq fun ha => hno l (ha ▸ hag))
    · exact hmove.extends_dst (s := popAgenda s) hpop
    · exact Memory.Extends.of_eq hsame.dst

/-! ### The canonical form (log 16) -/

/-- Settles O52. -/
theorem stepKeepsMemoriesCanonical : Obligations.StepKeepsMemoriesCanonical := fun _ _ hout hdst h =>
  ⟨step_out_wf h hout, step_dst_wf h hdst⟩

end Sys2Proof.Machine
end

section
/-!
PROOFS. Where the machine stops and where it cannot (R52, R79; log 12): the one fault of each engine is a pixel step past NPIX.
-/
namespace Sys2Proof.Machine

/-! ### A chunk past the raster -/

theorem emitPixel_of_full {px : Pixel} {s : State} (h : s.dec.npix ≤ s.dec.ppos) : emitPixel px s = .fault .noDestinationPixel :=
  if_neg (by omega)

/-- Settles O16: every chunk is one resolved pixel, and there is none left to write. -/
theorem chunkStopsPastTheRaster : Obligations.ChunkStopsPastTheRaster := by
  intro i s hi hfull
  obtain ⟨px, run, hexec, -⟩ := exec_chunk_resolves hi s
  rw [hexec, resolvePixel, emitPixel_of_full]
  exact hfull

/-! ### Turns that complete -/

theorem execHeader_completes (w h : Word) (c cs : Byte) (s : State) : ∃ t, execHeader w h c cs s = .next t := by
  rcases execHeader_cases w h c cs s with hexec | ⟨-, hexec⟩
  · exact ⟨_, hexec⟩
  · exact ⟨_, hexec⟩

theorem exec_chunk_of_room {i : Instr} (hi : i.position = .chunk) {s : State} (hroom : s.dec.ppos < s.dec.npix) :
    ∃ t, exec i s = .next t := by
  obtain ⟨px, run, hexec, -⟩ := exec_chunk_resolves hi s
  exact ⟨_, hexec.trans (resolvePixel_of_room hroom)⟩

theorem headerTurn_completes (s : State) : ∃ t, playTurn (headerTurn s) s = .next t := by
  unfold headerTurn
  split
  · split
    · exact ⟨_, rfl⟩
    · exact ⟨_, rfl⟩
  · split
    · rename_i i rest hd
      obtain ⟨w, h, c, cs, rfl, -⟩ := decodeHeader_ok hd
      exact execHeader_completes w h c cs _
    · exact ⟨_, rfl⟩

theorem chunkTurn_completes {s : State} (hroom : s.dec.ppos < s.dec.npix) : ∃ t, playTurn (chunkTurn s) s = .next t := by
  unfold chunkTurn
  split
  · rename_i bs t hread
    obtain ⟨-, -, -, -, -, -, rfl⟩ := readChunk_got hread
    split
    · split
      · rename_i i rest hd
        exact exec_chunk_of_room (decodeChunk_position hd) hroom
      · exact ⟨_, resolvePixel_of_room hroom⟩
    · exact ⟨_, rfl⟩
  · exact ⟨_, rfl⟩
  · exact ⟨_, rfl⟩

theorem pixelTurn_completes {s : State} (hroom : s.dec.ppos < s.dec.npix) : ∃ t, playTurn (pixelTurn s) s = .next t := by
  unfold pixelTurn
  split
  · split
    · exact ⟨_, emitPixel_of_room hroom⟩
    · exact ⟨_, rfl⟩
  · exact chunkTurn_completes hroom

/-- A turn of DEC completes, as PIXELS implies PPOS < NPIX (R109). -/
theorem decTurn_completes {s : State} (hroom : s.dec.phase = .pixels → s.dec.ppos < s.dec.npix) :
    ∃ t, playTurn (decTurn s) s = .next t := by
  unfold decTurn
  split
  · exact headerTurn_completes s
  · exact pixelTurn_completes (hroom ‹_›)
  all_goals exact ⟨_, rfl⟩

theorem encodePixel_of_room {p : Pixel} {s : State} (hroom : s.enc.ppos < s.enc.npix) :
    encodePixel p s = .next (emitBytes (encodeAll (pixelChunks s.enc p)) (s.setEnc (encAdvance s.enc p))) :=
  if_pos hroom

theorem sourceTurn_completes {s : State} (hroom : s.enc.ppos < s.enc.npix) : ∃ t, playTurn (sourceTurn s) s = .next t := by
  unfold sourceTurn
  split
  · split
    · exact ⟨_, encodePixel_of_room hroom⟩
    · exact ⟨_, rfl⟩
  · exact ⟨_, rfl⟩

/-- A turn of ENC completes, as PIXELS implies PPOS < NPIX (R131). -/
theorem encTurn_completes {s : State} (hroom : s.enc.phase = .pixels → s.enc.ppos < s.enc.npix) :
    ∃ t, playTurn (encTurn s) s = .next t := by
  unfold encTurn
  split
  · split
    · exact ⟨_, rfl⟩
    · exact ⟨_, rfl⟩
  · exact sourceTurn_completes (hroom ‹_›)
  · split
    · exact ⟨_, rfl⟩
    · exact ⟨_, rfl⟩
  all_goals exact ⟨_, rfl⟩

/-! ### Steps that complete -/

/-- With an empty agenda the step is a turn of one of the engines. -/
theorem playTurn_defaultTurn (s : State) : ∃ e, playTurn (defaultTurn s) s = playTurn (engineTurn e s) s := by
  unfold defaultTurn
  split
  · exact ⟨.dec, by simp only [engineTurn, *]⟩
  · exact ⟨.dec, by simp only [engineTurn, *]⟩
  · exact ⟨.enc, rfl⟩

/-- A step is an action of the host or a turn of one of the engines, whether or not it completes. -/
theorem step_eq_host_or_engine (s : State) :
    (∃ a, step s = .next (hostAct a (popAgenda s))) ∨ ∃ e, step s = playTurn (engineTurn e (popAgenda s)) (popAgenda s) := by
  cases hag : s.agenda with
  | nil =>
    have hstep : step s = playTurn (defaultTurn s) s := by simp only [step, nextTurn, hag, popAgenda_of_nil hag]
    rw [hstep, popAgenda_of_nil hag]
    exact .inr (playTurn_defaultTurn s)
  | cons a l =>
    cases a with
    | host a => exact .inl ⟨a, step_of_host hag⟩
    | engine e => exact .inr ⟨e, step_of_engine hag⟩

/-- Settles O51: the host's actions always complete, and under the invariant so do the turns of both engines. -/
theorem invariantStatesNeverStop : Obligations.InvariantStatesNeverStop := by
  intro s hi
  rcases step_eq_host_or_engine s with ⟨a, hstep⟩ | ⟨e, hstep⟩
  · exact ⟨_, hstep⟩
  · rw [hstep]
    cases e with
    | dec => exact decTurn_completes (s := popAgenda s) hi.dec.room
    | enc => exact encTurn_completes (s := popAgenda s) hi.enc.room

end Sys2Proof.Machine
end

section
/-!
PROOFS. Fields of joins and joins of fields (R7), and the seven forms the first byte of a chunk can have (R66, R67, R111).
-/
namespace Sys2Proof

/-! ### Fields and joins (R7) -/

@[simp] theorem field_self {w : Nat} (v : BitVec w) : field v 0 w = v := by
  simp [field]

/-- A field at or above the split of a join lies in the more significant part. -/
@[simp] theorem field_join_left {m n k lo w : Nat} (a : BitVec m) (b : BitVec n) (hk : k = m + n) (hlo : n ≤ lo) :
    field (join k a b) lo w = field a (lo - n) w := by
  apply BitVec.eq_of_toNat_eq
  obtain ⟨d, rfl⟩ := Nat.exists_eq_add_of_le hlo
  have hhigh : (a.toNat * 2 ^ n + b.toNat) / 2 ^ n = a.toNat := by
    rw [Nat.mul_comm, Nat.mul_add_div (Nat.two_pow_pos n), Nat.div_eq_of_lt b.isLt, Nat.add_zero]
  rw [field_toNat, field_toNat, join_toNat a b hk, Nat.pow_add, ← Nat.div_div_eq_div_mul, hhigh, Nat.add_sub_cancel_left]

/-- A field that ends at or below the split of a join lies in the less significant part. -/
@[simp] theorem field_join_right {m n k lo w : Nat} (a : BitVec m) (b : BitVec n) (hk : k = m + n) (hfit : lo + w ≤ n) :
    field (join k a b) lo w = field b lo w := by
  subst hk
  ext i hi
  have hlow : lo + i < n := by omega
  simp [field, join, BitVec.getLsbD_append, hlow]

/-- Two neighbouring fields join to the field they make up. -/
@[simp] theorem join_field_field {m n w k hi lo : Nat} (v : BitVec n) (hk : k = m + w) (hhi : hi = lo + w) :
    join k (field v hi m) (field v lo w) = field v lo k := by
  subst hk hhi
  apply BitVec.eq_of_toNat_eq
  rw [join_toNat _ _ rfl, field_toNat, field_toNat, field_toNat, Nat.add_comm m w, Nat.pow_add, Nat.pow_add,
    ← Nat.div_div_eq_div_mul, Nat.mod_mul]
  ring

theorem ofBool_getLsbD {n : Nat} (v : BitVec n) (k : Nat) : BitVec.ofBool (v.getLsbD k) = field v k 1 := by
  ext i hi
  obtain rfl : i = 0 := by omega
  simp [field]

/-- A byte whose high bits have the value of `t` is `t` joined with its other bits. -/
theorem eq_join_of_toNat_div {m : Nat} (t : BitVec m) (n : Nat) {b : Byte} (hk : 8 = m + n) (h : b.toNat / 2 ^ n = t.toNat) :
    b = join 8 t (field b 0 n) := by
  have hlow : b.toNat / 2 ^ n * 2 ^ n + b.toNat % 2 ^ n = b.toNat := Nat.div_add_mod' _ _
  apply BitVec.eq_of_toNat_eq
  rw [join_toNat _ _ hk, field_toNat, ← h, Nat.pow_zero, Nat.div_one, hlow]

/-! ### The first byte of a chunk -/

/-- The forms of a first byte: one of the seven tags, and in the other bits any payload (R66). -/
inductive FirstByte : Byte → Prop where
  | index (i : BitVec 6) : FirstByte (join 8 tagIndex i)
  | runS (n : BitVec 5) : FirstByte (join 8 tagRunS n)
  | runL (f : BitVec 5) : FirstByte (join 8 tagRunL f)
  | diffS (v : BitVec 6) : FirstByte (join 8 tagDiffS v)
  | diffM (r : BitVec 5) : FirstByte (join 8 tagDiffM r)
  | diffL (v : BitVec 4) : FirstByte (join 8 tagDiffL v)
  | overwrite (flags : BitVec 4) : FirstByte (join 8 tagOverwrite flags)

/-- The tags are complete: every byte has one of the seven forms (R67). -/
theorem firstByte (b : Byte) : FirstByte b := by
  have hlt : b.toNat < 256 := b.isLt
  have htag : b.toNat / 64 = 0 ∨ b.toNat / 32 = 2 ∨ b.toNat / 32 = 3 ∨ b.toNat / 64 = 2 ∨ b.toNat / 32 = 6 ∨
      b.toNat / 16 = 14 ∨ b.toNat / 16 = 15 := by omega
  rcases htag with h | h | h | h | h | h | h
  · exact eq_join_of_toNat_div tagIndex 6 rfl h ▸ .index _
  · exact eq_join_of_toNat_div tagRunS 5 rfl h ▸ .runS _
  · exact eq_join_of_toNat_div tagRunL 5 rfl h ▸ .runL _
  · exact eq_join_of_toNat_div tagDiffS 6 rfl h ▸ .diffS _
  · exact eq_join_of_toNat_div tagDiffM 5 rfl h ▸ .diffM _
  · exact eq_join_of_toNat_div tagDiffL 4 rfl h ▸ .diffL _
  · exact eq_join_of_toNat_div tagOverwrite 4 rfl h ▸ .overwrite _

/-! Each tag, whatever the payload, passes its own test of the dispatch and none of those before it (R111). -/

@[simp] theorem dispatchTag_index (i : BitVec 6) : dispatchTag (join 8 tagIndex i) = .index := by
  revert i; decide

@[simp] theorem dispatchTag_runS (n : BitVec 5) : dispatchTag (join 8 tagRunS n) = .runS := by
  revert n; decide

@[simp] theorem dispatchTag_runL (f : BitVec 5) : dispatchTag (join 8 tagRunL f) = .runL := by
  revert f; decide

@[simp] theorem dispatchTag_diffS (v : BitVec 6) : dispatchTag (join 8 tagDiffS v) = .diffS := by
  revert v; decide

@[simp] theorem dispatchTag_diffM (r : BitVec 5) : dispatchTag (join 8 tagDiffM r) = .diffM := by
  revert r; decide

@[simp] theorem dispatchTag_diffL (v : BitVec 4) : dispatchTag (join 8 tagDiffL v) = .diffL := by
  revert v; decide

@[simp] theorem dispatchTag_overwrite (flags : BitVec 4) : dispatchTag (join 8 tagOverwrite flags) = .overwrite := by
  revert flags; decide

/-- The literal count as the sum of the four flag bits. -/
theorem literalCount_eq (b : Byte) :
    literalCount b = b.toNat / 8 % 2 + b.toNat / 4 % 2 + b.toNat / 2 % 2 + b.toNat % 2 := by
  have hflag (k : Nat) : (b.getLsbD k).toNat = b.toNat / 2 ^ k % 2 := Nat.toNat_testBit _ _
  simp only [literalCount, flagR, flagG, flagB, flagA, hflag]
  omega

end Sys2Proof
end

section
/-!
PROOFS. The decoder and the encoder undo each other (R59, R77), and what a chunk's first byte says of its length (R78, R79).
-/
namespace Sys2Proof

/-! ### Decoding by the form of the first byte -/

@[simp] theorem decodeChunk_index (i : BitVec 6) (tl : List Byte) :
    decodeChunk (join 8 tagIndex i :: tl) = .ok (.index i) tl := by
  simp [decodeChunk]

@[simp] theorem decodeChunk_runS (n : BitVec 5) (tl : List Byte) :
    decodeChunk (join 8 tagRunS n :: tl) = .ok (.runS n) tl := by
  simp [decodeChunk]

@[simp] theorem decodeChunk_runL (f : BitVec 5) (b2 : Byte) (tl : List Byte) :
    decodeChunk (join 8 tagRunL f :: b2 :: tl) = .ok (.runL (join 13 f b2)) tl := by
  simp [decodeChunk, decodeRunL]

@[simp] theorem decodeChunk_diffS (v : BitVec 6) (tl : List Byte) :
    decodeChunk (join 8 tagDiffS v :: tl) = .ok (.diffS (field v 4 2) (field v 2 2) (field v 0 2)) tl := by
  simp [decodeChunk]

@[simp] theorem decodeChunk_diffM (r : BitVec 5) (b2 : Byte) (tl : List Byte) :
    decodeChunk (join 8 tagDiffM r :: b2 :: tl) = .ok (.diffM r (field b2 4 4) (field b2 0 4)) tl := by
  simp [decodeChunk, decodeDiffM]

theorem decodeChunk_diffL (v : BitVec 4) (b2 b3 : Byte) (tl : List Byte) (F : BitVec 20) (hF : F = join 20 v (join 16 b2 b3)) :
    decodeChunk (join 8 tagDiffL v :: b2 :: b3 :: tl) =
      .ok (.diffL (field F 15 5) (field F 10 5) (field F 5 5) (field F 0 5)) tl := by
  simp [decodeChunk, decodeDiffL, diffLBits, hF]

/-- `F` of R73 is the join of its four fields, so the bytes hold it as it is. -/
theorem encode_diffL_fields (F : BitVec 20) :
    encode (.diffL (field F 15 5) (field F 10 5) (field F 5 5) (field F 0 5)) =
      [join 8 tagDiffL (field F 16 4), field F 8 8, field F 0 8] := by
  have hF : diffLJoin (field F 15 5) (field F 10 5) (field F 5 5) (field F 0 5) = F := by simp [diffLJoin]
  simp only [encode, hF]

@[simp] theorem decodeChunk_overwrite (flags : BitVec 4) (tl : List Byte) :
    decodeChunk (join 8 tagOverwrite flags :: tl) = decodeOverwrite (join 8 tagOverwrite flags) tl := by
  simp [decodeChunk]

/-! ### The literals of an OVERWRITE chunk (R74) -/

/-- A literal is taken, at one byte where the flag is set, or there is no byte for it. -/
theorem takeLiteral_cases (flag : Bool) (bs : List Byte) :
    (∃ v bs', takeLiteral flag bs = some (v, bs') ∧ flag = v.isSome ∧ bs = v.toList ++ bs' ∧ bs.length = flag.toNat + bs'.length) ∨
    (takeLiteral flag bs = none ∧ bs.length < flag.toNat) := by
  match flag, bs with
  | false, bs => exact .inl ⟨none, bs, rfl, rfl, rfl, by simp⟩
  | true, b :: bs => exact .inl ⟨some b, bs, rfl, rfl, rfl, by simp [Nat.add_comm]⟩
  | true, [] => exact .inr ⟨rfl, by simp⟩

theorem takeLiteral_toList (v : Option Byte) (bs : List Byte) : takeLiteral v.isSome (v.toList ++ bs) = some (v, bs) := by
  cases v <;> rfl

theorem flags_overwriteTag (r g b a : Option Byte) :
    flagR (overwriteTag r g b a) = r.isSome ∧ flagG (overwriteTag r g b a) = g.isSome ∧
      flagB (overwriteTag r g b a) = b.isSome ∧ flagA (overwriteTag r g b a) = a.isSome := by
  have hinj : ∀ x y : Bool, BitVec.ofBool x = BitVec.ofBool y → x = y := by decide
  exact ⟨hinj _ _ ((ofBool_getLsbD _ 3).trans (by simp [overwriteTag])),
    hinj _ _ ((ofBool_getLsbD _ 2).trans (by simp [overwriteTag])),
    hinj _ _ ((ofBool_getLsbD _ 1).trans (by simp [overwriteTag])),
    hinj _ _ ((ofBool_getLsbD _ 0).trans (by simp [overwriteTag]))⟩

theorem overwriteTag_of_flags {b1 : Byte} {r g b a : Option Byte} (hr : flagR b1 = r.isSome) (hg : flagG b1 = g.isSome)
    (hb : flagB b1 = b.isSome) (ha : flagA b1 = a.isSome) : overwriteTag r g b a = join 8 tagOverwrite (field b1 0 4) := by
  rw [overwriteTag, ← hr, ← hg, ← hb, ← ha]
  simp only [flagR, flagG, flagB, flagA, ofBool_getLsbD]
  simp

theorem decodeChunk_encode_overwrite (r g b a : Option Byte) (rest : List Byte) :
    decodeChunk (encode (.overwrite r g b a) ++ rest) = .ok (.overwrite r g b a) rest := by
  obtain ⟨hr, hg, hb, ha⟩ := flags_overwriteTag r g b a
  have hchunk (tl : List Byte) : decodeChunk (overwriteTag r g b a :: tl) = decodeOverwrite (overwriteTag r g b a) tl :=
    decodeChunk_overwrite _ tl
  simp only [encode, List.cons_append, List.append_assoc, hchunk, decodeOverwrite, hr, hg, hb, ha, takeLiteral_toList]

/-- The literals of an OVERWRITE chunk decode to what its tag and its flags encode, or they end too early. -/
theorem decodeOverwrite_cases (b1 : Byte) (bs : List Byte) :
    (∃ r g b a rest, decodeOverwrite b1 bs = .ok (.overwrite r g b a) rest ∧
      encode (.overwrite r g b a) ++ rest = join 8 tagOverwrite (field b1 0 4) :: bs) ∨
    (decodeOverwrite b1 bs = .reject .endOfStream ∧ bs.length < literalCount b1) := by
  unfold decodeOverwrite literalCount
  rcases takeLiteral_cases (flagR b1) bs with ⟨r, bs₁, hr, hflagR, rfl, hlenR⟩ | ⟨hr, hlen⟩
  · rcases takeLiteral_cases (flagG b1) bs₁ with ⟨g, bs₂, hg, hflagG, rfl, hlenG⟩ | ⟨hg, hlen⟩
    · rcases takeLiteral_cases (flagB b1) bs₂ with ⟨b, bs₃, hb, hflagB, rfl, hlenB⟩ | ⟨hb, hlen⟩
      · rcases takeLiteral_cases (flagA b1) bs₃ with ⟨a, rest, ha, hflagA, rfl, hlenA⟩ | ⟨ha, hlen⟩
        · refine .inl ⟨r, g, b, a, rest, by simp only [hr, hg, hb, ha], ?_⟩
          simp [encode, overwriteTag_of_flags hflagR hflagG hflagB hflagA]
        · exact .inr ⟨by simp only [hr, hg, hb, ha], by omega⟩
      · exact .inr ⟨by simp only [hr, hg, hb], by omega⟩
    · exact .inr ⟨by simp only [hr, hg], by omega⟩
  · exact .inr ⟨by simp only [hr], by omega⟩

/-! ### What stands where a chunk begins -/

/-- Bytes where a chunk begins decode to a chunk whose encoding they are, or end before the chunk does. -/
theorem decodeChunk_cases (b1 : Byte) (tl : List Byte) :
    (∃ i rest, decodeChunk (b1 :: tl) = .ok i rest ∧ encode i ++ rest = b1 :: tl) ∨
    (decodeChunk (b1 :: tl) = .reject .endOfStream ∧ tl.length + 1 < chunkLength b1) := by
  cases firstByte b1 with
  | index i => exact .inl ⟨_, _, decodeChunk_index i tl, by simp [encode]⟩
  | runS n => exact .inl ⟨_, _, decodeChunk_runS n tl, by simp [encode]⟩
  | runL f =>
    cases tl with
    | nil => exact .inr ⟨by simp [decodeChunk, decodeRunL], by simp [chunkLength]⟩
    | cons b2 tl => exact .inl ⟨_, _, decodeChunk_runL f b2 tl, by simp [encode]⟩
  | diffS v => exact .inl ⟨_, _, decodeChunk_diffS v tl, by simp [encode]⟩
  | diffM r =>
    cases tl with
    | nil => exact .inr ⟨by simp [decodeChunk, decodeDiffM], by simp [chunkLength]⟩
    | cons b2 tl => exact .inl ⟨_, _, decodeChunk_diffM r b2 tl, by simp [encode]⟩
  | diffL v =>
    match tl with
    | [] => exact .inr ⟨by simp [decodeChunk, decodeDiffL], by simp [chunkLength]⟩
    | [_] => exact .inr ⟨by simp [decodeChunk, decodeDiffL], by simp [chunkLength]⟩
    | b2 :: b3 :: tl => exact .inl ⟨_, _, decodeChunk_diffL v b2 b3 tl _ rfl, by rw [encode_diffL_fields]; simp⟩
  | overwrite flags =>
    rw [decodeChunk_overwrite]
    rcases decodeOverwrite_cases (join 8 tagOverwrite flags) tl with ⟨r, g, b, a, rest, hok, henc⟩ | ⟨hrej, hlen⟩
    · exact .inl ⟨_, _, hok, by simpa using henc⟩
    · exact .inr ⟨hrej, by simp [chunkLength]; omega⟩

theorem encode_of_decodeChunk {bs rest : List Byte} {i : Instr} (h : decodeChunk bs = .ok i rest) : encode i ++ rest = bs := by
  cases bs with
  | nil => cases h
  | cons b1 tl =>
    rcases decodeChunk_cases b1 tl with ⟨j, rest', hok, henc⟩ | ⟨hrej, -⟩
    · cases hok.symm.trans h
      exact henc
    · cases hrej.symm.trans h

/-- Decoding takes as many bytes as the first byte says (R78). -/
theorem length_of_decodeChunk {b1 : Byte} {tl rest : List Byte} {i : Instr} (h : decodeChunk (b1 :: tl) = .ok i rest) :
    tl.length + 1 = chunkLength b1 + rest.length := by
  obtain ⟨hlen, hsize⟩ := Machine.size_statement i
  rw [Machine.decodeChunk_position h] at hsize
  obtain ⟨-, -, c1, ctl, henc, hchunk⟩ := hsize
  have hbytes : encode i ++ rest = b1 :: tl := encode_of_decodeChunk h
  have hfirst : c1 = b1 := by rw [henc] at hbytes; exact (List.cons.inj hbytes).1
  have htotal : (encode i).length + rest.length = tl.length + 1 := by
    simpa using congrArg List.length hbytes
  rw [← hfirst, hchunk, ← hlen, htotal]

/-! ### The header (R59 to R64) -/

@[simp] theorem wordOfBytes_fields (w : Word) : wordOfBytes (field w 24 8) (field w 16 8) (field w 8 8) (field w 0 8) = w := by
  simp [wordOfBytes]

@[simp] theorem bytesOfWord_wordOfBytes (b3 b2 b1 b0 : Byte) : bytesOfWord (wordOfBytes b3 b2 b1 b0) = [b3, b2, b1, b0] := by
  simp [bytesOfWord, wordOfBytes]

theorem decodeHeader_encode (w h : Word) (c cs : Byte) (rest : List Byte) :
    decodeHeader (encode (.header w h c cs) ++ rest) = .ok (.header w h c cs) rest := by
  simp [decodeHeader, encode, magic, bytesOfWord, headerParts]

theorem eq_of_headerParts {bs m rest : List Byte} {w h : Word} {c cs : Byte} (hparts : headerParts bs = some (m, w, h, c, cs, rest)) :
    m ++ bytesOfWord w ++ bytesOfWord h ++ [c, cs] ++ rest = bs := by
  unfold headerParts at hparts
  split at hparts
  · simp only [Option.some.injEq, Prod.mk.injEq] at hparts
    obtain ⟨rfl, rfl, rfl, rfl, rfl, rfl⟩ := hparts
    simp
  · cases hparts

theorem decodeTrailer_ok {bs rest : List Byte} {i : Instr} (h : decodeTrailer bs = .ok i rest) :
    i = .trailer ∧ encode .trailer ++ rest = bs := by
  unfold decodeTrailer at h
  split at h
  · split at h
    · rename_i hzero
      obtain ⟨rfl, rfl, rfl, rfl⟩ := hzero
      cases h
      exact ⟨rfl, rfl⟩
    · cases h
  · cases h

/-! ### The statements -/

/-- Settles O3: each instruction by its decoding rule, the fields of the joined fields being the fields. -/
theorem decodeOfEncodeIsTheInstruction : Obligations.DecodeOfEncodeIsTheInstruction := by
  intro i rest
  cases i with
  | index i => exact decodeChunk_index i rest
  | runS n => exact decodeChunk_runS n rest
  | runL f => exact (decodeChunk_runL (field f 8 5) (field f 0 8) rest).trans (by simp)
  | diffS r g b => exact (decodeChunk_diffS (join 6 r (join 4 g b)) rest).trans (by simp)
  | diffM r g b => exact (decodeChunk_diffM r (join 8 g b) rest).trans (by simp)
  | diffL r g b a =>
    exact (decodeChunk_diffL _ _ _ rest (diffLJoin r g b a) (by simp)).trans (by simp [diffLJoin])
  | overwrite r g b a => exact decodeChunk_encode_overwrite r g b a rest
  | header w h c cs => exact decodeHeader_encode w h c cs rest
  | trailer => rfl

/-- Settles O4, position by position; a chunk by the cases of `decodeChunk_cases`. -/
theorem encodeOfDecodeIsTheBytes : Obligations.EncodeOfDecodeIsTheBytes := by
  intro pos bs i rest h
  cases pos with
  | header =>
    obtain ⟨w, ht, c, cs, rfl, hparts⟩ := Machine.decodeHeader_ok h
    exact ⟨eq_of_headerParts hparts, rfl⟩
  | chunk =>
    exact ⟨encode_of_decodeChunk h, Machine.decodeChunk_position h⟩
  | trailer =>
    obtain ⟨rfl, henc⟩ := decodeTrailer_ok h
    exact ⟨henc, rfl⟩

/-- Settles O6: the tag of a first byte fixes the kind, and for OVERWRITE the flags count the literals. -/
theorem chunkLengthFromTheFirstByte : Obligations.ChunkLengthFromTheFirstByte := by
  intro b1
  refine ⟨fun h => ?_, fun h => ?_, fun h => ?_, fun h => ?_, fun h => ?_, fun h => ?_, fun h => ?_,
    fun tl i rest => length_of_decodeChunk⟩
  · rw [eq_join_of_toNat_div tagIndex 6 rfl h, chunkLength, dispatchTag_index]
  · rw [eq_join_of_toNat_div tagRunS 5 rfl h, chunkLength, dispatchTag_runS]
  · rw [eq_join_of_toNat_div tagRunL 5 rfl h, chunkLength, dispatchTag_runL]
  · rw [eq_join_of_toNat_div tagDiffS 6 rfl h, chunkLength, dispatchTag_diffS]
  · rw [eq_join_of_toNat_div tagDiffM 5 rfl h, chunkLength, dispatchTag_diffM]
  · rw [eq_join_of_toNat_div tagDiffL 4 rfl h, chunkLength, dispatchTag_diffL]
  · have hkind : dispatchTag b1 = .overwrite := eq_join_of_toNat_div tagOverwrite 4 rfl h ▸ dispatchTag_overwrite _
    rw [chunkLength, hkind, literalCount_eq]

/-- Settles O7: the two outcomes of `decodeChunk_cases`, told apart by the length. -/
theorem noChunkEncodingIsIllegal : Obligations.NoChunkEncodingIsIllegal := by
  intro b1 tl
  rcases decodeChunk_cases b1 tl with ⟨i, rest, hok, -⟩ | ⟨hrej, hshort⟩
  · have hlen := length_of_decodeChunk hok
    exact ⟨fun _ => ⟨i, rest, hok⟩, fun hshort => by omega⟩
  · exact ⟨fun hlong => by omega, fun _ => hrej⟩

/-- Settles O1: each item encodes to the bytes R84 prints. -/
theorem workedEncodings : Obligations.WorkedEncodings := by
  unfold Obligations.WorkedEncodings
  decide

/-- Settles O2: each word decodes as its format says. -/
theorem writtenWordsDecode : Obligations.WrittenWordsDecode := by
  unfold Obligations.WrittenWordsDecode
  decide

end Sys2Proof
end

section
/-!
PROOFS. The header codec on its own: HEADER as an instruction (R87 to R94), the fetch cut short (R88), HDR.EMIT (R85).
-/
namespace Sys2Proof.Machine

/-! ### HEADER executed -/

@[simp] theorem exec_header (w h : Word) (c cs : Byte) (s : State) : exec (.header w h c cs) s = execHeader w h c cs s := rfl

theorem not_headerLegal_iff (w h : Word) (c : Byte) :
    ¬headerLegal w h c ↔ w = 0#32 ∨ h = 0#32 ∨ (c ≠ 3#8 ∧ c ≠ 4#8) := by
  unfold headerLegal
  tauto

/-- NPIX fits 64 bits: it is a product of two 32-bit values (R21). -/
theorem pixelCount_lt (w h : Word) : pixelCount w h < 2 ^ 64 := by
  have := Nat.mul_lt_mul'' w.isLt h.isLt
  rwa [← Nat.pow_add] at this

/-- Settles O17: a legal header is accepted, and its NPIX is a product of two nonzero 32-bit values. -/
theorem legalHeaderIsAccepted : Obligations.LegalHeaderIsAccepted := fun w h _ cs s hw hh hc =>
  ⟨_, execHeader_of_legal ⟨hw, hh, hc⟩ cs s, rfl, rfl, rfl, rfl, rfl, pixelCount_pos hw hh, pixelCount_lt w h,
    rfl, rfl, rfl, rfl⟩

/-- Settles O18: a header that is not legal takes the error entry, its registers loaded. -/
theorem illegalHeaderRaisesFormatError : Obligations.IllegalHeaderRaisesFormatError := fun w h c cs s hbad =>
  ⟨_, execHeader_of_not_legal ((not_headerLegal_iff w h c).mpr hbad) cs s, rfl, rfl, rfl, rfl, rfl, rfl, rfl, rfl, rfl, rfl⟩

/-- Settles O19: neither of the two outcomes of HEADER touches more than the HDR registers, NPIX, HDR_VALID and the error entry. -/
theorem headerFrame : Obligations.HeaderFrame := by
  intro w h c cs s t hexec
  rw [exec_header] at hexec
  rcases execHeader_cases w h c cs s with hout | ⟨-, hout⟩
  · cases hout.symm.trans hexec
    exact ⟨⟨rfl, rfl, rfl, rfl, rfl, rfl, rfl, rfl, rfl, rfl⟩, rfl, rfl, rfl, rfl, rfl, fun _ => rfl⟩
  · cases hout.symm.trans hexec
    exact ⟨⟨rfl, rfl, rfl, rfl, rfl, rfl, rfl, rfl, rfl, rfl⟩, rfl, rfl, rfl, rfl, rfl, fun _ => rfl⟩

/-! ### Fewer than 14 bytes (R88, R128) -/

theorem decTurn_of_header_phase {s : State} (hp : s.dec.phase = .header) : decTurn s = headerTurn s := by
  simp only [decTurn, hp]

/-- With fewer than 14 bytes HDR.PARSE raises at the end of the stream, and waits for it otherwise. -/
theorem headerTurn_of_short {s : State} (hshort : s.inp.length < 14) :
    headerTurn s =
      if s.inpEnded then .settled (.next (raiseDec .format (s.setDec { s.dec with ipos := s.inp.length }))) else .waits :=
  if_pos hshort

/-- Settles O24: the two outcomes of a short header's turn. -/
theorem shortHeaderRaisesFormatError : Obligations.ShortHeaderRaisesFormatError := by
  intro s l hag hp hshort
  rw [step_of_engine hag, engineTurn, decTurn_of_header_phase (s := popAgenda s) hp,
    headerTurn_of_short (s := popAgenda s) hshort, popAgenda_inpEnded]
  refine ⟨fun hended => ?_, fun hopen => ?_⟩
  · rw [if_pos hended]
    rfl
  · rw [hopen]
    rfl

/-! ### HDR.EMIT (R85) -/

theorem field_eq_ofNat {n : Nat} (v : BitVec n) (lo w : Nat) : field v lo w = BitVec.ofNat w (v.toNat / 2 ^ lo) :=
  BitVec.eq_of_toNat_eq ((field_toNat v lo w).trans (BitVec.toNat_ofNat _ _).symm)

/-- R46: the four bytes of a header integer as its quotients by powers of 256. -/
theorem bytesOfWord_eq_ofNat (w : Word) :
    bytesOfWord w =
      [BitVec.ofNat 8 (w.toNat / 2 ^ 24), BitVec.ofNat 8 (w.toNat / 2 ^ 16), BitVec.ofNat 8 (w.toNat / 2 ^ 8),
        BitVec.ofNat 8 w.toNat] := by
  simp only [bytesOfWord, field_eq_ofNat, Nat.pow_zero, Nat.div_one]

theorem encTurn_of_header_phase {s : State} (hp : s.enc.phase = .header) (hbo : s.boAccepted = true) :
    encTurn s = .settled (.next (emitHeader s)) := by
  simp only [encTurn, hp, hbo, if_true]

/-- Settles O28: the 14 bytes are the encoding of the sampled configuration. -/
theorem headerEmission : Obligations.HeaderEmission := by
  intro s l hag hp hbo
  have hstep : step s = .next (emitHeader (popAgenda s)) := by
    rw [step_of_engine hag, engineTurn, encTurn_of_header_phase (s := popAgenda s) hp hbo]
    rfl
  refine ⟨_, hstep, onlyEncoder_setEnc_emitBytes _ _ (popAgenda s), rfl, ?_⟩
  change s.out.writeBytes s.enc.opos (magic ++ bytesOfWord s.enc.cfg.width ++ bytesOfWord s.enc.cfg.height ++
    [s.enc.cfg.channels, s.enc.cfg.colorspace]) = _
  rw [bytesOfWord_eq_ofNat, bytesOfWord_eq_ofNat]
  rfl

end Sys2Proof.Machine
end

section
/-!
PROOFS. Which instruction a step runs: who moves, and what stands where the decoder's next chunk begins (R108, R109, R111).
-/
namespace Sys2Proof.Machine

/-! ### Who moves (log 7) -/

/-- Where the decoder is next and has a move, the step is its turn. -/
theorem step_of_decTurn {s : State} {T : Turn} (hnext : s.agenda = [] ∨ ∃ l, s.agenda = .engine .dec :: l)
    (hturn : decTurn (popAgenda s) = T) (hmoves : T ≠ .waits) : step s = playTurn T (popAgenda s) := by
  rcases hnext with hquiet | ⟨l, hag⟩
  · rw [popAgenda_of_nil hquiet] at hturn ⊢
    have hdefault : defaultTurn s = T := by
      rw [defaultTurn, hturn]
      cases T with
      | waits => exact absurd rfl hmoves
      | run i t => rfl
      | settled o => rfl
    rw [step, nextTurn, hquiet, popAgenda_of_nil hquiet]
    exact congrArg (playTurn · s) hdefault
  · rw [step_of_engine hag, engineTurn, hturn]

theorem step_of_decTurn_of_quiet {s : State} {T : Turn} (hquiet : s.agenda = []) (hturn : decTurn s = T)
    (hmoves : T ≠ .waits) : step s = playTurn T s := by
  have hpop := popAgenda_of_nil hquiet
  rw [step_of_decTurn (.inl hquiet) (by rwa [hpop]) hmoves, hpop]

/-- A decoder that is not busy has no move. -/
theorem decTurn_of_not_busy {s : State} (hrest : s.dec.phase.busy = false) : decTurn s = .waits := by
  rcases (Phase.busy_eq_false_iff _).mp hrest with hp | hp | hp <;> simp only [decTurn, hp]

/-- Where the encoder is next, on its turn or with the decoder at rest, the step is its turn. -/
theorem step_of_encTurn {s : State}
    (hnext : (s.agenda = [] ∧ s.dec.phase.busy = false) ∨ ∃ l, s.agenda = .engine .enc :: l) :
    step s = playTurn (encTurn (popAgenda s)) (popAgenda s) := by
  rcases hnext with ⟨hquiet, hrest⟩ | ⟨l, hag⟩
  · simp only [step, nextTurn, hquiet, popAgenda_of_nil hquiet, defaultTurn, decTurn_of_not_busy hrest]
  · exact step_of_engine hag

/-! ### The bytes of the next chunk (R108, R124) -/

/-- Bytes where a chunk begins decode to a chunk or end before it does (R79). -/
theorem decodeChunk_ok_or_endOfStream (bs : List Byte) :
    (∃ i rest, decodeChunk bs = .ok i rest) ∨ decodeChunk bs = .reject .endOfStream := by
  cases bs with
  | nil => exact .inr rfl
  | cons b1 tl =>
    rcases decodeChunk_cases b1 tl with ⟨i, rest, hok, -⟩ | ⟨hrej, -⟩
    · exact .inl ⟨i, rest, hok⟩
    · exact .inr hrej

theorem size_add_length_of_decodeChunk {bs rest : List Byte} {i : Instr} (h : decodeChunk bs = .ok i rest) :
    i.size + rest.length = bs.length := by
  rw [← (size_statement i).1, ← List.length_append, encode_of_decodeChunk h]

/-- Where the rest of the stream begins with a chunk, that chunk's bytes are read and IPOS moves past them. -/
theorem readChunk_of_decodeChunk {s : State} {i : Instr} {rest : List Byte}
    (hd : decodeChunk (s.inp.drop s.dec.ipos) = .ok i rest) :
    readChunk s = .got (encode i) (s.setDec { s.dec with ipos := s.dec.ipos + i.size }) := by
  obtain ⟨hlen, hsize⟩ := size_statement i
  rw [decodeChunk_position hd] at hsize
  obtain ⟨hpos, -, b1, tl, henc, hchunk⟩ := hsize
  have hbytes : encode i ++ rest = s.inp.drop s.dec.ipos := encode_of_decodeChunk hd
  have hget : s.inp[s.dec.ipos]? = some b1 := by
    rw [← List.head?_drop, ← hbytes, henc]
    rfl
  have htotal := size_add_length_of_decodeChunk hd
  rw [List.length_drop] at htotal
  have hmore : 1 + (chunkLength b1 - 1) = (encode i).length := by omega
  rw [readChunk_of_le hget (by omega), Nat.add_assoc, hmore, ← hbytes, List.take_left, hlen]

theorem nextByte_waits {s : State} (h : nextByte s = .waits) : s.inpEnded = false := by
  unfold nextByte at h
  split at h
  · cases h
  · split at h
    · cases h
    · exact Bool.eq_false_iff.mpr ‹_›

theorem nextBytes_waits {n : Nat} : ∀ {s : State}, nextBytes n s = .waits → s.inpEnded = false := by
  induction n with
  | zero => exact fun h => by cases h
  | succ n ih =>
    intro s h
    rw [nextBytes] at h
    split at h
    · obtain ⟨-, rfl⟩ := nextByte_got ‹_›
      split at h
      · cases h
      · cases h
      · exact ih (s := s.setDec { s.dec with ipos := s.dec.ipos + 1 }) ‹_›
    · cases h
    · exact nextByte_waits ‹_›

/-- A chunk's bytes are waited for only while the end of the stream has not been signalled (R108, R128). -/
theorem readChunk_waits {s : State} (h : readChunk s = .waits) : s.inpEnded = false := by
  rw [readChunk] at h
  split at h
  · obtain ⟨-, rfl⟩ := nextByte_got ‹_›
    split at h
    · cases h
    · cases h
    · exact nextBytes_waits (s := s.setDec { s.dec with ipos := s.dec.ipos + 1 }) ‹_›
  · cases h
  · exact nextByte_waits ‹_›

/-- What is read whole is the chunk that the rest of the stream begins with. -/
theorem decodeChunk_of_readChunk {s t : State} {bs : List Byte} (h : readChunk s = .got bs t) :
    ∃ i rest, decodeChunk (s.inp.drop s.dec.ipos) = .ok i rest := by
  obtain ⟨b1, tl, rfl, hget, hlen, htake, -⟩ := readChunk_got h
  obtain ⟨hlt, hb1⟩ := List.getElem?_eq_some_iff.mp hget
  have hle := congrArg List.length htake
  rw [List.length_take, List.length_drop, List.length_cons] at hle
  rw [List.drop_eq_getElem_cons hlt, hb1]
  rcases decodeChunk_cases b1 (s.inp.drop (s.dec.ipos + 1)) with ⟨i, rest, hok, -⟩ | ⟨-, hshort⟩
  · exact ⟨i, rest, hok⟩
  · rw [List.length_drop] at hshort
    omega

/-- Where the bytes end before the next chunk does, the read takes them all at the end of the stream (R124), and waits otherwise. -/
theorem readChunk_of_endOfStream {s : State} (hd : decodeChunk (s.inp.drop s.dec.ipos) = .reject .endOfStream) :
    readChunk s =
      if s.inpEnded then .ended (s.setDec { s.dec with ipos := max s.dec.ipos s.inp.length }) else .waits := by
  cases hread : readChunk s with
  | got bs t =>
    obtain ⟨i, rest, hok⟩ := decodeChunk_of_readChunk hread
    cases hok.symm.trans hd
  | ended t =>
    obtain ⟨hended, rfl⟩ := readChunk_ended hread
    rw [if_pos hended]
  | waits =>
    rw [readChunk_waits hread]
    rfl

/-! ### The decoder's turn by what it finds (R109) -/

theorem decTurn_of_pixels {s : State} (hp : s.dec.phase = .pixels) (hrun : s.dec.run = 0#14) : decTurn s = chunkTurn s := by
  simp [decTurn, hp, pixelTurn, hrun, runNonzero]

theorem decTurn_of_run {s : State} (hp : s.dec.phase = .pixels) (hrun : s.dec.run ≠ 0#14) (hpxo : s.pxoAccepted = true) :
    decTurn s = .settled (continueRun s) := by
  simp only [decTurn, hp, pixelTurn, (runNonzero_iff _).mpr hrun, hpxo, if_true]

theorem decTurn_of_chunk {s : State} {i : Instr} {rest : List Byte} (hp : s.dec.phase = .pixels) (hrun : s.dec.run = 0#14)
    (hpxo : s.pxoAccepted = true) (hd : decodeChunk (s.inp.drop s.dec.ipos) = .ok i rest) :
    decTurn s = .run i (s.setDec { s.dec with ipos := s.dec.ipos + i.size }) := by
  have halone : decodeAt .chunk (encode i) = .ok i [] := by
    have h := decodeOfEncodeIsTheInstruction i []
    rwa [decodeChunk_position hd, List.append_nil] at h
  simp only [decTurn_of_pixels hp hrun, chunkTurn, readChunk_of_decodeChunk hd, hpxo, if_true, halone]

theorem decTurn_of_truncated {s : State} (hp : s.dec.phase = .pixels) (hrun : s.dec.run = 0#14) (hended : s.inpEnded = true)
    (hle : s.dec.ipos ≤ s.inp.length) (hd : decodeChunk (s.inp.drop s.dec.ipos) = .reject .endOfStream) :
    decTurn s = .settled (.next (raiseDec .truncated (s.setDec { s.dec with ipos := s.inp.length }))) := by
  simp only [decTurn_of_pixels hp hrun, chunkTurn, readChunk_of_endOfStream hd, hended, if_true, Nat.max_eq_right hle]

theorem decTurn_of_decodeHeader {s : State} {i : Instr} {rest : List Byte} (hp : s.dec.phase = .header)
    (hd : decodeHeader s.inp = .ok i rest) : decTurn s = .run i (s.setDec { s.dec with ipos := 14 }) := by
  obtain ⟨w, h, c, cs, rfl, hparts⟩ := decodeHeader_ok hd
  rw [decTurn_of_header_phase hp, headerTurn_of_parts hparts, if_pos rfl]

theorem encTurn_of_trailer_phase {s : State} (hp : s.enc.phase = .trailer) (hbo : s.boAccepted = true) :
    encTurn s = .run .trailer s := by
  simp only [encTurn, hp, hbo, if_true]

/-- Settles O21: the mover's turn is to run what its bytes decode to. -/
theorem stepRunsTheDecodedInstruction : Obligations.StepRunsTheDecodedInstruction := by
  refine ⟨fun s i rest hp hrun hpxo hnext hd => ?_, fun s i rest hp hnext hd => ?_, fun s hp hbo hnext => ?_⟩
  · exact step_of_decTurn hnext (decTurn_of_chunk (s := popAgenda s) hp hrun hpxo hd) (by simp)
  · exact step_of_decTurn hnext (decTurn_of_decodeHeader (s := popAgenda s) hp hd) (by simp)
  · rw [step_of_encTurn hnext, encTurn_of_trailer_phase (s := popAgenda s) hp hbo]
    rfl

end Sys2Proof.Machine
end

section
/-!
PROOFS. A decode pass over a finite stream ends (R107, R187, R188): every pixel step raises or emits one of the NPIX pixels.
-/
namespace Sys2Proof.Machine

theorem steps_succ_of_step {s t : State} (h : step s = .next t) (n : Nat) : steps (n + 1) s = steps n t := by
  rw [steps, h]

/-- A state of a decode pass over `bytes` between the header step and the end of the pass. -/
structure PixelsUnderWay (bytes : List Byte) (s : State) : Prop where
  inp : s.inp = bytes
  ended : s.inpEnded = true
  accepted : s.pxoAccepted = true
  quiet : s.agenda = []
  phase : s.dec.phase = .pixels
  room : s.dec.ppos < s.dec.npix
  within : s.dec.ipos ≤ bytes.length

/-- The two ends of a pass over `bytes` that has accepted its header, after `n` pixel steps (R121, R124). -/
def PixelsEnded (bytes : List Byte) (n : Nat) (t : State) : Prop :=
  (t.dec.phase = .done ∧ n = t.dec.npix ∧ t.dec.ppos = t.dec.npix) ∨
    (t.dec.phase = .error ∧ t.dec.err = .truncated ∧ n ≤ t.dec.npix ∧ t.dec.ppos < t.dec.npix ∧
      t.dec.errPos = bytes.length)

/-- What the pixel step after pixel number `k` leaves: the pass ended with it, or is under way with one pixel more. -/
def PixelStepLeaves (bytes : List Byte) (k npix : Nat) (t : State) : Prop :=
  PixelsEnded bytes (k + 1) t ∨ (PixelsUnderWay bytes t ∧ t.dec.ppos = k + 1 ∧ t.dec.npix = npix)

/-- An emitted pixel takes the pass one pixel further: to DONE if it was the last (R109, R121). -/
theorem PixelsUnderWay.emits {bytes : List Byte} {s : State} (h : PixelsUnderWay bytes s) {n : Nat} (hn : n ≤ bytes.length)
    (px : Pixel) (run : BitVec 14) (cache : Cache) :
    PixelStepLeaves bytes s.dec.ppos s.dec.npix ((s.setDst (s.dst.writePixel s.dec.ppos px)).setDec
      { s.dec with ipos := n, prev := px, run := run, ppos := s.dec.ppos + 1, cache := cache,
                   phase := phaseAfterPixel s.dec.npix (s.dec.ppos + 1) s.dec.phase }) := by
  obtain ⟨hinp, hended, hpxo, hquiet, hp, hroom, -⟩ := h
  rw [hp]
  rcases phaseAfterPixel_cases hroom with ⟨hlast, hdone⟩ | ⟨hmore, hpixels⟩
  · exact .inl (.inl ⟨hdone, hlast, hlast⟩)
  · exact .inr ⟨⟨hinp, hended, hpxo, hquiet, hpixels, hmore, hn⟩, rfl, rfl⟩

/-- No pixel step waits: it continues a run, executes a chunk, or finds the stream at its end (R188). -/
theorem PixelsUnderWay.step {bytes : List Byte} {s : State} (h : PixelsUnderWay bytes s) :
    ∃ t, step s = .next t ∧ PixelStepLeaves bytes s.dec.ppos s.dec.npix t := by
  have ⟨hinp, hended, hpxo, hquiet, hp, hroom, hwithin⟩ := h
  by_cases hrun : s.dec.run = 0#14
  · rcases decodeChunk_ok_or_endOfStream (s.inp.drop s.dec.ipos) with ⟨i, rest, hd⟩ | hd
    · have hsize : s.dec.ipos + i.size ≤ bytes.length := by
        have htotal := size_add_length_of_decodeChunk hd
        rw [List.length_drop, hinp] at htotal
        omega
      obtain ⟨px, run, hexec, -⟩ := exec_chunk_resolves (decodeChunk_position hd)
        (s.setDec { s.dec with ipos := s.dec.ipos + i.size })
      refine ⟨_, ?_, h.emits hsize px run (store s.dec.cache px)⟩
      rw [step_of_decTurn_of_quiet hquiet (decTurn_of_chunk hp hrun hpxo hd) (by simp), playTurn, hexec]
      exact resolvePixel_of_room hroom
    · have hle : s.dec.ipos ≤ s.inp.length := hinp ▸ hwithin
      refine ⟨_, step_of_decTurn_of_quiet hquiet (decTurn_of_truncated hp hrun hended hle hd) (by simp), .inl (.inr ?_)⟩
      exact ⟨rfl, rfl, hroom, hroom, congrArg List.length hinp⟩
  · refine ⟨_, ?_, h.emits hwithin s.dec.prev (s.dec.run - 1#14) s.dec.cache⟩
    rw [step_of_decTurn_of_quiet hquiet (decTurn_of_run hp hrun hpxo) (by simp)]
    exact emitPixel_of_room hroom

/-- By induction on the pixels still to come: the pass ends, and counts one step for each pixel. -/
theorem PixelsUnderWay.ends {bytes : List Byte} {s : State} (h : PixelsUnderWay bytes s) :
    ∃ n t, steps n s = .next t ∧ PixelsEnded bytes (s.dec.ppos + n) t := by
  induction hm : s.dec.npix - s.dec.ppos generalizing s with
  | zero =>
    have := h.room
    omega
  | succ m ih =>
    obtain ⟨s1, hstep, hend | ⟨hgoing, hppos, hnpix⟩⟩ := h.step
    · exact ⟨1, s1, (steps_succ_of_step hstep 0).trans rfl, hend⟩
    · obtain ⟨n, t, hsteps, hend⟩ := ih hgoing (by omega)
      refine ⟨n + 1, t, (steps_succ_of_step hstep n).trans hsteps, ?_⟩
      rwa [hppos, Nat.add_assoc, Nat.add_comm 1 n] at hend

/-! ### The header step -/

/-- At least 14 bytes have the parts of a header. -/
theorem exists_headerParts {bs : List Byte} (h : 14 ≤ bs.length) :
    ∃ m w ht c cs rest, headerParts bs = some (m, w, ht, c, cs, rest) := by
  match bs, h with
  | _ :: _ :: _ :: _ :: _ :: _ :: _ :: _ :: _ :: _ :: _ :: _ :: _ :: _ :: _, _ => exact ⟨_, _, _, _, _, _, rfl⟩

/-- Once the end of the stream is signalled the header step does not wait (R88, R89). -/
theorem decTurn_ne_waits_of_header {s : State} (hp : s.dec.phase = .header) (hended : s.inpEnded = true) :
    decTurn s ≠ .waits := by
  rw [decTurn_of_header_phase hp]
  by_cases hshort : s.inp.length < 14
  · rw [headerTurn_of_short hshort, if_pos hended]
    exact Turn.noConfusion
  · obtain ⟨m, w, h, c, cs, rest, hparts⟩ := exists_headerParts (Nat.le_of_not_lt hshort)
    rw [headerTurn_of_parts hparts]
    split <;> exact Turn.noConfusion

/-- The header step of a pass raises before any pixel, or opens the pixels (R89, R90, R94). -/
theorem DecodeStart.step {bytes : List Byte} {s : State} (h : DecodeStart bytes s) :
    ∃ t, step s = .next t ∧ t.dec.ppos = 0 ∧
      ((t.dec.phase = .error ∧ t.dec.err = .format ∧ t.dst = []) ∨ PixelsUnderWay bytes t) := by
  obtain ⟨⟨k, hctx⟩, hinp, hended, hdst, hpxo, hquiet⟩ := h
  have hp : s.dec.phase = .header := by rw [hctx]; rfl
  have hppos : s.dec.ppos = 0 := by rw [hctx]; rfl
  rw [step_of_decTurn_of_quiet hquiet rfl (decTurn_ne_waits_of_header hp hended)]
  by_cases hshort : s.inp.length < 14
  · rw [decTurn_of_header_phase hp, headerTurn_of_short hshort, if_pos hended]
    exact ⟨_, rfl, hppos, .inl ⟨rfl, rfl, hdst⟩⟩
  · have hlen : 14 ≤ s.inp.length := Nat.le_of_not_lt hshort
    obtain ⟨m, w, ht, c, cs, rest, hparts⟩ := exists_headerParts hlen
    obtain ⟨haccepts, hraises⟩ := decTurn_of_header hp hparts
    by_cases hgood : m = magic ∧ headerLegal w ht c
    · have ⟨_, hw, hh, _⟩ := hgood
      have hroom : s.dec.ppos < pixelCount w ht := hppos ▸ pixelCount_pos hw hh
      exact ⟨_, haccepts hgood, hppos, .inr ⟨hinp, hended, hpxo, hquiet, rfl, hroom, hinp ▸ hlen⟩⟩
    · exact ⟨_, hraises hgood, hppos, .inl ⟨rfl, rfl, hdst⟩⟩

/-- Settles O54: the header step, then the pixel steps of `PixelsUnderWay.ends`, counted from PPOS = 0. -/
theorem everyDecodePassEnds : Obligations.EveryDecodePassEnds := by
  intro bytes s h
  obtain ⟨s1, hstep, hppos, ⟨hp, herr, hdst⟩ | hgoing⟩ := h.step
  · exact ⟨0, s1, steps_succ_of_step hstep 0, .inr (.inl ⟨hp, herr, rfl, hppos, hdst⟩)⟩
  · obtain ⟨n, t, hsteps, hend⟩ := hgoing.ends
    rw [hppos, Nat.zero_add] at hend
    exact ⟨n, t, (steps_succ_of_step hstep n).trans hsteps, hend.imp_right .inr⟩

end Sys2Proof.Machine
end

section
/-!
PROOFS. The range predicates (R104), the frame of the chunks (R109, R120), and why every chunk the encoder emits makes the decoder
rebuild its pixels (R105, R135, R136, R138): rebiased differences are unbiased to themselves, and ADD8 adds them back to PREV.
-/
namespace Sys2Proof.Machine

/-! ### The range predicates (R104) -/

theorem fitL_iff (d : Delta) :
    fitL d = true ↔ (-16 ≤ d.vr ∧ d.vr ≤ 15) ∧ (-16 ≤ d.vg ∧ d.vg ≤ 15) ∧ (-16 ≤ d.vb ∧ d.vb ≤ 15) ∧ (-16 ≤ d.va ∧ d.va ≤ 15) := by
  simp only [fitL, Bool.and_eq_true, inRange_iff, and_assoc]

theorem fitS_iff (d : Delta) :
    fitS d = true ↔ fitL d = true ∧ d.va = 0 ∧ (-2 ≤ d.vr ∧ d.vr ≤ 1) ∧ (-2 ≤ d.vg ∧ d.vg ≤ 1) ∧ (-2 ≤ d.vb ∧ d.vb ≤ 1) := by
  simp only [fitS, Bool.and_eq_true, inRange_iff, beq_iff_eq, and_assoc]

theorem fitM_iff (d : Delta) :
    fitM d = true ↔ fitL d = true ∧ d.va = 0 ∧ (-16 ≤ d.vr ∧ d.vr ≤ 15) ∧ (-8 ≤ d.vg ∧ d.vg ≤ 7) ∧ (-8 ≤ d.vb ∧ d.vb ≤ 7) := by
  simp only [fitM, Bool.and_eq_true, inRange_iff, beq_iff_eq, and_assoc]

theorem fitL_of_fitM {d : Delta} (h : fitM d = true) : fitL d = true := ((fitM_iff d).mp h).1

/-- The ranges of FIT_S lie within those of FIT_M. -/
theorem fitM_of_fitS {d : Delta} (h : fitS d = true) : fitM d = true := by
  obtain ⟨hl, hva, ⟨hr, hr'⟩, ⟨hg, hg'⟩, hb, hb'⟩ := (fitS_iff d).mp h
  exact (fitM_iff d).mpr ⟨hl, hva, by omega, by omega, by omega⟩

/-- Settles O36. -/
theorem rangePredicates : Obligations.RangePredicates := fun d =>
  ⟨fitL_iff d, fitS_iff d, fitM_iff d, fitM_of_fitS, fitL_of_fitM⟩

/-! ### The frame of the chunks (R109, R120) -/

/-- Settles O15: every chunk is one resolved pixel, which writes four bytes of DST and stores in the slot of the new PREV. -/
theorem chunkFrame : Obligations.ChunkFrame := by
  intro i s t hi hexec
  obtain ⟨px, run, hresolves, hrun⟩ := exec_chunk_resolves hi s
  obtain ⟨-, rfl⟩ := resolvePixel_next (hresolves.symm.trans hexec)
  exact ⟨⟨rfl, rfl, rfl, rfl, rfl, rfl, rfl, rfl, rfl, rfl⟩, hrun, fun j => lookup_store_other s.dec.cache px j,
    rfl, rfl, rfl, rfl, rfl, rfl, rfl, rfl, rfl, fun a => Memory.read_writePixel_outside s.dst s.dec.ppos a px⟩

/-! ### The selected chunk (R105, R138) -/

/-- A difference stored with a bias is read back (R77). -/
theorem unbias_rebias {w : Nat} {bias d : Int} (hlo : 0 ≤ d + bias) (hhi : d + bias < 2 ^ w) : unbias bias (rebias w bias d) = d := by
  rw [unbias, rebias_toNat w bias d hlo hhi, Int.add_sub_cancel]

theorem deltaS_of_fitS {d : Delta} (h : fitS d = true) :
    deltaS (rebias 2 biasS d.vr) (rebias 2 biasS d.vg) (rebias 2 biasS d.vb) = d := by
  obtain ⟨-, hva, ⟨hr, hr'⟩, ⟨hg, hg'⟩, hb, hb'⟩ := (fitS_iff d).mp h
  rw [deltaS, biasS, unbias_rebias (by omega) (by omega), unbias_rebias (by omega) (by omega),
    unbias_rebias (by omega) (by omega), ← hva]

theorem deltaM_of_fitM {d : Delta} (h : fitM d = true) :
    deltaM (rebias 5 biasM d.vr) (rebias 4 biasMgb d.vg) (rebias 4 biasMgb d.vb) = d := by
  obtain ⟨-, hva, ⟨hr, hr'⟩, ⟨hg, hg'⟩, hb, hb'⟩ := (fitM_iff d).mp h
  rw [deltaM, biasM, biasMgb, unbias_rebias (by omega) (by omega), unbias_rebias (by omega) (by omega),
    unbias_rebias (by omega) (by omega), ← hva]

theorem deltaL_of_fitL {d : Delta} (h : fitL d = true) :
    deltaL (rebias 5 biasL d.vr) (rebias 5 biasL d.vg) (rebias 5 biasL d.vb) (rebias 5 biasL d.va) = d := by
  obtain ⟨⟨hr, hr'⟩, ⟨hg, hg'⟩, ⟨hb, hb'⟩, ha, ha'⟩ := (fitL_iff d).mp h
  rw [deltaL, biasL, unbias_rebias (by omega) (by omega), unbias_rebias (by omega) (by omega),
    unbias_rebias (by omega) (by omega), unbias_rebias (by omega) (by omega)]

/-- ADD8 of the plain difference gives the channel back (R105). -/
theorem add8_sub (x y : Byte) : add8 x ((y.toNat : Int) - x.toNat) = y := by
  rw [add8_eq_iff]
  have := y.isLt
  omega

theorem addDelta_delta (prev p : Pixel) : addDelta prev (delta p prev) = p := by
  simp only [addDelta, delta, add8_sub]

/-- A channel sent only where it changed is the new one (R144). -/
theorem changedLiteral_getD (x y : Byte) : (changedLiteral ((y.toNat : Int) - x.toNat) y).getD x = y := by
  unfold changedLiteral
  split
  · rfl
  · rename_i hsame
    have hzero : (y.toNat : Int) - x.toNat = 0 := not_not.mp hsame
    exact BitVec.eq_of_toNat_eq (n := 8) (by simp only [Option.getD_none]; omega)

theorem overwritePixel_changed (prev p : Pixel) :
    overwritePixel prev (changedLiteral (delta p prev).vr p.r) (changedLiteral (delta p prev).vg p.g)
      (changedLiteral (delta p prev).vb p.b) (changedLiteral (delta p prev).va p.a) = p := by
  simp only [overwritePixel, delta, changedLiteral_getD]

/-- A chunk whose deltas are the differences from PREV resolves to the pixel they were taken of. -/
theorem resolvePixel_of_delta {s : State} {p : Pixel} {d : Delta} (h : d = delta p s.dec.prev) :
    resolvePixel (addDelta s.dec.prev d) s = resolvePixel p s := by
  rw [h, addDelta_delta]

/-- The selected chunk resolves to its pixel, whichever of the five encodings it is (R138): INDEX by the caches' agreement, the
others whatever the cache holds. -/
theorem exec_selectChunk {c : Cache} {p : Pixel} {s : State} (hhit : lookup c (slot p) = p → lookup s.dec.cache (slot p) = p) :
    exec (selectChunk c s.dec.prev p) s = resolvePixel p s := by
  unfold selectChunk
  split
  · rename_i hc
    exact congrArg (resolvePixel · s) (hhit ((hit_iff c p).mp hc))
  · split
    · exact resolvePixel_of_delta (deltaS_of_fitS ‹_›)
    · split
      · exact resolvePixel_of_delta (deltaM_of_fitM ‹_›)
      · split
        · exact resolvePixel_of_delta (deltaL_of_fitL ‹_›)
        · exact congrArg (resolvePixel · s) (overwritePixel_changed s.dec.prev p)

/-! ### The flushed run (R135, R136) -/

/-- A flushed run's chunk repeats PREV and leaves the rest of the run in RUN (C8). -/
theorem exec_flushChunk {run : BitVec 14} (hlo : 1 ≤ run.toNat) (hhi : run.toNat ≤ 8224) (s : State) :
    exec (flushChunk run) s = startRun (run - 1#14) s := by
  unfold flushChunk
  split
  · rename_i hshort
    have hle : run.toNat ≤ 32 := hshort
    have hload : runLoadS ((run - 1#14).setWidth 5) = run - 1#14 := by
      simp only [runLoadS]
      bv_omega
    exact congrArg (startRun · s) hload
  · rename_i hlong
    have hgt : 32 < run.toNat := BitVec.not_le.mp hlong
    have hload : runLoadL ((run - 33#14).setWidth 13) = run - 1#14 := by
      simp only [runLoadL]
      bv_omega
    exact congrArg (startRun · s) hload

/-! ### The statement -/

/-- Where a pixel is still to come, resolving it completes with the results of R109 and R120. -/
theorem resolvePixel_result (px : Pixel) {s : State} (hroom : s.dec.ppos < s.dec.npix) :
    ∃ t, resolvePixel px s = .next t ∧ PixelResult px s.dec.run.toNat s t :=
  ⟨_, resolvePixel_of_room hroom, rfl, rfl, lookup_store_same _ _, Memory.readPixel_writePixel _ _ _, rfl, rfl⟩

/-- Settles O34: both chunks resolve to one pixel, the selected chunk to `p` and the run's to PREV with RUN loaded. -/
theorem emittedChunksRebuildThePixels : Obligations.EmittedChunksRebuildThePixels := by
  refine ⟨fun c p s _ hroom hhit => ?_, fun run s hlo hhi hroom => ?_⟩
  · rw [exec_selectChunk hhit]
    exact resolvePixel_result p hroom
  · have hrun : (run - 1#14).toNat = run.toNat - 1 := by bv_omega
    obtain ⟨t, hnext, hprev, hleft, hstored, hemitted, hppos, hphase⟩ :=
      resolvePixel_result s.dec.prev (s := s.setDec { s.dec with run := run - 1#14 }) hroom
    rw [exec_flushChunk hlo hhi]
    exact ⟨t, hnext, hprev, hleft.trans hrun, hstored, hemitted, hppos, hphase⟩

end Sys2Proof.Machine
end

section
/-!
PROOFS. An encode pass, pixel by pixel (R129 to R131): the chunks an encoder context emits for the pixels still to come, the bytes
of OUT they make, and where in them the run under way is flushed (R134).
-/
namespace Sys2Proof.Machine

/-! ### One pixel step -/

/-- The encoder's registers after the pixel step on `p`, OPOS included (R131). -/
def encNext (e : EncCtx) (p : Pixel) : EncCtx :=
  { encAdvance e p with opos := e.opos + (encodeAll (pixelChunks e p)).length }

@[simp] theorem encNext_ppos (e : EncCtx) (p : Pixel) : (encNext e p).ppos = e.ppos + 1 := rfl
@[simp] theorem encNext_npix (e : EncCtx) (p : Pixel) : (encNext e p).npix = e.npix := rfl

theorem encNext_cache_of_eqPrev {e : EncCtx} {p : Pixel} (h : eqPrev e p = true) : (encNext e p).cache = e.cache := if_pos h

theorem encNext_cache_of_not_eqPrev {e : EncCtx} {p : Pixel} (h : eqPrev e p = false) :
    (encNext e p).cache = store e.cache p := by
  simp [encNext, encAdvance, h]

theorem encNext_run_of_flushes {e : EncCtx} {p : Pixel} (h : flushes e p = true) : (encNext e p).run = 0#14 := if_pos h

theorem encNext_run_of_not_flushes {e : EncCtx} {p : Pixel} (h : flushes e p = false) :
    (encNext e p).run = runCounted e p := by
  simp [encNext, encAdvance, h]

/-- An equal pixel that does not flush counts in RUN. -/
theorem encNext_run_of_counts {e : EncCtx} {p : Pixel} (heq : eqPrev e p = true) (hfl : flushes e p = false) :
    (encNext e p).run = e.run + 1#14 :=
  (encNext_run_of_not_flushes hfl).trans (runCounted_of_eqPrev heq)

/-- A differing pixel leaves no run pending. -/
theorem encNext_run_of_not_eqPrev {e : EncCtx} {p : Pixel} (heq : eqPrev e p = false) : (encNext e p).run = 0#14 := by
  cases hfl : flushes e p with
  | true => exact encNext_run_of_flushes hfl
  | false =>
    rw [encNext_run_of_not_flushes hfl, runCounted_of_not_eqPrev heq]
    simpa [flushes_of_not_eqPrev heq, runNonzero] using hfl

theorem pixelChunks_of_flushes {e : EncCtx} {p : Pixel} (heq : eqPrev e p = true) (hfl : flushes e p = true) :
    pixelChunks e p = [flushChunk (e.run + 1#14)] := by
  simp [pixelChunks, heq, hfl, runCounted_of_eqPrev heq]

theorem pixelChunks_of_not_eqPrev {e : EncCtx} {p : Pixel} (heq : eqPrev e p = false) :
    pixelChunks e p = (if e.run = 0#14 then [] else [flushChunk e.run]) ++ [selectChunk e.cache e.prev p] := by
  simp [pixelChunks, heq, flushes_of_not_eqPrev heq, runCounted_of_not_eqPrev heq, runNonzero]

theorem flushChunk_position (run : BitVec 14) : (flushChunk run).position = .chunk := by
  unfold flushChunk
  split <;> rfl

/-! ### The chunks for the pixels still to come -/

/-- The chunks an encoder context emits for the pixels `ps`, in order. -/
def chunksFor : EncCtx → List Pixel → List Instr
  | _, [] => []
  | e, p :: ps => pixelChunks e p ++ chunksFor (encNext e p) ps

theorem encodeAll_append (l l' : List Instr) : encodeAll (l ++ l') = encodeAll l ++ encodeAll l' := List.flatMap_append

theorem encodeAll_cons (i : Instr) (l : List Instr) : encodeAll (i :: l) = encode i ++ encodeAll l := rfl

/-- The encoder context has exactly the pixels `ps` still to encode, and its run is not full. -/
structure StillToEncode (ps : List Pixel) (e : EncCtx) : Prop where
  count : e.ppos + ps.length = e.npix
  runBound : e.run.toNat ≤ 8223

theorem StillToEncode.next {p : Pixel} {ps : List Pixel} {e : EncCtx} (h : StillToEncode (p :: ps) e) :
    StillToEncode ps (encNext e p) where
  count := by
    have hcount := h.count
    rw [List.length_cons] at hcount
    rw [encNext_ppos, encNext_npix]
    omega
  runBound := by
    change (encAdvance e p).run.toNat ≤ 8223
    rcases encAdvance_run_cases e p h.runBound with ⟨-, hrun, hle, -⟩ | hzero
    · omega
    · simp [hzero]

/-! ### Where the run under way is flushed (R134) -/

/-- With the pixels `ps` still to come, the run under way in `e` is flushed at length `n`, and the chunks after it are `rest`. -/
inductive FlushesAhead : EncCtx → List Pixel → BitVec 14 → List Instr → Prop where
  /-- The next pixel fills the run or is the last. -/
  | full {e : EncCtx} {p : Pixel} {ps : List Pixel} (heq : eqPrev e p = true) (hfl : flushes e p = true) :
      FlushesAhead e (p :: ps) (e.run + 1#14) (chunksFor (encNext e p) ps)
  /-- The next pixel differs. -/
  | breaks {e : EncCtx} {p : Pixel} {ps : List Pixel} (heq : eqPrev e p = false) (hrun : e.run ≠ 0#14) :
      FlushesAhead e (p :: ps) e.run (selectChunk e.cache e.prev p :: chunksFor (encNext e p) ps)
  /-- The next pixel counts, and the run is flushed later. -/
  | counts {e : EncCtx} {p : Pixel} {ps : List Pixel} {n : BitVec 14} {rest : List Instr} (heq : eqPrev e p = true)
      (hfl : flushes e p = false) (hlater : FlushesAhead (encNext e p) ps n rest) : FlushesAhead e (p :: ps) n rest

/-- The next chunk emitted is that of the flushed run. -/
theorem FlushesAhead.chunksFor_eq {e : EncCtx} {ps : List Pixel} {n : BitVec 14} {rest : List Instr}
    (h : FlushesAhead e ps n rest) : chunksFor e ps = flushChunk n :: rest := by
  induction h with
  | full heq hfl => rw [chunksFor, pixelChunks_of_flushes heq hfl, List.singleton_append]
  | breaks heq hrun =>
    rw [chunksFor, pixelChunks_of_not_eqPrev heq, if_neg hrun, List.singleton_append, List.cons_append, List.singleton_append]
  | counts heq hfl hlater ih => rw [chunksFor, pixelChunks_eq_nil heq hfl, List.nil_append, ih]

/-- A run is flushed at no less than its length so far, and at no more than RUN_MAX (R133). -/
theorem FlushesAhead.bounds {e : EncCtx} {ps : List Pixel} {n : BitVec 14} {rest : List Instr}
    (h : FlushesAhead e ps n rest) (hstill : StillToEncode ps e) : e.run.toNat ≤ n.toNat ∧ 1 ≤ n.toNat ∧ n.toNat ≤ 8224 := by
  induction h with
  | full heq hfl =>
    have hbound := hstill.runBound
    have hadd := run_add_one_toNat hbound
    omega
  | breaks heq hrun =>
    have hbound := hstill.runBound
    exact ⟨le_refl _, by bv_omega, by omega⟩
  | @counts e _ _ _ _ heq hfl hlater ih =>
    have hadd := run_add_one_toNat hstill.runBound
    have hlater := ih hstill.next
    rw [encNext_run_of_counts heq hfl] at hlater
    omega

/-- A run that the next pixel lengthens is flushed at more than its length so far. -/
theorem FlushesAhead.run_lt_of_eqPrev {e : EncCtx} {p : Pixel} {ps : List Pixel} {n : BitVec 14} {rest : List Instr}
    (h : FlushesAhead e (p :: ps) n rest) (heq : eqPrev e p = true) (hstill : StillToEncode (p :: ps) e) :
    e.run.toNat < n.toNat := by
  have hadd := run_add_one_toNat hstill.runBound
  cases h with
  | full _ hfl => omega
  | breaks hne _ => simp [heq] at hne
  | counts _ hfl hlater =>
    have hle := (hlater.bounds hstill.next).1
    rw [encNext_run_of_counts heq hfl] at hle
    omega

/-- A pending run, or one the next pixel begins, is flushed before the image ends (R134, R147). -/
theorem StillToEncode.flushesAhead {p : Pixel} {ps : List Pixel} {e : EncCtx} (h : StillToEncode (p :: ps) e)
    (hpending : e.run ≠ 0#14 ∨ eqPrev e p = true) : ∃ n rest, FlushesAhead e (p :: ps) n rest := by
  induction ps generalizing e p with
  | nil =>
    have hlast : isLast e = true := by simpa [isLast] using h.count
    cases heq : eqPrev e p with
    | false => exact ⟨_, _, .breaks heq (hpending.resolve_right (by simp [heq]))⟩
    | true => exact ⟨_, _, .full heq (by simp [flushes_of_eqPrev heq h.runBound, hlast])⟩
  | cons q qs ih =>
    cases heq : eqPrev e p with
    | false => exact ⟨_, _, .breaks heq (hpending.resolve_right (by simp [heq]))⟩
    | true =>
      cases hfl : flushes e p with
      | true => exact ⟨_, _, .full heq hfl⟩
      | false =>
        have hadd := run_add_one_toNat h.runBound
        have hrun : (encNext e p).run ≠ 0#14 := by
          rw [encNext_run_of_counts heq hfl]
          exact fun h0 => by simp [h0] at hadd
        obtain ⟨n, rest, hlater⟩ := ih h.next (.inl hrun)
        exact ⟨n, rest, .counts heq hfl hlater⟩

/-! ### The pass, step by step -/

theorem Memory.write_of_dense {m : Memory} {n : Nat} (h : m.dense n) (v : Byte) : m.write n v = m ++ [(n, v)] :=
  Memory.write_append m n v fun _ hc => List.mem_range.mp (h ▸ List.mem_map_of_mem (f := Prod.fst) hc)

/-- Bytes written at the bound of a space are appended to its bytes. -/
theorem Memory.bytes_writeBytes (vs : List Byte) :
    ∀ {m : Memory} {n : Nat}, m.dense n → (m.writeBytes n vs).bytes = m.bytes ++ vs := by
  induction vs with
  | nil => exact fun _ => (List.append_nil _).symm
  | cons v vs ih =>
    intro m n h
    have hwrite : (m.write n v).bytes = m.bytes ++ [v] := by
      rw [Memory.write_of_dense h, Memory.bytes, List.map_append]
      rfl
    rw [Memory.writeBytes, ih (Memory.dense_write h v), hwrite, List.append_assoc]
    rfl

/-- A state of an encode pass between the header step and the trailer step, with the pixels `ps` still to encode. -/
structure EncodesOn (ps : List Pixel) (s : State) : Prop where
  src : s.src.drop s.enc.ppos = ps
  still : StillToEncode ps s.enc
  written : s.out.dense s.enc.opos
  accepted : s.boAccepted = true
  alone : s.dec.phase.busy = false
  quiet : s.agenda = []
  pixels : ps ≠ [] → s.enc.phase = .pixels
  trailer : ps = [] → s.enc.phase = .trailer

/-- The state the pixel step on `p` leaves (R131). -/
def afterPixel (p : Pixel) (s : State) : State :=
  emitBytes (encodeAll (pixelChunks s.enc p)) (s.setEnc (encAdvance s.enc p))

@[simp] theorem afterPixel_enc (p : Pixel) (s : State) : (afterPixel p s).enc = encNext s.enc p := rfl

theorem step_of_encTurn_of_quiet {s : State} (hquiet : s.agenda = []) (halone : s.dec.phase.busy = false) :
    step s = playTurn (encTurn s) s := by
  rw [step_of_encTurn (.inl ⟨hquiet, halone⟩), popAgenda_of_nil hquiet]

theorem EncodesOn.step {p : Pixel} {ps : List Pixel} {s : State} (h : EncodesOn (p :: ps) s) :
    step s = .next (afterPixel p s) := by
  have hp := h.pixels (List.cons_ne_nil _ _)
  have hget : s.src[s.enc.ppos]? = some p := by rw [← List.head?_drop, h.src]; rfl
  have hroom : s.enc.ppos < s.enc.npix := by
    have hcount := h.still.count
    rw [List.length_cons] at hcount
    omega
  have hturn : encTurn s = .settled (encodePixel p s) := by
    simp only [encTurn, hp, sourceTurn, hget, h.accepted, Bool.true_or, if_true]
  rw [step_of_encTurn_of_quiet h.quiet h.alone, hturn]
  exact encodePixel_of_room hroom

theorem EncodesOn.next {p : Pixel} {ps : List Pixel} {s : State} (h : EncodesOn (p :: ps) s) : EncodesOn ps (afterPixel p s) := by
  have hstill := h.still.next
  have hphase : (afterPixel p s).enc.phase = phaseAfterSource s.enc.npix (s.enc.ppos + 1) .pixels :=
    congrArg (phaseAfterSource s.enc.npix (s.enc.ppos + 1)) (h.pixels (List.cons_ne_nil _ _))
  have hcount : s.enc.ppos + 1 + ps.length = s.enc.npix := hstill.count
  refine ⟨?_, hstill, Memory.dense_writeBytes _ h.written, h.accepted, h.alone, h.quiet, fun hne => ?_, fun hnil => ?_⟩
  · change s.src.drop (s.enc.ppos + 1) = ps
    rw [← List.drop_drop, h.src]
    rfl
  · have hpos := List.length_pos_iff.mpr hne
    exact hphase.trans (if_neg (by omega))
  · subst hnil
    exact hphase.trans (if_pos (by simpa using hcount))

/-- The encoder's registers after HDR.EMIT (R85). -/
theorem emitHeader_enc (s : State) :
    (emitHeader s).enc =
      { s.enc with opos := s.enc.opos + (encode (cfgHeader s.enc.cfg)).length, phase := phaseAfterHeader s.enc.npix } := by
  simp only [emitHeader, State.setEnc_enc, emitBytes_enc]

theorem emitHeader_out (s : State) : (emitHeader s).out = s.out.writeBytes s.enc.opos (encode (cfgHeader s.enc.cfg)) := by
  simp only [emitHeader, State.setEnc_out, emitBytes_out]

/-- HDR.EMIT leaves the rest of the state. -/
theorem emitHeader_onlyEncoder (s : State) : OnlyEncoder s (emitHeader s) := onlyEncoder_setEnc_emitBytes _ _ s

theorem EncodeStart.step {cfg : Cfg} {img : List Pixel} {s : State} (h : EncodeStart cfg img s) :
    step s = .next (emitHeader s) := by
  have hp : s.enc.phase = .header := by rw [h.ctx]; rfl
  rw [step_of_encTurn_of_quiet h.quiet h.alone, encTurn_of_header_phase hp h.accepted]
  rfl

/-- HDR.EMIT opens the pixels of the pass, every one of them still to come. -/
theorem EncodeStart.encodesOn {cfg : Cfg} {img : List Pixel} {s : State} (h : EncodeStart cfg img s) :
    EncodesOn img (emitHeader s) := by
  obtain ⟨hctx, hout, hsrc, hwhole, hbo, halone, hquiet⟩ := h
  have hppos : s.enc.ppos = 0 := by rw [hctx]; rfl
  have hrun : s.enc.run = 0#14 := by rw [hctx]; rfl
  have hnpix : s.enc.npix = img.length := by rw [hctx, hwhole]; rfl
  have hdense : s.out.dense s.enc.opos := by rw [hout, hctx]; exact Memory.dense_nil
  obtain ⟨hdecEq, -, -, -, hsrcEq, -, -, hboEq, hagendaEq, -⟩ := emitHeader_onlyEncoder s
  refine ⟨?_, ⟨?_, ?_⟩, ?_, hboEq.trans hbo, by rwa [hdecEq], hagendaEq.trans hquiet, fun hne => ?_, fun hnil => ?_⟩ <;>
    simp only [emitHeader_enc, emitHeader_out, hsrcEq, hppos, hrun, hnpix, List.drop_zero]
  · exact hsrc
  · exact Nat.zero_add _
  · exact Nat.zero_le _
  · exact Memory.dense_writeBytes _ hdense
  · exact if_neg (List.length_pos_iff.mpr hne).ne'
  · exact if_pos (by rw [hnil]; rfl)

theorem EncodeStart.bytes_emitHeader {cfg : Cfg} {img : List Pixel} {s : State} (h : EncodeStart cfg img s) :
    (emitHeader s).out.bytes = encode (cfgHeader cfg) := by
  rw [emitHeader_out, h.out, h.ctx]
  exact Memory.bytes_writeBytes _ Memory.dense_nil

/-- What the rest of the pass appends to OUT: the chunks for the pixels still to come, and the trailer. -/
theorem EncodesOn.bytes_of_steps {ps : List Pixel} {s t : State} (h : EncodesOn ps s) (ht : steps (ps.length + 1) s = .next t) :
    t.out.bytes = s.out.bytes ++ (encodeAll (chunksFor s.enc ps) ++ encode .trailer) := by
  induction ps generalizing s with
  | nil =>
    have hstep : Machine.step s = execTrailer s := by
      rw [step_of_encTurn_of_quiet h.quiet h.alone, encTurn_of_trailer_phase (h.trailer rfl) h.accepted]
      rfl
    cases (steps_succ_of_step hstep 0).symm.trans ht
    exact Memory.bytes_writeBytes _ h.written
  | cons p ps ih =>
    have hbytes : (afterPixel p s).out.bytes = s.out.bytes ++ encodeAll (pixelChunks s.enc p) :=
      Memory.bytes_writeBytes _ h.written
    have hrest := ih h.next ((steps_succ_of_step h.step _).symm.trans ht)
    rw [hrest, hbytes, afterPixel_enc, chunksFor, encodeAll_append, List.append_assoc, List.append_assoc]

/-- The stream an encode pass writes: header, chunks, trailer (R59). -/
theorem EncodeStart.bytes_of_steps {cfg : Cfg} {img : List Pixel} {s t : State} (h : EncodeStart cfg img s)
    (ht : steps (img.length + 2) s = .next t) :
    t.out.bytes = encode (cfgHeader cfg) ++ (encodeAll (chunksFor (emitHeader s).enc img) ++ encode .trailer) := by
  rw [← h.bytes_emitHeader]
  exact h.encodesOn.bytes_of_steps ((steps_succ_of_step h.step _).symm.trans ht)

end Sys2Proof.Machine
end

section
/-!
PROOFS. The caches of an encode pass and of the decode pass over its output (R100): the decoder follows the encoder pixel by pixel,
though it has read a run's chunk while the encoder still counts it.
-/
namespace Sys2Proof.Machine

/-! ### Caches that agree but possibly in slot 63 (R99, R100) -/

/-- Items (2) and (3) of R100, `ce` the encoder's cache and `cd` the decoder's. -/
def CachesAgree (ce cd : Cache) : Prop :=
  (∀ i : BitVec 6, i ≠ 63#6 → lookup cd i = lookup ce i) ∧
    (lookup cd 63#6 = lookup ce 63#6 ∨ (lookup ce 63#6 = zeroPixel ∧ lookup cd 63#6 = prevInit))

theorem cachesCoherent_iff (e : EncCtx) (d : DecCtx) : cachesCoherent e d ↔ d.prev = e.prev ∧ CachesAgree e.cache d.cache := Iff.rfl

theorem CachesAgree.refl (c : Cache) : CachesAgree c c := ⟨fun _ _ => rfl, .inl rfl⟩

/-- A Store of the same pixel keeps the agreement. -/
theorem CachesAgree.store_both {ce cd : Cache} (h : CachesAgree ce cd) (p : Pixel) : CachesAgree (store ce p) (store cd p) := by
  obtain ⟨hother, hlast⟩ := h
  refine ⟨fun i hi => ?_, ?_⟩
  · rw [lookup_store, lookup_store, hother i hi]
  · rw [lookup_store, lookup_store]
    split
    · exact .inl rfl
    · exact hlast

/-- Item (4) of R100: what the encoder holds in its slot the decoder holds, as ZERO_PX does not belong in slot 63. -/
theorem CachesAgree.hit {ce cd : Cache} (h : CachesAgree ce cd) {p : Pixel} (hp : lookup ce (slot p) = p) :
    lookup cd (slot p) = p := by
  obtain ⟨hother, hlast⟩ := h
  by_cases hslot : slot p = 63#6
  · rw [hslot] at hp ⊢
    rcases hlast with hsame | ⟨hzero, -⟩
    · exact hsame.trans hp
    · rw [← hp, hzero] at hslot
      exact absurd hslot (by decide)
  · exact (hother _ hslot).trans hp

/-- The pixel is in its slot, or is PREV_INIT, not yet stored (R99). -/
def HeldOrInitial (c : Cache) (p : Pixel) : Prop := lookup c (slot p) = p ∨ (p = prevInit ∧ lookup c 63#6 = zeroPixel)

/-- The Store of a run chunk, which the encoder does not make, changes nothing, or makes the difference in slot 63. -/
theorem CachesAgree.store_of_heldOrInitial {ce cd : Cache} (h : CachesAgree ce cd) {p : Pixel} (hp : HeldOrInitial ce p) :
    CachesAgree ce (store cd p) := by
  rcases hp with hheld | ⟨rfl, hzero⟩
  · have hsame : store cd p = cd := by
      refine cache_ext fun i => ?_
      by_cases hi : slot p = i
      · rw [← hi, lookup_store_same, h.hit hheld]
      · exact lookup_store_other cd p i (Ne.symm hi)
    rwa [hsame]
  · have hslot : slot prevInit = 63#6 := by decide
    refine ⟨fun i hi => ?_, .inr ⟨hzero, ?_⟩⟩
    · rw [lookup_store_other cd prevInit i (hslot ▸ hi)]
      exact h.1 i hi
    · rw [← hslot, lookup_store_same]

/-! ### What the decoder has before it -/

/-- Where a decoder with `run` in RUN and the bytes `left` before it stands when an encoder context has `ps` still to encode; after
the chunks comes `tail`. -/
inductive StreamPlace (tail : List Byte) (e : EncCtx) (ps : List Pixel) (run : BitVec 14) (left : List Byte) : Prop where
  /-- Neither is in a run: the next chunk emitted is the next chunk read. -/
  | atChunk (he : e.run = 0#14) (hrun : run = 0#14) (hleft : left = encodeAll (chunksFor e ps) ++ tail)
  /-- The encoder is in a run whose chunk, still to be emitted, the decoder has read. -/
  | inRun (n : BitVec 14) (rest : List Instr) (hahead : FlushesAhead e ps n rest) (hrun : run.toNat + e.run.toNat = n.toNat)
      (hleft : left = encodeAll rest ++ tail)

/-- A pixel of the run has been taken by both: they are still in it, or it has ended for both. -/
theorem FlushesAhead.streamPlace {e : EncCtx} {p : Pixel} {ps : List Pixel} {n : BitVec 14} {rest : List Instr}
    (h : FlushesAhead e (p :: ps) n rest) (heq : eqPrev e p = true) (hstill : StillToEncode (p :: ps) e) {run : BitVec 14}
    (hrun : run.toNat + (e.run.toNat + 1) = n.toNat) (tail : List Byte) :
    StreamPlace tail (encNext e p) ps run (encodeAll rest ++ tail) := by
  have hadd := run_add_one_toNat hstill.runBound
  cases h with
  | full _ hfl => exact .atChunk (encNext_run_of_flushes hfl) (BitVec.eq_of_toNat_eq (by simp only [BitVec.toNat_zero]; omega)) rfl
  | breaks hne _ => simp [heq] at hne
  | counts _ hfl hlater => exact .inRun n rest hlater (by rw [encNext_run_of_counts heq hfl, hadd, hrun]) rfl

/-- Before a pixel equal to PREV the decoder is in the run, or about to read its chunk. -/
theorem StreamPlace.of_eqPrev {tail : List Byte} {e : EncCtx} {p : Pixel} {ps : List Pixel} {run : BitVec 14} {left : List Byte}
    (h : StreamPlace tail e (p :: ps) run left) (heq : eqPrev e p = true) (hstill : StillToEncode (p :: ps) e) :
    ∃ n rest, FlushesAhead e (p :: ps) n rest ∧
      ((e.run = 0#14 ∧ run = 0#14 ∧ left = encode (flushChunk n) ++ (encodeAll rest ++ tail)) ∨
        (run.toNat + e.run.toNat = n.toNat ∧ left = encodeAll rest ++ tail)) := by
  cases h with
  | atChunk he hrun hleft =>
    obtain ⟨n, rest, hahead⟩ := hstill.flushesAhead (.inr heq)
    rw [hahead.chunksFor_eq, encodeAll_cons, List.append_assoc] at hleft
    exact ⟨n, rest, hahead, .inl ⟨he, hrun, hleft⟩⟩
  | inRun n rest hahead hrun hleft => exact ⟨n, rest, hahead, .inr ⟨hrun, hleft⟩⟩

/-- Before a pixel that differs from PREV the decoder is about to read that pixel's own chunk. -/
theorem StreamPlace.of_not_eqPrev {tail : List Byte} {e : EncCtx} {p : Pixel} {ps : List Pixel} {run : BitVec 14}
    {left : List Byte} (h : StreamPlace tail e (p :: ps) run left) (hne : eqPrev e p = false) :
    run = 0#14 ∧ left = encode (selectChunk e.cache e.prev p) ++ (encodeAll (chunksFor (encNext e p) ps) ++ tail) := by
  cases h with
  | atChunk he hrun hleft =>
    rw [chunksFor, pixelChunks_of_not_eqPrev hne, if_pos he, List.nil_append, List.singleton_append, encodeAll_cons,
      List.append_assoc] at hleft
    exact ⟨hrun, hleft⟩
  | inRun n rest hahead hrun hleft =>
    cases hahead with
    | full heq _ => simp [heq] at hne
    | breaks _ _ =>
      rw [encodeAll_cons, List.append_assoc] at hleft
      exact ⟨BitVec.eq_of_toNat_eq (by simp only [BitVec.toNat_zero]; omega), hleft⟩
    | counts heq _ _ => simp [heq] at hne

/-! ### One pixel step of the decoder -/

/-- The state a pixel step of DEC leaves that emits `px`: IPOS, RUN and the cache as given (R109, R110, R120). -/
def pixelOut (px : Pixel) (ipos : Nat) (run : BitVec 14) (cache : Cache) (u : State) : State :=
  (u.setDst (u.dst.writePixel u.dec.ppos px)).setDec
    { u.dec with
      ipos := ipos
      prev := px
      run := run
      ppos := u.dec.ppos + 1
      cache := cache
      phase := phaseAfterPixel u.dec.npix (u.dec.ppos + 1) u.dec.phase }

/-- Before a chunk that resolves to `px` with `run` in RUN, the step emits `px` and stores it, with the rest of the stream before it. -/
theorem PixelsUnderWay.step_of_chunk {bytes rest : List Byte} {u : State} (h : PixelsUnderWay bytes u) (hrun : u.dec.run = 0#14)
    {i : Instr} (hi : i.position = .chunk) (hleft : u.inp.drop u.dec.ipos = encode i ++ rest) {px : Pixel} {run : BitVec 14}
    (hexec : ∀ t : State, t.dec.prev = u.dec.prev → t.dec.cache = u.dec.cache → t.dec.run = u.dec.run →
      exec i t = resolvePixel px (t.setDec { t.dec with run := run })) :
    Machine.step u = .next (pixelOut px (u.dec.ipos + i.size) run (store u.dec.cache px) u) ∧
      u.inp.drop (u.dec.ipos + i.size) = rest ∧ u.dec.ipos + i.size ≤ bytes.length := by
  have hd : decodeChunk (u.inp.drop u.dec.ipos) = .ok i rest := by
    have hround := decodeOfEncodeIsTheInstruction i rest
    rwa [hi, ← hleft] at hround
  have hsize := size_add_length_of_decodeChunk hd
  refine ⟨?_, ?_, ?_⟩
  · rw [step_of_decTurn_of_quiet h.quiet (decTurn_of_chunk h.phase hrun h.accepted hd) (by simp), playTurn,
      hexec (u.setDec { u.dec with ipos := u.dec.ipos + i.size }) rfl rfl rfl]
    exact resolvePixel_of_room h.room
  · rw [← List.drop_drop, hleft, ← (size_statement i).1, List.drop_left]
  · rw [List.length_drop, h.inp] at hsize
    have := h.within
    omega

/-- In a run the step emits PREV and reads nothing (R110). -/
theorem PixelsUnderWay.step_of_run {bytes : List Byte} {u : State} (h : PixelsUnderWay bytes u) (hrun : u.dec.run ≠ 0#14) :
    Machine.step u = .next (pixelOut u.dec.prev u.dec.ipos (u.dec.run - 1#14) u.dec.cache u) := by
  rw [step_of_decTurn_of_quiet h.quiet (decTurn_of_run h.phase hrun h.accepted) (by simp)]
  exact emitPixel_of_room h.room

theorem PixelsUnderWay.of_pixelOut {bytes : List Byte} {u : State} (h : PixelsUnderWay bytes u) (hmore : u.dec.ppos + 1 < u.dec.npix)
    {ipos : Nat} (hwithin : ipos ≤ bytes.length) (px : Pixel) (run : BitVec 14) (cache : Cache) :
    PixelsUnderWay bytes (pixelOut px ipos run cache u) := by
  have hphase : phaseAfterPixel u.dec.npix (u.dec.ppos + 1) u.dec.phase = .pixels := (if_neg hmore.ne).trans h.phase
  exact ⟨h.inp, h.ended, h.accepted, h.quiet, hphase, hmore, hwithin⟩

/-! ### The decoder follows the encoder -/

/-- A decode pass over `bytes` has emitted the pixels an encoder context has taken, and has `ps` still to emit. -/
structure DecoderFollows (bytes tail : List Byte) (e : EncCtx) (ps : List Pixel) (u : State) : Prop where
  prev : u.dec.prev = e.prev
  agree : CachesAgree e.cache u.dec.cache
  held : HeldOrInitial e.cache e.prev
  count : u.dec.ppos + ps.length = u.dec.npix
  going : ps ≠ [] → PixelsUnderWay bytes u
  place : StreamPlace tail e ps u.dec.run (u.inp.drop u.dec.ipos)

/-- After a step that emits the encoder's pixel the decoder follows, if the caches and the place in the stream say so. -/
theorem DecoderFollows.of_pixelOut {bytes tail : List Byte} {e : EncCtx} {p : Pixel} {ps : List Pixel} {u : State}
    (h : DecoderFollows bytes tail e (p :: ps) u) {ipos : Nat} {run : BitVec 14} {cache : Cache} (hwithin : ipos ≤ bytes.length)
    (hagree : CachesAgree (encNext e p).cache cache) (hheld : HeldOrInitial (encNext e p).cache p)
    (hplace : StreamPlace tail (encNext e p) ps run (u.inp.drop ipos)) :
    DecoderFollows bytes tail (encNext e p) ps (pixelOut p ipos run cache u) := by
  have hcount : u.dec.ppos + 1 + ps.length = u.dec.npix := by
    have hcount := h.count
    rw [List.length_cons] at hcount
    omega
  refine ⟨rfl, hagree, hheld, hcount, fun hne => ?_, hplace⟩
  have hpos := List.length_pos_iff.mpr hne
  exact (h.going (List.cons_ne_nil _ _)).of_pixelOut (by omega) hwithin p run cache

/-- A pixel that differs from PREV: both store it (R120, R145). -/
theorem DecoderFollows.step_of_not_eqPrev {bytes tail : List Byte} {e : EncCtx} {p : Pixel} {ps : List Pixel} {u : State}
    (h : DecoderFollows bytes tail e (p :: ps) u) (hne : eqPrev e p = false) :
    ∃ ipos run cache, Machine.step u = .next (pixelOut p ipos run cache u) ∧
      DecoderFollows bytes tail (encNext e p) ps (pixelOut p ipos run cache u) := by
  obtain ⟨hrun, hleft⟩ := h.place.of_not_eqPrev hne
  have hcache := encNext_cache_of_not_eqPrev hne
  obtain ⟨hstep, hrest, hwithin⟩ := (h.going (List.cons_ne_nil _ _)).step_of_chunk hrun (selectChunk_position _ _ _) hleft
    (px := p) (run := 0#14) fun t hprev htcache htrun => by
      rw [← h.prev, ← hprev, exec_selectChunk (fun hp => by rw [htcache]; exact h.agree.hit hp), ← hrun, ← htrun]
      rfl
  refine ⟨_, _, _, hstep, h.of_pixelOut hwithin ?_ ?_ ?_⟩
  · rw [hcache]
    exact h.agree.store_both p
  · rw [hcache]
    exact .inl (lookup_store_same _ _)
  · exact .atChunk (encNext_run_of_not_eqPrev hne) rfl hrest

/-- A pixel equal to PREV: the decoder reads the run's chunk, and stores PREV again, or continues the run (R110, R113, R114). -/
theorem DecoderFollows.step_of_eqPrev {bytes tail : List Byte} {e : EncCtx} {p : Pixel} {ps : List Pixel} {u : State}
    (h : DecoderFollows bytes tail e (p :: ps) u) (hstill : StillToEncode (p :: ps) e) (heq : eqPrev e p = true) :
    ∃ ipos run cache, Machine.step u = .next (pixelOut p ipos run cache u) ∧
      DecoderFollows bytes tail (encNext e p) ps (pixelOut p ipos run cache u) := by
  have hunder := h.going (List.cons_ne_nil _ _)
  have hp : p = e.prev := (eqPrev_iff e p).mp heq
  have hpd : u.dec.prev = p := h.prev.trans hp.symm
  have hcache := encNext_cache_of_eqPrev heq
  have hheld : HeldOrInitial e.cache p := hp ▸ h.held
  obtain ⟨n, rest, hahead, ⟨he, hrun, hleft⟩ | ⟨hrun, hleft⟩⟩ := h.place.of_eqPrev heq hstill
  · obtain ⟨-, hlo, hhi⟩ := hahead.bounds hstill
    obtain ⟨hstep, hrest, hwithin⟩ := hunder.step_of_chunk hrun (flushChunk_position n) hleft (px := p)
      (run := n - 1#14) fun t hprev _ _ => by
      rw [exec_flushChunk hlo hhi, startRun, hprev, hpd]
    have hload : (n - 1#14).toNat + (e.run.toNat + 1) = n.toNat := by
      rw [he]
      bv_omega
    refine ⟨_, _, _, hstep, h.of_pixelOut hwithin ?_ (hcache ▸ hheld) ?_⟩
    · rw [hcache]
      exact h.agree.store_of_heldOrInitial hheld
    · rw [hrest]
      exact hahead.streamPlace heq hstill hload tail
  · have hlt := hahead.run_lt_of_eqPrev heq hstill
    have hne : u.dec.run ≠ 0#14 := fun h0 => by
      rw [h0, BitVec.toNat_zero] at hrun
      omega
    have hcounted : (u.dec.run - 1#14).toNat + (e.run.toNat + 1) = n.toNat := by bv_omega
    have hstep := hunder.step_of_run hne
    rw [hpd] at hstep
    refine ⟨_, _, _, hstep, h.of_pixelOut hunder.within ?_ (hcache ▸ hheld) ?_⟩
    · rw [hcache]
      exact h.agree
    · rw [hleft]
      exact hahead.streamPlace heq hstill hcounted tail

theorem DecoderFollows.step {bytes tail : List Byte} {e : EncCtx} {p : Pixel} {ps : List Pixel} {u : State}
    (h : DecoderFollows bytes tail e (p :: ps) u) (hstill : StillToEncode (p :: ps) e) :
    ∃ ipos run cache, Machine.step u = .next (pixelOut p ipos run cache u) ∧
      DecoderFollows bytes tail (encNext e p) ps (pixelOut p ipos run cache u) := by
  cases heq : eqPrev e p with
  | false => exact h.step_of_not_eqPrev heq
  | true => exact h.step_of_eqPrev hstill heq

/-- By induction on the steps: after as many pixels of both passes the decoder follows. -/
theorem DecoderFollows.of_steps {bytes tail : List Byte} {ps : List Pixel} {s u : State} (henc : EncodesOn ps s)
    (h : DecoderFollows bytes tail s.enc ps u) {k : Nat} (hk : k ≤ ps.length) {s' u' : State} (hs : steps k s = .next s')
    (hu : steps k u = .next u') : ∃ qs, DecoderFollows bytes tail s'.enc qs u' := by
  induction k generalizing ps s u with
  | zero =>
    cases hs
    cases hu
    exact ⟨ps, h⟩
  | succ k ih =>
    cases ps with
    | nil => simp at hk
    | cons p ps =>
      obtain ⟨ipos, run, cache, hstep, hnext⟩ := h.step henc.still
      exact ih henc.next hnext (Nat.le_of_succ_le_succ hk) ((steps_succ_of_step henc.step k).symm.trans hs)
        ((steps_succ_of_step hstep k).symm.trans hu)

/-! ### The header step of the decode pass -/

/-- The header an encode pass has written is accepted where it is legal (R90). -/
theorem DecodeStart.step_of_header {cfg : Cfg} {rest : List Byte} {u : State}
    (h : DecodeStart (encode (cfgHeader cfg) ++ rest) u) (hlegal : headerLegal cfg.width cfg.height cfg.channels) :
    Machine.step u = .next (acceptHeader (loadHeader cfg.width cfg.height cfg.channels cfg.colorspace
      (u.setDec { u.dec with ipos := 14 }))) := by
  obtain ⟨⟨k, hctx⟩, hinp, hended, -, -, hquiet⟩ := h
  have hp : u.dec.phase = .header := by rw [hctx]; rfl
  have hdecode := decodeHeader_encode cfg.width cfg.height cfg.channels cfg.colorspace rest
  obtain ⟨w, ht, c, cs, hinstr, hparts⟩ := decodeHeader_ok hdecode
  cases hinstr
  rw [step_of_decTurn_of_quiet hquiet rfl (decTurn_ne_waits_of_header hp hended)]
  refine (decTurn_of_header (rest := rest) hp ?_).1 ⟨rfl, hlegal⟩
  rw [hinp]
  exact hparts

/-- After the header steps of both passes nothing is emitted, and the decoder has the encoder's chunks before it (R174). -/
theorem DecodeStart.decoderFollows {cfg : Cfg} {img : List Pixel} {s u : State} {bytes tail : List Byte} (hu : DecodeStart bytes u)
    (hs : EncodeStart cfg img s) (hbytes : bytes = encode (cfgHeader cfg) ++ (encodeAll (chunksFor (emitHeader s).enc img) ++ tail))
    (hlegal : headerLegal cfg.width cfg.height cfg.channels) :
    DecoderFollows bytes tail (emitHeader s).enc img
      (acceptHeader (loadHeader cfg.width cfg.height cfg.channels cfg.colorspace (u.setDec { u.dec with ipos := 14 }))) := by
  obtain ⟨⟨k, hctx⟩, hinp, hended, -, hpxo, hquiet⟩ := hu
  obtain ⟨hw, hh, -⟩ := hlegal
  have hlen : (encode (cfgHeader cfg)).length = 14 := (size_statement (cfgHeader cfg)).1
  have hprev : (emitHeader s).enc.prev = prevInit := by rw [emitHeader_enc, hs.ctx]; rfl
  have hrun : (emitHeader s).enc.run = 0#14 := by rw [emitHeader_enc, hs.ctx]; rfl
  have hcache : (emitHeader s).enc.cache = zeroCache := by rw [emitHeader_enc, hs.ctx]; rfl
  have hppos : u.dec.ppos = 0 := by rw [hctx]; rfl
  have hpos := pixelCount_pos hw hh
  refine ⟨?_, ?_, ?_, ?_, fun _ => ⟨hinp, hended, hpxo, hquiet, rfl, hppos ▸ hpos, ?_⟩, .atChunk hrun ?_ ?_⟩
  · change u.dec.prev = _
    rw [hprev, hctx]
    rfl
  · change CachesAgree _ u.dec.cache
    rw [hcache, hctx]
    exact .refl zeroCache
  · rw [hcache, hprev]
    exact .inr ⟨rfl, lookup_zeroCache _⟩
  · change u.dec.ppos + img.length = pixelCount cfg.width cfg.height
    rw [hppos, hs.whole, Nat.zero_add]
  · change 14 ≤ bytes.length
    rw [hbytes, List.length_append, hlen]
    exact Nat.le_add_right _ _
  · change u.dec.run = _
    rw [hctx]
    rfl
  · change u.inp.drop 14 = _
    rw [hinp, hbytes, ← hlen, List.drop_left]

/-! ### The statement -/

/-- Item (4) of R100 comes with the first three. -/
theorem DecoderFollows.coherent {bytes tail : List Byte} {e : EncCtx} {ps : List Pixel} {u : State}
    (h : DecoderFollows bytes tail e ps u) :
    cachesCoherent e u.dec ∧ ∀ p, lookup e.cache (slot p) = p → lookup u.dec.cache (slot p) = p :=
  ⟨(cachesCoherent_iff e u.dec).mpr ⟨h.prev, h.agree⟩, fun _ => h.agree.hit⟩

/-- Settles O57: the decode pass follows the encode pass from the header step on, and following is coherence. -/
theorem cachesStayCoherent : Obligations.CachesStayCoherent := by
  intro cfg img s u hs hlegal te hte hu k hk ek dk hek hdk
  have hbytes := hs.bytes_of_steps hte
  have hfollows := hu.decoderFollows hs hbytes hlegal
  have hstep : step u = _ := DecodeStart.step_of_header (hbytes ▸ hu) hlegal
  obtain ⟨qs, hend⟩ := hfollows.of_steps hs.encodesOn hk ((steps_succ_of_step hs.step k).symm.trans hek)
    ((steps_succ_of_step hstep k).symm.trans hdk)
  exact hend.coherent

end Sys2Proof.Machine
end

section
/-!
PROOFS. A decode pass over an encoded stream that is cut (R124): it goes step by step with the pass over the whole stream until it
misses a byte, which it must, as the pass over the whole stream reads every chunk byte.
-/
namespace Sys2Proof.Machine

/-! ### The cut stream -/

/-- The state with IN cut to its first `n` bytes. -/
def cutInput (n : Nat) (u : State) : State := u.setInp (u.inp.take n)

/-- A pass has failed with TruncatedStreamError at offset `n` (R124). -/
def TruncatedAt (n : Nat) (t : State) : Prop := t.dec.phase = .error ∧ t.dec.err = .truncated ∧ t.dec.errPos = n

theorem PixelsUnderWay.of_cutInput {bytes : List Byte} {u : State} (h : PixelsUnderWay bytes u) {n : Nat}
    (hcut : n ≤ bytes.length) (hbefore : u.dec.ipos ≤ n) : PixelsUnderWay (bytes.take n) (cutInput n u) := by
  obtain ⟨hinp, hended, hpxo, hquiet, hp, hroom, -⟩ := h
  refine ⟨congrArg (List.take n) hinp, hended, hpxo, hquiet, hp, hroom, ?_⟩
  rwa [List.length_take_of_le hcut]

/-- What a chunk does depends on PREV, CACHE and RUN alone (R112 to R118). -/
theorem exec_chunk_resolves_of_registers {i : Instr} (hi : i.position = .chunk) (d : DecCtx) :
    ∃ px run, ∀ t : State, t.dec.prev = d.prev → t.dec.cache = d.cache → t.dec.run = d.run →
      exec i t = resolvePixel px (t.setDec { t.dec with run := run }) := by
  cases i with
  | index k => exact ⟨lookup d.cache k, d.run, fun t _ hcache hrun => by rw [← hcache, ← hrun]; rfl⟩
  | runS n => exact ⟨d.prev, runLoadS n, fun t hprev _ _ => by rw [← hprev]; rfl⟩
  | runL f => exact ⟨d.prev, runLoadL f, fun t hprev _ _ => by rw [← hprev]; rfl⟩
  | diffS r g b => exact ⟨addDelta d.prev (deltaS r g b), d.run, fun t hprev _ hrun => by rw [← hprev, ← hrun]; rfl⟩
  | diffM r g b => exact ⟨addDelta d.prev (deltaM r g b), d.run, fun t hprev _ hrun => by rw [← hprev, ← hrun]; rfl⟩
  | diffL r g b a => exact ⟨addDelta d.prev (deltaL r g b a), d.run, fun t hprev _ hrun => by rw [← hprev, ← hrun]; rfl⟩
  | overwrite r g b a => exact ⟨overwritePixel d.prev r g b a, d.run, fun t hprev _ hrun => by rw [← hprev, ← hrun]; rfl⟩
  | header w h c cs => cases hi
  | trailer => cases hi

/-- A pixel step on the cut stream fails at the cut, or is the step on the whole stream and stays before the cut. -/
theorem PixelsUnderWay.step_cutInput {bytes : List Byte} {u t : State} (h : PixelsUnderWay bytes u) {n : Nat}
    (hcut : n ≤ bytes.length) (hbefore : u.dec.ipos ≤ n) (hstep : Machine.step u = .next t) :
    (∃ v, Machine.step (cutInput n u) = .next v ∧ TruncatedAt n v) ∨
      (Machine.step (cutInput n u) = .next (cutInput n t) ∧ t.dec.ipos ≤ n) := by
  have hc := h.of_cutInput hcut hbefore
  have hlen : (cutInput n u).inp.length = n := by rw [hc.inp, List.length_take_of_le hcut]
  by_cases hrun : u.dec.run = 0#14
  · rcases decodeChunk_ok_or_endOfStream ((cutInput n u).inp.drop u.dec.ipos) with ⟨i, rest, hd⟩ | hd
    · have hi := decodeChunk_position hd
      obtain ⟨px, run, hexec⟩ := exec_chunk_resolves_of_registers hi u.dec
      have hleft : u.inp.drop u.dec.ipos = encode i ++ (rest ++ u.inp.drop n) := by
        have hsplit := List.drop_take_append_drop u.inp u.dec.ipos (n - u.dec.ipos)
        rw [Nat.add_sub_cancel' hbefore, ← List.drop_take] at hsplit
        rw [← List.append_assoc, encode_of_decodeChunk hd]
        exact hsplit.symm
      obtain ⟨hwhole, -, -⟩ := h.step_of_chunk hrun hi hleft hexec
      obtain ⟨hcutStep, -, hwithin⟩ := hc.step_of_chunk hrun hi (encode_of_decodeChunk hd).symm hexec
      rw [List.length_take_of_le hcut] at hwithin
      cases hwhole.symm.trans hstep
      exact .inr ⟨hcutStep, hwithin⟩
    · have hfails := decTurn_of_truncated hc.phase hrun hc.ended (hbefore.trans hlen.ge) hd
      exact .inl ⟨_, step_of_decTurn_of_quiet hc.quiet hfails (by simp), rfl, rfl, hlen⟩
  · cases (h.step_of_run hrun).symm.trans hstep
    exact .inr ⟨hc.step_of_run hrun, hbefore⟩

/-! ### The cut pass fails -/

/-- With no pixel left the decoder has only what follows the chunks before it. -/
theorem StreamPlace.left_of_nil {tail : List Byte} {e : EncCtx} {run : BitVec 14} {left : List Byte}
    (h : StreamPlace tail e [] run left) : left = tail := by
  cases h with
  | atChunk _ _ hleft => exact hleft
  | inRun n rest hahead _ _ => cases hahead

/-- By induction on the pixels still to come: the cut pass does not get to the end of the chunks, so it fails on the way. -/
theorem DecoderFollows.truncated_of_cutInput {bytes tail : List Byte} {e : EncCtx} {ps : List Pixel} {u : State}
    (h : DecoderFollows bytes tail e ps u) (hstill : StillToEncode ps e) (hinp : u.inp = bytes) {n : Nat}
    (hbefore : u.dec.ipos ≤ n) (hcut : n + tail.length < bytes.length) :
    ∃ k v, steps k (cutInput n u) = .next v ∧ k ≤ ps.length ∧ TruncatedAt n v := by
  induction ps generalizing e u with
  | nil =>
    have hread := congrArg List.length h.place.left_of_nil
    rw [List.length_drop, hinp] at hread
    omega
  | cons p ps ih =>
    obtain ⟨ipos, run, cache, hstep, hnext⟩ := h.step hstill
    rcases (h.going (List.cons_ne_nil _ _)).step_cutInput (by omega) hbefore hstep with ⟨v, hfail, hv⟩ | ⟨hgoes, hbefore'⟩
    · exact ⟨1, v, steps_succ_of_step hfail 0, Nat.le_add_left _ _, hv⟩
    · obtain ⟨k, v, hsteps, hk, hv⟩ := ih hnext hstill.next hinp hbefore'
      exact ⟨k + 1, v, (steps_succ_of_step hgoes k).trans hsteps, Nat.succ_le_succ hk, hv⟩

/-! ### The statement -/

theorem Memory.length_bytes_of_dense {m : Memory} {n : Nat} (h : m.dense n) : m.bytes.length = n := by
  have hlen := congrArg List.length h
  rw [List.length_map, List.length_range] at hlen
  rw [Memory.bytes, List.length_map, hlen]

/-- At the end of an encode pass OUT holds the bytes below OPOS (R41). -/
theorem EncodesOn.dense_of_steps {ps : List Pixel} {s t : State} (h : EncodesOn ps s) (ht : steps (ps.length + 1) s = .next t) :
    t.out.dense t.enc.opos := by
  induction ps generalizing s with
  | nil =>
    have hstep : Machine.step s = execTrailer s := by
      rw [step_of_encTurn_of_quiet h.quiet h.alone, encTurn_of_trailer_phase (h.trailer rfl) h.accepted]
      rfl
    cases (steps_succ_of_step hstep 0).symm.trans ht
    exact Memory.dense_writeBytes _ h.written
  | cons p ps ih => exact ih h.next ((steps_succ_of_step h.step _).symm.trans ht)

/-- Settles O58: the header step, then the steps of `DecoderFollows.truncated_of_cutInput`. -/
theorem cutStreamsFailAsTruncated : Obligations.CutStreamsFailAsTruncated := by
  intro cfg img s u hs hlegal te n hte hn hcut hu
  have hbytes := hs.bytes_of_steps hte
  have hlen := Memory.length_bytes_of_dense (hs.encodesOn.dense_of_steps ((steps_succ_of_step hs.step _).symm.trans hte))
  have hheader : (encode (cfgHeader cfg)).length = 14 := (size_statement (cfgHeader cfg)).1
  obtain ⟨m, rfl⟩ := Nat.exists_eq_add_of_le hn
  have htake : te.out.bytes.take (14 + m) =
      encode (cfgHeader cfg) ++ (encodeAll (chunksFor (emitHeader s).enc img) ++ encode .trailer).take m := by
    rw [hbytes, ← hheader, List.take_length_add_append]
  have hstep : step u = _ := DecodeStart.step_of_header (htake ▸ hu) hlegal
  have hwhole : DecodeStart te.out.bytes (u.setInp te.out.bytes) := ⟨hu.ctx, rfl, hu.ended, hu.dst, hu.accepted, hu.quiet⟩
  obtain ⟨k, v, hsteps, hk, hphase, herr, hpos⟩ :=
    (hwhole.decoderFollows hs hbytes hlegal).truncated_of_cutInput (n := 14 + m) hs.encodesOn.still rfl hn (by rw [hlen]; exact hcut)
  have hstart : cutInput (14 + m) (u.setInp te.out.bytes) = u := congrArg u.setInp hu.inp.symm
  rw [← hstart] at hstep ⊢
  exact ⟨k + 1, v, (steps_succ_of_step hstep k).trans hsteps, Nat.succ_le_succ hk, hphase, herr, hpos⟩

end Sys2Proof.Machine
end

section
/-!
PROOFS. The dispatch on a chunk's first byte (R111) and the operands of each chunk kind as quotients and remainders of its bytes
(R47, R68 to R74).
-/
namespace Sys2Proof

/-! ### The dispatch (R111) -/

/-- The kind a byte opens, with the one test of R111 it passes. -/
theorem dispatchTag_cases (b : Byte) :
    (dispatchTag b = .index ∧ b.toNat / 64 = 0) ∨ (dispatchTag b = .runS ∧ b.toNat / 32 = 2) ∨
      (dispatchTag b = .runL ∧ b.toNat / 32 = 3) ∨ (dispatchTag b = .diffS ∧ b.toNat / 64 = 2) ∨
      (dispatchTag b = .diffM ∧ b.toNat / 32 = 6) ∨ (dispatchTag b = .diffL ∧ b.toNat / 16 = 14) ∨
      (dispatchTag b = .overwrite ∧ b.toNat / 16 = 15) := by
  have hlt : b.toNat < 256 := b.isLt
  have htag : b.toNat / 64 = 0 ∨ b.toNat / 32 = 2 ∨ b.toNat / 32 = 3 ∨ b.toNat / 64 = 2 ∨ b.toNat / 32 = 6 ∨
      b.toNat / 16 = 14 ∨ b.toNat / 16 = 15 := by omega
  refine htag.imp ?_ (.imp ?_ (.imp ?_ (.imp ?_ (.imp ?_ (.imp ?_ ?_))))) <;> intro h <;> refine ⟨?_, h⟩
  · exact eq_join_of_toNat_div tagIndex 6 rfl h ▸ dispatchTag_index _
  · exact eq_join_of_toNat_div tagRunS 5 rfl h ▸ dispatchTag_runS _
  · exact eq_join_of_toNat_div tagRunL 5 rfl h ▸ dispatchTag_runL _
  · exact eq_join_of_toNat_div tagDiffS 6 rfl h ▸ dispatchTag_diffS _
  · exact eq_join_of_toNat_div tagDiffM 5 rfl h ▸ dispatchTag_diffM _
  · exact eq_join_of_toNat_div tagDiffL 4 rfl h ▸ dispatchTag_diffL _
  · exact eq_join_of_toNat_div tagOverwrite 4 rfl h ▸ dispatchTag_overwrite _

/-- Settles O5: a byte passes one test of R111, and the seven exclude each other. -/
theorem dispatchOfTheFirstByte : Obligations.DispatchOfTheFirstByte := by
  intro b
  rcases dispatchTag_cases b with ⟨hk, hv⟩ | ⟨hk, hv⟩ | ⟨hk, hv⟩ | ⟨hk, hv⟩ | ⟨hk, hv⟩ | ⟨hk, hv⟩ | ⟨hk, hv⟩ <;>
    simp only [hk, reduceCtorEq, true_iff, false_iff, ne_eq, not_false_eq_true, and_true] <;> omega

/-! ### The operands -/

/-- A field as a quotient and a remainder of the bits it lies in (R7). -/
theorem field_eq_of_toNat {n lo w k : Nat} {v : BitVec n} (h : v.toNat / 2 ^ lo % 2 ^ w = k % 2 ^ w) :
    field v lo w = BitVec.ofNat w k :=
  BitVec.eq_of_toNat_eq (by rw [field_toNat, h, BitVec.toNat_ofNat])

theorem decodeChunk_of_index {b1 : Byte} (h : b1.toNat / 64 = 0) (rest : List Byte) :
    decodeChunk (b1 :: rest) = .ok (.index (BitVec.ofNat 6 (b1.toNat % 64))) rest := by
  obtain ⟨hkind, -⟩ := dispatchOfTheFirstByte b1
  have hi : field b1 0 6 = BitVec.ofNat 6 (b1.toNat % 64) := field_eq_of_toNat (by omega)
  simp only [decodeChunk, hkind.mpr h, hi]

theorem decodeChunk_of_runS {b1 : Byte} (h : b1.toNat / 32 = 2) (rest : List Byte) :
    decodeChunk (b1 :: rest) = .ok (.runS (BitVec.ofNat 5 (b1.toNat % 32))) rest := by
  obtain ⟨-, hkind, -⟩ := dispatchOfTheFirstByte b1
  have hn : field b1 0 5 = BitVec.ofNat 5 (b1.toNat % 32) := field_eq_of_toNat (by omega)
  simp only [decodeChunk, hkind.mpr h, hn]

/-- R47: the high part of the run stands in the first byte. -/
theorem decodeChunk_of_runL {b1 : Byte} (h : b1.toNat / 32 = 3) (b2 : Byte) (rest : List Byte) :
    decodeChunk (b1 :: b2 :: rest) = .ok (.runL (BitVec.ofNat 13 (b1.toNat % 32 * 256 + b2.toNat))) rest := by
  obtain ⟨-, -, hkind, -⟩ := dispatchOfTheFirstByte b1
  have hf : join 13 (field b1 0 5) b2 = BitVec.ofNat 13 (b1.toNat % 32 * 256 + b2.toNat) := by
    apply BitVec.eq_of_toNat_eq
    rw [join_toNat _ _ rfl, field_toNat, BitVec.toNat_ofNat]
    omega
  simp only [decodeChunk, hkind.mpr h, decodeRunL, hf]

theorem decodeChunk_of_diffS {b1 : Byte} (h : b1.toNat / 64 = 2) (rest : List Byte) :
    decodeChunk (b1 :: rest) =
      .ok (.diffS (BitVec.ofNat 2 (b1.toNat / 16 % 4)) (BitVec.ofNat 2 (b1.toNat / 4 % 4)) (BitVec.ofNat 2 (b1.toNat % 4))) rest := by
  obtain ⟨-, -, -, hkind, -⟩ := dispatchOfTheFirstByte b1
  have hr : field b1 4 2 = BitVec.ofNat 2 (b1.toNat / 16 % 4) := field_eq_of_toNat (by omega)
  have hg : field b1 2 2 = BitVec.ofNat 2 (b1.toNat / 4 % 4) := field_eq_of_toNat (by omega)
  have hb : field b1 0 2 = BitVec.ofNat 2 (b1.toNat % 4) := field_eq_of_toNat (by omega)
  simp only [decodeChunk, hkind.mpr h, hr, hg, hb]

theorem decodeChunk_of_diffM {b1 : Byte} (h : b1.toNat / 32 = 6) (b2 : Byte) (rest : List Byte) :
    decodeChunk (b1 :: b2 :: rest) =
      .ok (.diffM (BitVec.ofNat 5 (b1.toNat % 32)) (BitVec.ofNat 4 (b2.toNat / 16)) (BitVec.ofNat 4 (b2.toNat % 16))) rest := by
  obtain ⟨-, -, -, -, hkind, -⟩ := dispatchOfTheFirstByte b1
  have hr : field b1 0 5 = BitVec.ofNat 5 (b1.toNat % 32) := field_eq_of_toNat (by omega)
  have hg : field b2 4 4 = BitVec.ofNat 4 (b2.toNat / 16) := field_eq_of_toNat (by omega)
  have hb : field b2 0 4 = BitVec.ofNat 4 (b2.toNat % 16) := field_eq_of_toNat (by omega)
  simp only [decodeChunk, hkind.mpr h, decodeDiffM, hr, hg, hb]

/-- `F` of R73 as a number. -/
theorem diffLBits_toNat (b1 b2 b3 : Byte) :
    (diffLBits b1 b2 b3).toNat = b1.toNat % 16 * 65536 + b2.toNat * 256 + b3.toNat := by
  rw [diffLBits, join_toNat _ _ rfl, join_toNat _ _ rfl, field_toNat]
  omega

theorem decodeChunk_of_diffL {b1 : Byte} (h : b1.toNat / 16 = 14) (b2 b3 : Byte) (rest : List Byte) {F : Nat}
    (hF : F = b1.toNat % 16 * 65536 + b2.toNat * 256 + b3.toNat) :
    decodeChunk (b1 :: b2 :: b3 :: rest) =
      .ok (.diffL (BitVec.ofNat 5 (F / 32768)) (BitVec.ofNat 5 (F / 1024 % 32)) (BitVec.ofNat 5 (F / 32 % 32))
        (BitVec.ofNat 5 (F % 32))) rest := by
  obtain ⟨-, -, -, -, -, hkind, -⟩ := dispatchOfTheFirstByte b1
  have hbits : (diffLBits b1 b2 b3).toNat = F := (diffLBits_toNat b1 b2 b3).trans hF.symm
  have hr : field (diffLBits b1 b2 b3) 15 5 = BitVec.ofNat 5 (F / 32768) := field_eq_of_toNat (by omega)
  have hg : field (diffLBits b1 b2 b3) 10 5 = BitVec.ofNat 5 (F / 1024 % 32) := field_eq_of_toNat (by omega)
  have hb : field (diffLBits b1 b2 b3) 5 5 = BitVec.ofNat 5 (F / 32 % 32) := field_eq_of_toNat (by omega)
  have ha : field (diffLBits b1 b2 b3) 0 5 = BitVec.ofNat 5 (F % 32) := field_eq_of_toNat (by omega)
  simp only [decodeChunk, hkind.mpr h, decodeDiffL, hr, hg, hb, ha]

theorem flags_eq_decide (b1 : Byte) :
    flagR b1 = decide (b1.toNat / 8 % 2 = 1) ∧ flagG b1 = decide (b1.toNat / 4 % 2 = 1) ∧
      flagB b1 = decide (b1.toNat / 2 % 2 = 1) ∧ flagA b1 = decide (b1.toNat % 2 = 1) := by
  have hbit (k : Nat) : b1.getLsbD k = decide (b1.toNat / 2 ^ k % 2 = 1) := Nat.testBit_eq_decide_div_mod_eq
  exact ⟨hbit 3, hbit 2, hbit 1, (hbit 0).trans (by rw [Nat.pow_zero, Nat.div_one])⟩

/-- A literal stands for each set flag, so the bytes are the encoding of those literals (R74). -/
theorem decodeChunk_of_overwrite {b1 : Byte} {r g b a : Option Byte} (h : b1.toNat / 16 = 15)
    (hr : flagR b1 = r.isSome) (hg : flagG b1 = g.isSome) (hb : flagB b1 = b.isSome) (ha : flagA b1 = a.isSome)
    (rest : List Byte) :
    decodeChunk (b1 :: (r.toList ++ g.toList ++ b.toList ++ a.toList ++ rest)) = .ok (.overwrite r g b a) rest := by
  have htag : b1 = overwriteTag r g b a :=
    (eq_join_of_toNat_div tagOverwrite 4 rfl h).trans (overwriteTag_of_flags hr hg hb ha).symm
  rw [htag]
  exact decodeChunk_encode_overwrite r g b a rest

end Sys2Proof
end

section
/-!
PROOFS. The chunks as the decoder executes them (R112 to R118): what the bytes decode to, and the pixel it resolves to.
-/
namespace Sys2Proof.Machine

/-- A run chunk completes with RUN loaded and PREV repeated (R113, R114). -/
theorem startRun_result (run : BitVec 14) {s : State} (hroom : s.dec.ppos < s.dec.npix) :
    ∃ t, startRun run s = .next t ∧ PixelResult s.dec.prev run.toNat s t := by
  obtain ⟨t, hnext, hprev, hrun, hstored, hemitted, hppos, hphase⟩ :=
    resolvePixel_result s.dec.prev (s := s.setDec { s.dec with run := run }) hroom
  exact ⟨t, hnext, hprev, hrun, hstored, hemitted, hppos, hphase⟩

/-- ADD8 of a stored field with its bias taken off (R77, R101). -/
theorem add8_unbias_toNat (x : Byte) {w : Nat} (bias : Int) (v : BitVec w) :
    ((add8 x (unbias bias v)).toNat : Int) = ((x.toNat : Int) + ((v.toNat : Int) - bias)) % 256 := add8_toNat x _

/-- Settles O8: INDEX resolves to what it looks up. -/
theorem indexTakesTheCacheSlot : Obligations.IndexTakesTheCacheSlot :=
  ⟨fun _ rest h => decodeChunk_of_index h rest, fun i s hroom => resolvePixel_result (lookup s.dec.cache i) hroom⟩

/-- Settles O9: the payload fits RUN. -/
theorem shortRunRepeatsPrev : Obligations.ShortRunRepeatsPrev := by
  refine ⟨fun _ rest h => decodeChunk_of_runS h rest, fun n s hroom => ?_⟩
  have hload : (runLoadS n).toNat = n.toNat := by
    rw [runLoadS, BitVec.toNat_setWidth]
    omega
  exact hload ▸ startRun_result (runLoadS n) hroom

/-- Settles O10: the longest run loaded, 8223, fits RUN. -/
theorem longRunRepeatsPrev : Obligations.LongRunRepeatsPrev := by
  refine ⟨fun _ b2 rest h => decodeChunk_of_runL h b2 rest, fun f s hroom => ?_⟩
  have hload : (runLoadL f).toNat = f.toNat + 32 := by
    rw [runLoadL]
    bv_omega
  exact hload ▸ startRun_result (runLoadL f) hroom

/-- Settles O11: each colour channel by ADD8, alpha by a delta of 0. -/
theorem smallDiffAddsToPrev : Obligations.SmallDiffAddsToPrev := by
  refine ⟨fun _ rest h => decodeChunk_of_diffS h rest, fun r g b s hroom => ?_⟩
  obtain ⟨t, hnext, hresult⟩ := resolvePixel_result (addDelta s.dec.prev (deltaS r g b)) hroom
  exact ⟨t, _, hnext, hresult, add8_unbias_toNat _ _ r, add8_unbias_toNat _ _ g, add8_unbias_toNat _ _ b, add8_zero _⟩

/-- Settles O12: as O11, with the biases 16, 8 and 8. -/
theorem mediumDiffAddsToPrev : Obligations.MediumDiffAddsToPrev := by
  refine ⟨fun _ b2 rest h => decodeChunk_of_diffM h b2 rest, fun r g b s hroom => ?_⟩
  obtain ⟨t, hnext, hresult⟩ := resolvePixel_result (addDelta s.dec.prev (deltaM r g b)) hroom
  exact ⟨t, _, hnext, hresult, add8_unbias_toNat _ _ r, add8_unbias_toNat _ _ g, add8_unbias_toNat _ _ b, add8_zero _⟩

/-- Settles O13: all four channels by ADD8. -/
theorem largeDiffAddsToPrev : Obligations.LargeDiffAddsToPrev := by
  refine ⟨fun _ b2 b3 rest h _ hF => decodeChunk_of_diffL h b2 b3 rest hF, fun r g b a s hroom => ?_⟩
  obtain ⟨t, hnext, hresult⟩ := resolvePixel_result (addDelta s.dec.prev (deltaL r g b a)) hroom
  exact ⟨t, _, hnext, hresult, add8_unbias_toNat _ _ r, add8_unbias_toNat _ _ g, add8_unbias_toNat _ _ b,
    add8_unbias_toNat _ _ a⟩

/-- A literal replaces its channel, and without one the channel stays (R118). -/
theorem literal_getD (v : Option Byte) (x : Byte) : (∀ y, v = some y → v.getD x = y) ∧ (v = none → v.getD x = x) := by
  refine ⟨fun y h => ?_, fun h => ?_⟩
  · rw [h, Option.getD_some]
  · rw [h, Option.getD_none]

/-- Settles O14: the bytes are the encoding of the literals, and each channel is PREV's or its literal. -/
theorem overwriteReplacesFlaggedChannels : Obligations.OverwriteReplacesFlaggedChannels := by
  refine ⟨fun b1 r g b a rest h hr hg hb ha => ?_, fun r g b a s hroom => ?_⟩
  · obtain ⟨hflagR, hflagG, hflagB, hflagA⟩ := flags_eq_decide b1
    exact decodeChunk_of_overwrite h (hflagR.trans hr.symm) (hflagG.trans hg.symm) (hflagB.trans hb.symm) (hflagA.trans ha.symm) rest
  · obtain ⟨t, hnext, hresult⟩ := resolvePixel_result (overwritePixel s.dec.prev r g b a) hroom
    obtain ⟨hr, hr'⟩ := literal_getD r s.dec.prev.r
    obtain ⟨hg, hg'⟩ := literal_getD g s.dec.prev.g
    obtain ⟨hb, hb'⟩ := literal_getD b s.dec.prev.b
    obtain ⟨ha, ha'⟩ := literal_getD a s.dec.prev.a
    exact ⟨t, _, hnext, hresult, hr, hr', hg, hg', hb, hb', ha, ha'⟩

end Sys2Proof.Machine
end

section
/-!
PROOFS. The decoder's pixel steps on its turn (R109, R110, R125), and the turns that change nothing (R121, R128, R154, R164).
-/
namespace Sys2Proof.Machine

/-! ### Pixel steps of the decoder -/

/-- A pixel output in PIXELS: one pixel at the old PPOS, every other byte of DST kept, DONE exactly at NPIX (R109, R121). -/
theorem pixelOut_emits {s : State} (hp : s.dec.phase = .pixels) (px : Pixel) (ipos : Nat) (run : BitVec 14) (cache : Cache) :
    ((pixelOut px ipos run cache s).dec.phase = .done ↔ s.dec.ppos + 1 = s.dec.npix) ∧
      (pixelOut px ipos run cache s).dst.readPixel s.dec.ppos = some px ∧
      ∀ a, (a < pixelOffset s.dec.ppos ∨ pixelOffset s.dec.ppos + 4 ≤ a) →
        (pixelOut px ipos run cache s).dst.read a = s.dst.read a := by
  refine ⟨?_, Memory.readPixel_writePixel s.dst s.dec.ppos px, fun a => Memory.read_writePixel_outside s.dst s.dec.ppos a px⟩
  simp only [pixelOut, State.setDec_dec, phaseAfterPixel, hp]
  simp

theorem step_of_run {s : State} {l : List Action} (hag : s.agenda = .engine .dec :: l) (hp : s.dec.phase = .pixels)
    (hrun : s.dec.run ≠ 0#14) (hpxo : s.pxoAccepted = true) (hroom : s.dec.ppos < s.dec.npix) :
    step s = .next (pixelOut s.dec.prev s.dec.ipos (s.dec.run - 1#14) s.dec.cache (popAgenda s)) := by
  rw [step_of_engine hag, engineTurn, decTurn_of_run (s := popAgenda s) hp hrun hpxo]
  exact emitPixel_of_room hroom

/-- A chunk whose bytes are all there resolves to some pixel, which is emitted and stored. -/
theorem step_of_chunk {s : State} {l : List Action} {i : Instr} {rest : List Byte} (hag : s.agenda = .engine .dec :: l)
    (hp : s.dec.phase = .pixels) (hrun : s.dec.run = 0#14) (hpxo : s.pxoAccepted = true) (hroom : s.dec.ppos < s.dec.npix)
    (hd : decodeChunk (s.inp.drop s.dec.ipos) = .ok i rest) :
    ∃ px run, step s = .next (pixelOut px (s.dec.ipos + i.size) run (store s.dec.cache px) (popAgenda s)) := by
  obtain ⟨px, run, hexec, -⟩ := exec_chunk_resolves (decodeChunk_position hd)
    ((popAgenda s).setDec { s.dec with ipos := s.dec.ipos + i.size })
  refine ⟨px, run, ?_⟩
  rw [step_of_engine hag, engineTurn, decTurn_of_chunk (s := popAgenda s) hp hrun hpxo hd]
  exact hexec.trans (resolvePixel_of_room hroom)

/-- A chunk cut by the end of the stream: the error entry is taken with every byte read (R125). -/
theorem step_of_truncated {s : State} {l : List Action} (hag : s.agenda = .engine .dec :: l) (hp : s.dec.phase = .pixels)
    (hrun : s.dec.run = 0#14) (hended : s.inpEnded = true) (hd : decodeChunk (s.inp.drop s.dec.ipos) = .reject .endOfStream) :
    step s = .next (raiseDec .truncated ((popAgenda s).setDec { s.dec with ipos := max s.dec.ipos s.inp.length })) := by
  have hread := readChunk_of_endOfStream (s := popAgenda s) hd
  rw [popAgenda_inpEnded, if_pos hended] at hread
  rw [step_of_engine hag, engineTurn, decTurn_of_pixels (s := popAgenda s) hp hrun, chunkTurn, hread]
  rfl

/-- Settles O22: the continuation emits PREV and takes 1 off RUN. -/
theorem runContinuation : Obligations.RunContinuation := by
  intro s l hag hp hrun hpxo hroom
  obtain ⟨-, hemitted, hframe⟩ := pixelOut_emits (s := popAgenda s) hp s.dec.prev s.dec.ipos (s.dec.run - 1#14) s.dec.cache
  have hless : (s.dec.run - 1#14).toNat + 1 = s.dec.run.toNat := by bv_omega
  refine ⟨_, step_of_run hag hp hrun hpxo hroom, ⟨rfl, rfl, rfl, rfl, rfl, rfl, rfl, rfl, rfl, rfl⟩, ?_, hless, hemitted, hframe⟩
  simp only [pixelOut, phaseAfterPixel, State.setDec_dec, popAgenda_dec, hp]

/-- Settles O23: IPOS, not past the stream, is taken to its end. -/
theorem truncatedChunkChangesNothingElse : Obligations.TruncatedChunkChangesNothingElse := by
  intro s l hag hp hrun hended hle hd
  rw [step_of_truncated hag hp hrun hended hd, Nat.max_eq_right hle]
  rfl

/-- With PXO accepted and the end of the stream signalled, a pixel step emits a pixel or finds the stream cut (R188). -/
theorem pixelStep_cases {s : State} {l : List Action} (hag : s.agenda = .engine .dec :: l) (hp : s.dec.phase = .pixels)
    (hroom : s.dec.ppos < s.dec.npix) (hpxo : s.pxoAccepted = true) (hended : s.inpEnded = true) :
    (∃ px ipos run cache, step s = .next (pixelOut px ipos run cache (popAgenda s))) ∨
      step s = .next (raiseDec .truncated ((popAgenda s).setDec { s.dec with ipos := max s.dec.ipos s.inp.length })) := by
  by_cases hrun : s.dec.run = 0#14
  · rcases decodeChunk_ok_or_endOfStream (s.inp.drop s.dec.ipos) with ⟨i, rest, hd⟩ | hd
    · obtain ⟨px, run, hstep⟩ := step_of_chunk hag hp hrun hpxo hroom hd
      exact .inl ⟨_, _, _, _, hstep⟩
    · exact .inr (step_of_truncated hag hp hrun hended hd)
  · exact .inl ⟨_, _, _, _, step_of_run hag hp hrun hpxo hroom⟩

/-- Settles O53: the two outcomes of `pixelStep_cases`. -/
theorem decoderPixelStepProgresses : Obligations.DecoderPixelStepProgresses := by
  intro s l hag hp hroom hpxo hended
  rcases pixelStep_cases hag hp hroom hpxo hended with ⟨px, ipos, run, cache, hstep⟩ | hstep
  · obtain ⟨hdone, hemitted, hframe⟩ := pixelOut_emits (s := popAgenda s) hp px ipos run cache
    exact ⟨_, hstep, .inr ⟨rfl, rfl, hdone, hemitted, hframe⟩⟩
  · exact ⟨_, hstep, .inl ⟨rfl, rfl, rfl, rfl⟩⟩

/-! ### Turns that change nothing -/

/-- A turn that waits changes nothing but the agenda, whose entry is used. -/
theorem step_of_waits {s : State} {e : Engine} {l : List Action} (hag : s.agenda = .engine e :: l)
    (hturn : engineTurn e (popAgenda s) = .waits) : step s = .next (popAgenda s) := by
  rw [step_of_engine hag, hturn]
  rfl

/-- An encoder that is not busy has no move. -/
theorem encTurn_of_not_busy {s : State} (hrest : s.enc.phase.busy = false) : encTurn s = .waits := by
  rcases (Phase.busy_eq_false_iff _).mp hrest with hp | hp | hp <;> simp only [encTurn, hp]

/-- No step is enabled in a phase that is not busy (R32). -/
theorem engineTurn_of_not_busy {s : State} {e : Engine} (h : (s.phaseOf e).busy = false) : engineTurn e s = .waits := by
  cases e with
  | dec => exact decTurn_of_not_busy h
  | enc => exact encTurn_of_not_busy h

/-- Settles O27: the resting phases are those that are not busy. -/
theorem restingEnginesDoNothing : Obligations.RestingEnginesDoNothing := fun s _ _ hag hrest =>
  step_of_waits hag (engineTurn_of_not_busy (s := popAgenda s) ((Phase.busy_eq_false_iff _).mpr hrest))

/-- A chunk still incomplete is waited for (R128). -/
theorem decTurn_waits_of_incomplete {s : State} (hp : s.dec.phase = .pixels) (hrun : s.dec.run = 0#14) (hopen : s.inpEnded = false)
    (hd : decodeChunk (s.inp.drop s.dec.ipos) = .reject .endOfStream) : decTurn s = .waits := by
  have hread := readChunk_of_endOfStream hd
  rw [hopen] at hread
  rw [decTurn_of_pixels hp hrun, chunkTurn, hread]
  rfl

/-- A run waits while PXO stalls (R128). -/
theorem decTurn_waits_of_run {s : State} (hp : s.dec.phase = .pixels) (hrun : s.dec.run ≠ 0#14) (hpxo : s.pxoAccepted = false) :
    decTurn s = .waits := by
  simp [decTurn, hp, pixelTurn, (runNonzero_iff _).mpr hrun, hpxo]

/-- A complete chunk waits while PXO stalls (R128). -/
theorem decTurn_waits_of_chunk {s : State} {i : Instr} {rest : List Byte} (hp : s.dec.phase = .pixels) (hrun : s.dec.run = 0#14)
    (hpxo : s.pxoAccepted = false) (hd : decodeChunk (s.inp.drop s.dec.ipos) = .ok i rest) : decTurn s = .waits := by
  simp [decTurn_of_pixels hp hrun, chunkTurn, readChunk_of_decodeChunk hd, hpxo]

theorem encTurn_of_pixels {s : State} (hp : s.enc.phase = .pixels) : encTurn s = sourceTurn s := by
  simp only [encTurn, hp]

/-- No pixel offered (R180). -/
theorem sourceTurn_waits_of_none {s : State} (h : s.src.length ≤ s.enc.ppos) : sourceTurn s = .waits := by
  simp only [sourceTurn, List.getElem?_eq_none h]

/-- While BO stalls, a step with bytes to emit waits (R154). -/
theorem sourceTurn_waits_of_bytes {s : State} {p : Pixel} (hbo : s.boAccepted = false) (hget : s.src[s.enc.ppos]? = some p)
    (hchunks : pixelChunks s.enc p ≠ []) : sourceTurn s = .waits := by
  simp [sourceTurn, hget, hbo, emitsNothing, hchunks]

/-- Header and trailer wait while BO stalls (R154). -/
theorem encTurn_waits_of_header_or_trailer {s : State} (hbo : s.boAccepted = false)
    (hp : s.enc.phase = .header ∨ s.enc.phase = .trailer) : encTurn s = .waits := by
  rcases hp with hp | hp <;> simp [encTurn, hp, hbo]

/-- Settles O26: each wait by the equation of its turn. -/
theorem waitsChangeNothing : Obligations.WaitsChangeNothing := by
  refine ⟨fun s l hag hp hrun hopen hd => step_of_waits hag ?_, fun s l hag hp hrun hpxo => step_of_waits hag ?_,
    fun s l i rest hag hp hrun hpxo hd => step_of_waits hag ?_, fun s l hag hp hnone => step_of_waits hag ?_,
    fun s l hag hbo hp => step_of_waits hag ?_, fun s l p hag hbo hp hget hchunks => step_of_waits hag ?_⟩
  · exact decTurn_waits_of_incomplete (s := popAgenda s) hp hrun hopen hd
  · exact decTurn_waits_of_run (s := popAgenda s) hp hrun hpxo
  · exact decTurn_waits_of_chunk (s := popAgenda s) hp hrun hpxo hd
  · exact (encTurn_of_pixels (s := popAgenda s) hp).trans (sourceTurn_waits_of_none hnone)
  · exact encTurn_waits_of_header_or_trailer (s := popAgenda s) hbo hp
  · exact (encTurn_of_pixels (s := popAgenda s) hp).trans (sourceTurn_waits_of_bytes hbo hget hchunks)

end Sys2Proof.Machine
end

section
/-!
PROOFS. The encoder's steps on its turn (R131 to R137, R145, R146, R148).
-/
namespace Sys2Proof.Machine

/-! ### The trailer step (R148) -/

/-- The state the trailer step leaves. -/
def afterTrailer (s : State) : State :=
  (emitBytes (encode .trailer) s).setEnc { (emitBytes (encode .trailer) s).enc with phase := .done }

theorem exec_trailer (s : State) : exec .trailer s = .next (afterTrailer s) := rfl

theorem afterTrailer_enc (s : State) : (afterTrailer s).enc = { s.enc with opos := s.enc.opos + 4, phase := .done } := rfl

theorem afterTrailer_out (s : State) : (afterTrailer s).out = s.out.writeBytes s.enc.opos (List.replicate 4 0#8) := rfl

/-- Settles O20: the four bytes written at OPOS are 0, and a write changes no other byte. -/
theorem trailerEndsTheStream : Obligations.TrailerEndsTheStream := by
  intro s
  refine ⟨_, exec_trailer s, onlyEncoder_setEnc_emitBytes _ _ s, afterTrailer_enc s, fun a hlo hhi => ?_, fun a ha => ?_⟩
  · obtain ⟨i, rfl⟩ := Nat.exists_eq_add_of_le hlo
    have hi : i < 4 := by omega
    rw [afterTrailer_out, Memory.read_writeBytes_inside _ _ _ _ (by rwa [List.length_replicate]), List.getElem?_replicate_of_lt hi]
  · rw [afterTrailer_out]
    exact Memory.read_writeBytes_outside _ _ _ _ ha

/-! ### The pixel step on the encoder's turn (R131) -/

theorem afterPixel_onlyEncoder (p : Pixel) (s : State) : OnlyEncoder s (afterPixel p s) := onlyEncoder_emitBytes_setEnc _ _ s

theorem afterPixel_out (p : Pixel) (s : State) :
    (afterPixel p s).out = s.out.writeBytes s.enc.opos (encodeAll (pixelChunks s.enc p)) := rfl

/-- The pixel step completes where BO is accepted or nothing is emitted (R154). -/
theorem step_of_source {s : State} {p : Pixel} {l : List Action} (hag : s.agenda = .engine .enc :: l) (hp : s.enc.phase = .pixels)
    (hbo : s.boAccepted = true ∨ pixelChunks s.enc p = []) (hroom : s.enc.ppos < s.enc.npix)
    (hget : s.src[s.enc.ppos]? = some p) : step s = .next (afterPixel p (popAgenda s)) := by
  have hmoves : ((popAgenda s).boAccepted || emitsNothing (popAgenda s).enc p) = true := by
    rw [Bool.or_eq_true, emitsNothing, List.isEmpty_iff]
    exact hbo
  have hturn : encTurn (popAgenda s) = .settled (encodePixel p (popAgenda s)) := by
    rw [encTurn_of_pixels (s := popAgenda s) hp]
    simp only [sourceTurn, popAgenda_src, popAgenda_enc, hget] at hmoves ⊢
    exact if_pos hmoves
  rw [step_of_engine hag, engineTurn, hturn]
  exact encodePixel_of_room (s := popAgenda s) hroom

theorem eqPrev_self (e : EncCtx) : eqPrev e e.prev = true := (eqPrev_iff e e.prev).mpr rfl

/-- An equal pixel flushes exactly where it fills the run or is the last (R134). -/
theorem flushes_iff_of_eqPrev {e : EncCtx} {p : Pixel} (heq : eqPrev e p = true) (hrun : e.run.toNat ≤ 8223) :
    flushes e p = true ↔ e.run.toNat + 1 = 8224 ∨ e.ppos + 1 = e.npix := by
  have hadd := run_add_one_toNat hrun
  have hfull : e.run + 1#14 = runMax ↔ e.run.toNat + 1 = 8224 := by
    rw [← BitVec.toNat_inj, hadd]
    rfl
  rw [flushes_of_eqPrev heq hrun, Bool.or_eq_true, runFull, beq_iff_eq, hfull, isLast, beq_iff_eq]

/-- The encoder's registers after a pixel equal to PREV. -/
theorem encNext_prev (e : EncCtx) :
    encNext e e.prev =
      { e with
        run := if flushes e e.prev then 0#14 else e.run + 1#14
        opos := e.opos + (encodeAll (pixelChunks e e.prev)).length
        ppos := e.ppos + 1
        phase := phaseAfterSource e.npix (e.ppos + 1) e.phase } := by
  simp only [encNext, encAdvance, eqPrev_self, runCounted, if_true]

/-- Settles O29: nothing is emitted, so the step does not wait for BO. -/
theorem equalPixelOnlyCounts : Obligations.EqualPixelOnlyCounts := by
  intro s l hag hp hmore hget hrun
  have hbound : s.enc.run.toNat ≤ 8223 := by omega
  have hfl : flushes s.enc s.enc.prev = false := by
    rw [Bool.eq_false_iff, ne_eq, flushes_iff_of_eqPrev (eqPrev_self s.enc) hbound]
    omega
  have hnone := pixelChunks_eq_nil (eqPrev_self s.enc) hfl
  have hphase : phaseAfterSource s.enc.npix (s.enc.ppos + 1) s.enc.phase = s.enc.phase := if_neg hmore.ne
  have henc : (afterPixel s.enc.prev (popAgenda s)).enc = { s.enc with run := s.enc.run + 1#14, ppos := s.enc.ppos + 1 } := by
    rw [afterPixel_enc, popAgenda_enc, encNext_prev, hnone, hfl, hphase]
    rfl
  refine ⟨_, step_of_source hag hp (.inr hnone) (by omega) hget, afterPixel_onlyEncoder _ (popAgenda s), ?_, ?_, ?_⟩
  · rw [afterPixel_out, popAgenda_enc, hnone]
    rfl
  · rw [henc]
  · rw [henc]
    exact run_add_one_toNat hbound

theorem encodeAll_singleton (i : Instr) : encodeAll [i] = encode i := List.flatMap_singleton encode i

/-- Settles O30: the run's chunk, of one pixel more than RUN held, is all that is emitted. -/
theorem fullOrLastRunIsFlushed : Obligations.FullOrLastRunIsFlushed := by
  intro s l hag hp hbo hroom hget hrun hends
  have hfl : flushes s.enc s.enc.prev = true := (flushes_iff_of_eqPrev (eqPrev_self s.enc) (by omega)).mpr hends
  have hchunks : encodeAll (pixelChunks s.enc s.enc.prev) = encode (flushChunk (s.enc.run + 1#14)) := by
    rw [pixelChunks_of_flushes (eqPrev_self s.enc) hfl, encodeAll_singleton]
  refine ⟨_, step_of_source hag hp (.inl hbo) hroom hget, afterPixel_onlyEncoder _ (popAgenda s), ?_, ?_⟩
  · rw [afterPixel_out, popAgenda_enc, hchunks]
    rfl
  · rw [afterPixel_enc, popAgenda_enc, encNext_prev, hchunks, hfl, hp]
    rfl

/-- The bytes for a differing pixel: the pending run's chunk, if there is one, then the selected chunk (R137, R138). -/
theorem encodeAll_pixelChunks_of_ne {e : EncCtx} {p : Pixel} (hne : eqPrev e p = false) :
    encodeAll (pixelChunks e p) =
      (if e.run = 0#14 then [] else encode (flushChunk e.run)) ++ encode (selectChunk e.cache e.prev p) := by
  rw [pixelChunks_of_not_eqPrev hne, encodeAll_append, encodeAll_singleton]
  split
  · rfl
  · rw [encodeAll_singleton]

/-- Settles O31: the pixel is stored in its slot, and no run is left pending. -/
theorem differingPixelIsEmitted : Obligations.DifferingPixelIsEmitted := by
  intro s l p hag hp hbo hroom hget hdiffers
  have hne : eqPrev s.enc p = false := by rwa [Bool.eq_false_iff, ne_eq, eqPrev_iff]
  have hcache := encNext_cache_of_not_eqPrev hne
  have henc : (afterPixel p (popAgenda s)).enc = encNext s.enc p := afterPixel_enc p (popAgenda s)
  refine ⟨_, _, step_of_source hag hp (.inl hbo) hroom hget, afterPixel_onlyEncoder _ (popAgenda s),
    encodeAll_pixelChunks_of_ne hne, rfl, ?_, ?_, fun j hj => ?_⟩
  · rw [henc, ← encNext_run_of_not_eqPrev hne, ← hp]
    rfl
  · rw [henc, hcache, lookup_store_same]
  · rw [henc, hcache, lookup_store_other _ _ _ hj]

end Sys2Proof.Machine
end

section
/-!
PROOFS. The bytes of the chunks the encoder emits (R135, R136, R138, R140 to R144): stored fields as sums of powers of two.
-/
namespace Sys2Proof.Machine

/-! ### Bytes as numbers -/

theorem byte_eq_ofNat {b : Byte} {k : Nat} (h : b.toNat = k) : b = BitVec.ofNat 8 k := by
  rw [← h, BitVec.ofNat_toNat, BitVec.setWidth_eq]

theorem byte_eq_ofInt {b : Byte} {k : Int} (h : (b.toNat : Int) = k) : b = BitVec.ofInt 8 k := by
  rw [← h, BitVec.ofInt_natCast, BitVec.ofNat_toNat, BitVec.setWidth_eq]

/-! ### A flushed run (R135, R136) -/

theorem encode_flushChunk_short {run : BitVec 14} (hlo : 1 ≤ run.toNat) (hhi : run.toNat ≤ 32) :
    encode (flushChunk run) = [BitVec.ofNat 8 (0x40 + (run.toNat - 1))] := by
  have hshort : run ≤ runShortMax := hhi
  have htag : tagRunS.toNat = 2 := rfl
  have hfield : ((run - 1#14).setWidth 5).toNat = run.toNat - 1 := by bv_omega
  have hbyte : (join 8 tagRunS ((run - 1#14).setWidth 5)).toNat = 0x40 + (run.toNat - 1) := by
    rw [join_toNat _ _ rfl, htag, hfield]
    omega
  rw [flushChunk, if_pos hshort, encode, byte_eq_ofNat hbyte]

/-- R47: the high part of the field first. -/
theorem encode_flushChunk_long {run : BitVec 14} (hlo : 33 ≤ run.toNat) (hhi : run.toNat ≤ 8224) :
    encode (flushChunk run) =
      [BitVec.ofNat 8 (0x60 + (run.toNat - 33) / 256), BitVec.ofNat 8 ((run.toNat - 33) % 256)] := by
  have hlong : ¬run ≤ runShortMax := fun h => absurd (hlo.trans h) (by decide)
  have htag : tagRunL.toNat = 3 := rfl
  have hfield : ((run - 33#14).setWidth 13).toNat = run.toNat - 33 := by bv_omega
  have hhigh : (join 8 tagRunL (field ((run - 33#14).setWidth 13) 8 5)).toNat = 0x60 + (run.toNat - 33) / 256 := by
    rw [join_toNat _ _ rfl, field_toNat, htag, hfield]
    omega
  have hlow : (field ((run - 33#14).setWidth 13) 0 8).toNat = (run.toNat - 33) % 256 := by
    rw [field_toNat, hfield]
    omega
  rw [flushChunk, if_neg hlong, encode, byte_eq_ofNat hhigh, byte_eq_ofNat hlow]

/-- Settles O32. -/
theorem runChunkBytes : Obligations.RunChunkBytes :=
  ⟨fun _ => encode_flushChunk_short, fun _ => encode_flushChunk_long⟩

/-! ### The chunk of a differing pixel (R140 to R144) -/

/-- R140: the low six bits of the hash. -/
theorem encode_indexChunk (p : Pixel) : encode (indexChunk p) = [(p.r ^^^ p.g ^^^ p.b ^^^ p.a) &&& 0x3F#8] := by
  have htag : tagIndex.toNat = 0 := rfl
  have hmask : ((p.r ^^^ p.g ^^^ p.b ^^^ p.a) &&& 0x3F#8).toNat = (pixelHash p).toNat % 64 :=
    (BitVec.toNat_and ..).trans (Nat.and_two_pow_sub_one_eq_mod _ 6)
  have hbyte : join 8 tagIndex (slot p) = (p.r ^^^ p.g ^^^ p.b ^^^ p.a) &&& 0x3F#8 := by
    apply BitVec.eq_of_toNat_eq
    rw [join_toNat _ _ rfl, htag, slot_toNat, hmask, Nat.zero_mul, Nat.zero_add]
  rw [indexChunk, encode, hbyte]

/-- R141. -/
theorem encode_diffSChunk {d : Delta} (h : fitS d = true) :
    encode (diffSChunk d) = [BitVec.ofInt 8 (0x80 + (d.vr + 2) * 16 + (d.vg + 2) * 4 + (d.vb + 2))] := by
  obtain ⟨-, -, ⟨hr, hr'⟩, ⟨hg, hg'⟩, hb, hb'⟩ := (fitS_iff d).mp h
  have htag : tagDiffS.toNat = 2 := rfl
  have hfr := rebias_toNat 2 2 d.vr (by omega) (by omega)
  have hfg := rebias_toNat 2 2 d.vg (by omega) (by omega)
  have hfb := rebias_toNat 2 2 d.vb (by omega) (by omega)
  rw [diffSChunk, encode, biasS]
  refine congrArg ([·]) (byte_eq_ofInt ?_)
  rw [join_toNat _ _ rfl, join_toNat _ _ rfl, join_toNat _ _ rfl, htag]
  omega

/-- R142. -/
theorem encode_diffMChunk {d : Delta} (h : fitM d = true) :
    encode (diffMChunk d) = [BitVec.ofInt 8 (0xC0 + (d.vr + 16)), BitVec.ofInt 8 ((d.vg + 8) * 16 + (d.vb + 8))] := by
  obtain ⟨-, -, ⟨hr, hr'⟩, ⟨hg, hg'⟩, hb, hb'⟩ := (fitM_iff d).mp h
  have htag : tagDiffM.toNat = 6 := rfl
  have hfr := rebias_toNat 5 16 d.vr (by omega) (by omega)
  have hfg := rebias_toNat 4 8 d.vg (by omega) (by omega)
  have hfb := rebias_toNat 4 8 d.vb (by omega) (by omega)
  rw [diffMChunk, encode, biasM, biasMgb]
  refine congrArg₂ ([·, ·]) (byte_eq_ofInt ?_) (byte_eq_ofInt ?_)
  · rw [join_toNat _ _ rfl, htag]
    omega
  · rw [join_toNat _ _ rfl]
    omega

theorem diffLJoin_toNat (r g b a : BitVec 5) :
    (diffLJoin r g b a).toNat = r.toNat * 2 ^ 15 + g.toNat * 2 ^ 10 + b.toNat * 2 ^ 5 + a.toNat := by
  rw [diffLJoin, join_toNat _ _ rfl, join_toNat _ _ rfl, join_toNat _ _ rfl]
  omega

/-- The three bytes of a DIFF_L chunk, from its 20-bit value `F` (R73). -/
theorem encode_diffL_toNat {r g b a : BitVec 5} {F : Int} (hF : ((diffLJoin r g b a).toNat : Int) = F) :
    encode (.diffL r g b a) = [BitVec.ofInt 8 (0xE0 + F / 65536), BitVec.ofInt 8 (F / 256 % 256), BitVec.ofInt 8 (F % 256)] := by
  have htag : tagDiffL.toNat = 14 := rfl
  have hlt := (diffLJoin r g b a).isLt
  have hhigh : ((join 8 tagDiffL (field (diffLJoin r g b a) 16 4)).toNat : Int) = 0xE0 + F / 65536 := by
    rw [join_toNat _ _ rfl, field_toNat, htag]
    omega
  have hmid : ((field (diffLJoin r g b a) 8 8).toNat : Int) = F / 256 % 256 := by
    rw [field_toNat]
    omega
  have hlow : ((field (diffLJoin r g b a) 0 8).toNat : Int) = F % 256 := by
    rw [field_toNat]
    omega
  rw [encode, byte_eq_ofInt hhigh, byte_eq_ofInt hmid, byte_eq_ofInt hlow]

/-- R143. -/
theorem encode_diffLChunk {d : Delta} (h : fitL d = true) {F : Int}
    (hF : F = (d.vr + 16) * 2 ^ 15 + (d.vg + 16) * 2 ^ 10 + (d.vb + 16) * 2 ^ 5 + (d.va + 16)) :
    encode (diffLChunk d) = [BitVec.ofInt 8 (0xE0 + F / 65536), BitVec.ofInt 8 (F / 256 % 256), BitVec.ofInt 8 (F % 256)] := by
  obtain ⟨⟨hr, hr'⟩, ⟨hg, hg'⟩, ⟨hb, hb'⟩, ha, ha'⟩ := (fitL_iff d).mp h
  have hfr := rebias_toNat 5 16 d.vr (by omega) (by omega)
  have hfg := rebias_toNat 5 16 d.vg (by omega) (by omega)
  have hfb := rebias_toNat 5 16 d.vb (by omega) (by omega)
  have hfa := rebias_toNat 5 16 d.va (by omega) (by omega)
  refine encode_diffL_toNat ?_
  rw [biasL, diffLJoin_toNat]
  omega

theorem overwriteTag_toNat (r g b a : Option Byte) :
    (overwriteTag r g b a).toNat = 0xF0 + r.isSome.toNat * 8 + g.isSome.toNat * 4 + b.isSome.toNat * 2 + a.isSome.toNat := by
  have htag : tagOverwrite.toNat = 15 := rfl
  rw [overwriteTag, join_toNat _ _ rfl, join_toNat _ _ rfl, join_toNat _ _ rfl, join_toNat _ _ rfl, htag]
  simp only [BitVec.toNat_ofBool]
  omega

theorem changedLiteral_toList (v : Int) (x : Byte) : (changedLiteral v x).toList = if v ≠ 0 then [x] else [] := by
  unfold changedLiteral
  split <;> rfl

/-- The place value `k` of a flag counts where the channel changed (R144). -/
theorem changedLiteral_isSome_mul (v : Int) (x : Byte) (k : Nat) :
    (changedLiteral v x).isSome.toNat * k = if v ≠ 0 then k else 0 := by
  unfold changedLiteral
  split
  · exact Nat.one_mul k
  · exact Nat.zero_mul k

/-- R144. -/
theorem encode_overwriteChunk (d : Delta) (p : Pixel) :
    encode (overwriteChunk d p) =
      BitVec.ofNat 8 (0xF0 + (if d.vr ≠ 0 then 8 else 0) + (if d.vg ≠ 0 then 4 else 0) + (if d.vb ≠ 0 then 2 else 0) +
          (if d.va ≠ 0 then 1 else 0)) ::
        ((if d.vr ≠ 0 then [p.r] else []) ++ (if d.vg ≠ 0 then [p.g] else []) ++ (if d.vb ≠ 0 then [p.b] else []) ++
          (if d.va ≠ 0 then [p.a] else [])) := by
  have hflags := overwriteTag_toNat (changedLiteral d.vr p.r) (changedLiteral d.vg p.g) (changedLiteral d.vb p.b)
    (changedLiteral d.va p.a)
  rw [← Nat.mul_one (changedLiteral d.va p.a).isSome.toNat] at hflags
  simp only [changedLiteral_isSome_mul] at hflags
  simp only [overwriteChunk, encode, byte_eq_ofNat hflags, changedLiteral_toList]

/-! ### The selection (R138) -/

section
variable {c : Cache} {prev p : Pixel}

theorem selectChunk_of_hit (h : lookup c (slot p) = p) : selectChunk c prev p = indexChunk p := if_pos ((hit_iff c p).mpr h)

theorem selectChunk_of_miss (h : lookup c (slot p) ≠ p) :
    selectChunk c prev p =
      if fitS (delta p prev) then diffSChunk (delta p prev)
      else if fitM (delta p prev) then diffMChunk (delta p prev)
      else if fitL (delta p prev) then diffLChunk (delta p prev)
      else overwriteChunk (delta p prev) p :=
  if_neg fun hc => h ((hit_iff c p).mp hc)

end

/-- With alpha unchanged, the ranges of FIT_S and FIT_M lie within those of FIT_L (R104). -/
theorem fitS_iff_ranges (d : Delta) :
    fitS d = true ↔ (-2 ≤ d.vr ∧ d.vr ≤ 1) ∧ (-2 ≤ d.vg ∧ d.vg ≤ 1) ∧ (-2 ≤ d.vb ∧ d.vb ≤ 1) ∧ d.va = 0 := by
  rw [fitS_iff, fitL_iff]
  omega

theorem fitM_iff_ranges (d : Delta) :
    fitM d = true ↔ (-16 ≤ d.vr ∧ d.vr ≤ 15) ∧ (-8 ≤ d.vg ∧ d.vg ≤ 7) ∧ (-8 ≤ d.vb ∧ d.vb ≤ 7) ∧ d.va = 0 := by
  rw [fitM_iff, fitL_iff]
  omega

/-- Settles O33: the first condition that holds picks the chunk, and its bytes are those of its format. -/
theorem selectionAndItsBytes : Obligations.SelectionAndItsBytes := by
  rintro c prev p _ _ _ _ - rfl rfl rfl rfl fitsS fitsM fitsL hS hM hL
  obtain rfl := propext (hS.trans (fitS_iff_ranges (delta p prev)).symm)
  obtain rfl := propext (hM.trans (fitM_iff_ranges (delta p prev)).symm)
  obtain rfl := propext (hL.trans (fitL_iff (delta p prev)).symm)
  refine ⟨fun h => ?_, fun h hs => ?_, fun h hs hm => ?_, fun h hm hl F hF => ?_, fun h hl => ?_⟩
  · rw [selectChunk_of_hit h, encode_indexChunk]
  · rw [selectChunk_of_miss h, if_pos hs]
    exact encode_diffSChunk hs
  · rw [selectChunk_of_miss h, if_neg hs, if_pos hm]
    exact encode_diffMChunk hm
  · have hs := mt fitM_of_fitS hm
    rw [selectChunk_of_miss h, if_neg hs, if_neg hm, if_pos hl]
    exact encode_diffLChunk hl hF
  · have hm := mt fitL_of_fitM hl
    have hs := mt fitM_of_fitS hm
    rw [selectChunk_of_miss h, if_neg hs, if_neg hm, if_neg hl]
    exact encode_overwriteChunk (delta p prev) p

end Sys2Proof.Machine
end

section
/-!
PROOFS. A whole encode pass (R129, R151) and the decode pass over its output (R153): the one ends by its steps, the other follows it
to its last pixel.
-/
namespace Sys2Proof.Machine

/-! ### The encode pass ends (R129, R187) -/

/-- The trailer step ends the pass (R148). -/
theorem EncodesOn.step_trailer {s : State} (h : EncodesOn [] s) : Machine.step s = .next (afterTrailer s) := by
  rw [step_of_encTurn_of_quiet h.quiet h.alone, encTurn_of_trailer_phase (h.trailer rfl) h.accepted]
  exact exec_trailer s

/-- By induction on the pixels still to encode: each takes one step, and the trailer the last. -/
theorem EncodesOn.ends {ps : List Pixel} {s : State} (h : EncodesOn ps s) :
    ∃ t, steps (ps.length + 1) s = .next t ∧ t.enc.phase = .done ∧ t.enc.npix = s.enc.npix := by
  induction ps generalizing s with
  | nil => exact ⟨_, steps_succ_of_step h.step_trailer 0, rfl, rfl⟩
  | cons p ps ih =>
    obtain ⟨t, ht, hphase, hnpix⟩ := ih h.next
    exact ⟨t, (steps_succ_of_step h.step _).trans ht, hphase, hnpix⟩

/-- START meets the encoder's half of the invariant, the image offered. -/
theorem EncodeStart.encInv {cfg : Cfg} {img : List Pixel} {s : State} (h : EncodeStart cfg img s) : EncInv s := by
  obtain ⟨hctx, hout, hsrc, hwhole, -⟩ := h
  constructor <;> simp [hctx, hout, hsrc, startedEnc, slotsHashed_zeroCache, Memory.dense_nil, hwhole]

theorem EncInv.of_steps {n : Nat} {s t : State} (hi : EncInv s) (h : steps n s = .next t) : EncInv t := by
  induction n generalizing s with
  | zero =>
    cases h
    exact hi
  | succ n ih =>
    rw [steps] at h
    split at h
    · exact ih (hi.of_step ‹_›) h
    · cases h
    · cases h

theorem EncodeStart.npix {cfg : Cfg} {img : List Pixel} {s : State} (h : EncodeStart cfg img s) : s.enc.npix = img.length := by
  rw [h.ctx, h.whole]
  rfl

theorem EncodeStart.ends {cfg : Cfg} {img : List Pixel} {s : State} (h : EncodeStart cfg img s) :
    ∃ t, steps (img.length + 2) s = .next t ∧ t.enc.phase = .done ∧ t.enc.npix = img.length := by
  obtain ⟨t, ht, hphase, hnpix⟩ := h.encodesOn.ends
  refine ⟨t, (steps_succ_of_step h.step _).trans ht, hphase, hnpix.trans ?_⟩
  rw [emitHeader_enc]
  exact h.npix

/-- At the end of an encode pass OUT holds exactly the bytes below OPOS (R41). -/
theorem EncodeStart.length_bytes_of_steps {cfg : Cfg} {img : List Pixel} {s t : State} (h : EncodeStart cfg img s)
    (ht : steps (img.length + 2) s = .next t) : t.out.bytes.length = t.enc.opos :=
  Memory.length_bytes_of_dense (h.encodesOn.dense_of_steps ((steps_succ_of_step h.step _).symm.trans ht))

/-- Settles O55: the registers and the size by the invariant of a pass that is done, the last bytes by what the pass has written. -/
theorem everyEncodePassEnds : Obligations.EveryEncodePassEnds := by
  intro cfg img s h
  obtain ⟨t, ht, hdone, hnpix⟩ := h.ends
  have hi : EncInv t := h.encInv.of_steps ht
  have hnoErr := hi.noErr (by rw [hdone]; exact Phase.noConfusion)
  obtain ⟨-, hppos⟩ := hi.flushed (.inr hdone)
  obtain ⟨hlo, hhi⟩ := hi.finalSize hdone
  have hlen := h.length_bytes_of_steps ht
  have hbytes := h.bytes_of_steps ht
  refine ⟨t, ht, hdone, hnoErr, hppos.trans hnpix, hlen, hlo, hnpix ▸ hhi, ?_⟩
  rw [← List.append_assoc] at hbytes
  have hfour : (encode .trailer).length = 4 := rfl
  rw [← hlen, hbytes, List.length_append, hfour, Nat.add_sub_cancel, List.drop_left]
  rfl

/-! ### The decode pass gives the image back (R153) -/

theorem Memory.readPixel_writePixel_other (m : Memory) {i j : Nat} (p : Pixel) (h : i ≠ j) :
    (m.writePixel j p).readPixel i = m.readPixel i := by
  have hread (k : Nat) (hk : k < 4) : (m.writePixel j p).read (pixelOffset i + k) = m.read (pixelOffset i + k) :=
    Memory.read_writePixel_outside m j _ p (by simp only [pixelOffset]; omega)
  have hread0 := hread 0 (by decide)
  rw [Nat.add_zero] at hread0
  simp only [Memory.readPixel, hread0, hread 1 (by decide), hread 2 (by decide), hread 3 (by decide)]

/-- A decode pass over `bytes` has read the header of `cfg` and given back the image `img` but for its last pixels `ps`. -/
structure GivenBack (bytes : List Byte) (cfg : Cfg) (img ps : List Pixel) (u : State) : Prop where
  inp : u.inp = bytes
  width : u.dec.hdrWidth = cfg.width
  height : u.dec.hdrHeight = cfg.height
  channels : u.dec.hdrChannels = cfg.channels
  colorspace : u.dec.hdrColorspace = cfg.colorspace
  rest : img.drop u.dec.ppos = ps
  pixels : ∀ i, i < u.dec.ppos → u.dst.readPixel i = img[i]?
  done : ps = [] → u.dec.phase = .done

/-- The step that emits the next pixel of the image gives it back. -/
theorem GivenBack.of_pixelOut {bytes : List Byte} {cfg : Cfg} {img : List Pixel} {p : Pixel} {ps : List Pixel} {u : State}
    (h : GivenBack bytes cfg img (p :: ps) u) (hcount : u.dec.ppos + (p :: ps).length = u.dec.npix) (ipos : Nat)
    (run : BitVec 14) (cache : Cache) : GivenBack bytes cfg img ps (pixelOut p ipos run cache u) := by
  obtain ⟨hinp, hwidth, hheight, hchannels, hcolorspace, hrest, hpixels, -⟩ := h
  refine ⟨hinp, hwidth, hheight, hchannels, hcolorspace, ?_, fun i hi => ?_, fun hnil => ?_⟩
  · change img.drop (u.dec.ppos + 1) = ps
    rw [← List.drop_drop, hrest]
    rfl
  · change (u.dst.writePixel u.dec.ppos p).readPixel i = _
    rcases Nat.lt_succ_iff_lt_or_eq.mp hi with hbefore | rfl
    · rw [Memory.readPixel_writePixel_other _ _ hbefore.ne, hpixels i hbefore]
    · rw [Memory.readPixel_writePixel, ← List.head?_drop, hrest]
      rfl
  · subst hnil
    exact if_pos hcount

/-- By induction on the pixels still to come: a decoder that follows the encoder gives each of them back. -/
theorem DecoderFollows.gives_back {bytes tail : List Byte} {cfg : Cfg} {img : List Pixel} {e : EncCtx} {ps : List Pixel}
    {u : State} (h : DecoderFollows bytes tail e ps u) (hstill : StillToEncode ps e) (hback : GivenBack bytes cfg img ps u) :
    ∃ e' td, steps ps.length u = .next td ∧ DecoderFollows bytes tail e' [] td ∧ GivenBack bytes cfg img [] td := by
  induction ps generalizing e u with
  | nil => exact ⟨e, u, rfl, h, hback⟩
  | cons p ps ih =>
    obtain ⟨ipos, run, cache, hstep, hnext⟩ := h.step hstill
    obtain ⟨e', td, hsteps, hend⟩ := ih hnext hstill.next (hback.of_pixelOut h.count ipos run cache)
    exact ⟨e', td, (steps_succ_of_step hstep _).trans hsteps, hend⟩

/-- The header step has read the header and gives back no pixel yet (R87). -/
theorem DecodeStart.givenBack {bytes : List Byte} {cfg : Cfg} {img : List Pixel} {u : State} (h : DecodeStart bytes u)
    (hnonempty : img ≠ []) :
    GivenBack bytes cfg img img
      (acceptHeader (loadHeader cfg.width cfg.height cfg.channels cfg.colorspace (u.setDec { u.dec with ipos := 14 }))) := by
  obtain ⟨⟨k, hctx⟩, hinp, -⟩ := h
  have hppos : u.dec.ppos = 0 := by rw [hctx]; rfl
  refine ⟨hinp, rfl, rfl, rfl, rfl, ?_, fun i hi => ?_, fun hnil => absurd hnil hnonempty⟩
  · change img.drop u.dec.ppos = img
    rw [hppos, List.drop_zero]
  · change i < u.dec.ppos at hi
    omega

/-- Settles O56: the decode pass follows the encode pass to the last pixel, and what it has not read is the trailer. -/
theorem decodingAnEncodedImageGivesItBack : Obligations.DecodingAnEncodedImageGivesItBack := by
  intro cfg img s u hs hlegal te hte hu
  have ⟨hw, hh, _⟩ := hlegal
  have hnonempty : img ≠ [] := List.length_pos_iff.mp (hs.whole ▸ pixelCount_pos hw hh)
  have hbytes := hs.bytes_of_steps hte
  have hlen := hs.length_bytes_of_steps hte
  have hstep : step u = _ := DecodeStart.step_of_header (hbytes ▸ hu) hlegal
  obtain ⟨e, td, hsteps, hfollows, hinp, hwidth, hheight, hchannels, hcolorspace, hrest, hpixels, hdone⟩ :=
    (hu.decoderFollows hs hbytes hlegal).gives_back hs.encodesOn.still (hu.givenBack hnonempty)
  have hunread := congrArg List.length hfollows.place.left_of_nil
  have hfour : (encode .trailer).length = 4 := rfl
  rw [List.length_drop, hinp, hlen, hfour] at hunread
  exact ⟨td, (steps_succ_of_step hstep _).trans hsteps, hdone rfl, hwidth, hheight, hchannels, hcolorspace, by omega,
    fun i hi => hpixels i (hi.trans_le (List.drop_eq_nil_iff.mp hrest))⟩

end Sys2Proof.Machine
end

section
/-!
PROOFS. An encode pass over one colour (R152): pixels equal to PREV make full runs and one run for the rest (R132 to R137).
-/
namespace Sys2Proof.Machine

/-- The chunks of a run of `m` pixels: full runs, and one for the rest (R133, R134). -/
def runChunks (m : Nat) : List Instr :=
  List.replicate (m / 8224) (flushChunk runMax) ++ if m % 8224 = 0 then [] else [flushChunk (BitVec.ofNat 14 (m % 8224))]

theorem runChunks_of_lt {m : Nat} (hlo : 0 < m) (hhi : m < 8224) : runChunks m = [flushChunk (BitVec.ofNat 14 m)] := by
  rw [runChunks, Nat.div_eq_of_lt hhi, Nat.mod_eq_of_lt hhi, if_neg hlo.ne']
  rfl

theorem runChunks_full_add (m : Nat) : runChunks (8224 + m) = flushChunk runMax :: runChunks m := by
  rw [runChunks, runChunks, Nat.add_div_left _ (by decide), Nat.add_mod_left, List.replicate_succ, List.cons_append]

/-- The bytes of the chunks of a run of `m` pixels (R135, R136). -/
theorem encodeAll_runChunks (m : Nat) :
    encodeAll (runChunks m) =
      (List.replicate (m / 8224) [0x7F#8, 0xFF#8]).flatten ++
        (if m % 8224 = 0 then []
          else if m % 8224 ≤ 32 then [BitVec.ofNat 8 (0x40 + (m % 8224 - 1))]
          else [BitVec.ofNat 8 (0x60 + (m % 8224 - 33) / 256), BitVec.ofNat 8 ((m % 8224 - 33) % 256)]) := by
  have hfull : encodeAll (List.replicate (m / 8224) (flushChunk runMax)) =
      (List.replicate (m / 8224) [0x7F#8, 0xFF#8]).flatten := by
    rw [encodeAll, List.flatMap_def, List.map_replicate]
    rfl
  rw [runChunks, encodeAll_append, hfull]
  congr 1
  have hlt : m % 8224 < 8224 := Nat.mod_lt _ (by decide)
  generalize m % 8224 = k at hlt ⊢
  have hk : (BitVec.ofNat 14 k).toNat = k := by
    rw [BitVec.toNat_ofNat]
    omega
  by_cases hzero : k = 0
  · rw [if_pos hzero, if_pos hzero]
    rfl
  · rw [if_neg hzero, if_neg hzero, encodeAll_singleton]
    by_cases hshort : k ≤ 32
    · rw [if_pos hshort, encode_flushChunk_short (by omega) (by omega), hk]
    · rw [if_neg hshort, encode_flushChunk_long (by omega) (by omega), hk]

/-- By induction on the pixels: pixels equal to PREV, counted with the run so far, make the chunks of one run. -/
theorem StillToEncode.chunksFor_replicate {n : Nat} {p : Pixel} {e : EncCtx} (h : StillToEncode (List.replicate n p) e)
    (hprev : e.prev = p) (hpending : n = 0 → e.run = 0#14) :
    chunksFor e (List.replicate n p) = runChunks (e.run.toNat + n) := by
  induction n generalizing e with
  | zero =>
    rw [hpending rfl]
    rfl
  | succ n ih =>
    have heq : eqPrev e p = true := (eqPrev_iff e p).mpr hprev.symm
    have hadd := run_add_one_toNat h.runBound
    have hflush := flushes_iff_of_eqPrev heq h.runBound
    have hlast : e.ppos + 1 = e.npix ↔ n = 0 := by
      have hcount := h.count
      rw [List.length_replicate] at hcount
      omega
    have hrest := ih (e := encNext e p) h.next rfl
    rw [hlast] at hflush
    rw [List.replicate_succ, chunksFor]
    cases hfl : flushes e p with
    | true =>
      have hrun : (encNext e p).run = 0#14 := encNext_run_of_flushes hfl
      rw [pixelChunks_of_flushes heq hfl, hrest fun _ => hrun, hrun, BitVec.toNat_zero, Nat.zero_add, List.singleton_append]
      by_cases hfull : e.run.toNat + 1 = 8224
      · have hmax : e.run + 1#14 = runMax := BitVec.eq_of_toNat_eq (hadd.trans hfull)
        rw [hmax, ← runChunks_full_add, ← hfull, Nat.add_assoc, Nat.add_comm 1 n]
      · have hn : n = 0 := (hflush.mp hfl).resolve_left hfull
        have hlt : e.run.toNat + 1 < 8224 := by have := h.runBound; omega
        rw [hn, Nat.zero_add, runChunks_of_lt (m := e.run.toNat + 1) (by omega) hlt, ← hadd, BitVec.ofNat_toNat, BitVec.setWidth_eq]
        rfl
    | false =>
      have hmore : n ≠ 0 := fun hn => by simp [hfl, hn] at hflush
      have hrun := encNext_run_of_counts heq hfl
      rw [pixelChunks_eq_nil heq hfl, List.nil_append, hrest fun hn => absurd hn hmore, hrun, hadd, Nat.add_assoc,
        Nat.add_comm 1 n]

/-- Settles O59: PREV is the one colour from START on, so the chunks are those of one run of all the pixels. -/
theorem opaqueBlackImageIsRunChunks : Obligations.OpaqueBlackImageIsRunChunks := by
  intro cfg n s _ h
  obtain ⟨t, ht, hdone, -⟩ := h.ends
  have hsteps := ht
  rw [List.length_replicate] at hsteps
  refine ⟨t, hsteps, hdone, ?_⟩
  have hprev : (emitHeader s).enc.prev = ⟨0#8, 0#8, 0#8, 255#8⟩ := by
    rw [emitHeader_enc, h.ctx]
    rfl
  have hrun : (emitHeader s).enc.run = 0#14 := by
    rw [emitHeader_enc, h.ctx]
    rfl
  have hchunks := h.encodesOn.still.chunksFor_replicate hprev fun _ => hrun
  rw [hrun, BitVec.toNat_zero, Nat.zero_add] at hchunks
  have hbytes := h.bytes_of_steps ht
  have hlen := h.length_bytes_of_steps ht
  have hheader : (encode (cfgHeader cfg)).length = 14 := (size_statement (cfgHeader cfg)).1
  have htrailer : (encode .trailer).length = 4 := rfl
  rw [hchunks] at hbytes
  rw [hbytes, List.length_append, List.length_append, hheader, htrailer] at hlen
  have hmiddle : t.enc.opos - 18 = (encodeAll (runChunks n)).length := by omega
  rw [hmiddle, hbytes, ← hheader, List.drop_left, List.take_left, encodeAll_runChunks]

end Sys2Proof.Machine
end

section
/-!
PROOFS. What `io_fail` does to each context (R158): the error entry with ERR = IO while the pass is busy, nothing at rest.
-/
namespace Sys2Proof.Machine

theorem ioFailCommand_of_not_busy {e : Engine} {s : State} (hrest : (s.phaseOf e).busy = false) : ioFailCommand e s = s := by
  simp [ioFailCommand, hrest]

theorem ioFailCommand_enc_of_busy {s : State} (hbusy : s.enc.phase.busy = true) : ioFailCommand .enc s = raiseEnc .io s :=
  if_pos hbusy

/-- The whole state after `io_fail` to a busy decoder: only registers of DEC and the number of the next draw can have moved; the
HDR registers are as they were or, for a header step that had taken all 14 bytes, as parsed (R163). -/
theorem ioFailCommand_dec_of_busy {s : State} (hbusy : s.dec.phase.busy = true) :
    ∃ w h c cs,
      ioFailCommand .dec s = (drawFree s).setDec
        { s.dec with
          ipos := failPosition s, hdrWidth := w, hdrHeight := h, hdrChannels := c, hdrColorspace := cs,
          err := .io, errPos := failPosition s, phase := .error } ∧
      ((w = s.dec.hdrWidth ∧ h = s.dec.hdrHeight ∧ c = s.dec.hdrChannels ∧ cs = s.dec.hdrColorspace) ∨
        (s.dec.phase = .header ∧ failPosition s = 14 ∧ ∃ m rest, headerParts s.inp = some (m, w, h, c, cs, rest))) := by
  obtain ⟨w, h, c, cs, habandon, hheader⟩ := abandonDec_cases s
  have hfail : ioFailCommand .dec s = raiseDec .io (drawFree (abandonDec s)) := if_pos hbusy
  refine ⟨w, h, c, cs, ?_, hheader⟩
  rw [hfail, habandon]
  rfl

/-- An abandoned step takes IPOS forward or leaves it, wherever it was (R163). -/
theorem ipos_le_failPosition (s : State) : s.dec.ipos ≤ failPosition s := Nat.le_add_right _ _

/-- Settles O39: the error entry of each busy context, and the rest. -/
theorem ioFailTakesTheErrorEntry : Obligations.IoFailTakesTheErrorEntry := by
  refine ⟨fun s l hag hp => ?_, fun s l hag hp => ?_, fun s e l hag hp => ?_⟩
  · obtain ⟨w, h, c, cs, hfail, hheader⟩ := ioFailCommand_dec_of_busy (s := popAgenda s) ((Phase.busy_iff _).mpr hp)
    have hpopped : (popAgenda s).agenda = l := by rw [popAgenda_agenda, hag, List.tail_cons]
    exact ⟨_, (step_of_host hag).trans (congrArg _ hfail), rfl, rfl, ipos_le_failPosition (popAgenda s), hheader,
      rfl, rfl, rfl, rfl, rfl, rfl, rfl, rfl, rfl, hpopped⟩
  · rw [step_of_host hag, hostAct, ioFailCommand_enc_of_busy (s := popAgenda s) ((Phase.busy_iff _).mpr hp)]
    rfl
  · rw [step_of_host hag, hostAct, ioFailCommand_of_not_busy (s := popAgenda s) ((Phase.busy_eq_false_iff _).mpr hp)]

end Sys2Proof.Machine
end

section
/-!
PROOFS. START and ABORT (R174, R177): the initial state of a pass for a context at rest, nothing for a busy one, and the idle
context ABORT leaves in every phase.
-/
namespace Sys2Proof.Machine

/-! ### START -/

theorem startAccepted_iff (p : Phase) : startAccepted p = true ↔ p = .idle ∨ p = .done ∨ p = .error := by
  rw [startAccepted, Bool.not_eq_true', Phase.busy_eq_false_iff]

theorem startCommand_dec_of_accepted {s : State} (hacc : startAccepted s.dec.phase = true) : startCommand .dec s = startDec s :=
  if_pos hacc

theorem startCommand_enc_of_accepted {s : State} (hacc : startAccepted s.enc.phase = true) : startCommand .enc s = startEnc s :=
  if_pos hacc

theorem startCommand_of_busy {e : Engine} {s : State} (hbusy : (s.phaseOf e).busy = true) : startCommand e s = s := by
  simp [startCommand, startAccepted, hbusy]

@[simp] theorem startDec_dec (s : State) : (startDec s).dec = startedDec s.freeCount := rfl
@[simp] theorem startDec_enc (s : State) : (startDec s).enc = s.enc := rfl
@[simp] theorem startDec_out (s : State) : (startDec s).out = s.out := rfl

@[simp] theorem startEnc_enc (s : State) : (startEnc s).enc = startedEnc s.cfgIn := rfl
@[simp] theorem startEnc_out (s : State) : (startEnc s).out = [] := rfl
@[simp] theorem startEnc_dec (s : State) : (startEnc s).dec = s.dec := rfl
@[simp] theorem startEnc_dst (s : State) : (startEnc s).dst = s.dst := rfl

/-- Settles O37: the two accepted starts by the registers they load, the ignored one by its phase. -/
theorem startGivesTheInitialState : Obligations.StartGivesTheInitialState := by
  refine ⟨fun s l hag hp => ?_, fun s l hag hp => ?_, fun s e l hag hp => ?_⟩
  · have hstart : step s = .next (startDec (popAgenda s)) := by
      rw [step_of_host hag, hostAct, startCommand_dec_of_accepted (s := popAgenda s) ((startAccepted_iff _).mpr hp)]
    refine ⟨_, hstart, ?_⟩
    simp [startedDec, prevInit, lookup_zeroCache, zeroPixel]
  · have hstart : step s = .next (startEnc (popAgenda s)) := by
      rw [step_of_host hag, hostAct, startCommand_enc_of_accepted (s := popAgenda s) ((startAccepted_iff _).mpr hp)]
    refine ⟨_, hstart, ?_⟩
    simp [startedEnc, prevInit, lookup_zeroCache, zeroPixel, pixelCount]
  · rw [step_of_host hag, hostAct, startCommand_of_busy (s := popAgenda s) ((Phase.busy_iff _).mpr hp)]

/-! ### ABORT -/

theorem abortCommand_dec (s : State) :
    abortCommand .dec s = (drawFree s).setDec (freeDec s.freeCount (abortedValid s.freeCount s.dec.hdrValid)) := rfl

theorem abortCommand_enc (s : State) : abortCommand .enc s = (drawFree s).setEnc (freeEnc s.freeCount) := rfl

@[simp] theorem freeDec_phase (k : Nat) (valid : Bool) : (freeDec k valid).phase = .idle := rfl
@[simp] theorem freeDec_err (k : Nat) (valid : Bool) : (freeDec k valid).err = .none := rfl
@[simp] theorem freeEnc_phase (k : Nat) : (freeEnc k).phase = .idle := rfl
@[simp] theorem freeEnc_err (k : Nat) : (freeEnc k).err = .none := rfl

/-- Settles O38: ABORT asks no phase; it replaces the registers of one context and draws free values for them. -/
theorem abortEndsThePass : Obligations.AbortEndsThePass := by
  refine ⟨fun s l hag => ⟨_, step_of_host hag, ?_⟩, fun s l hag => ⟨_, step_of_host hag, ?_⟩⟩
  · rw [hostAct, abortCommand_dec]
    simp [drawFree]
  · rw [hostAct, abortCommand_enc]
    simp [drawFree]

end Sys2Proof.Machine
end
